-- ==== Sys2Proof/Word.lean ====
section
/-! DEFINITION. The word types of the register encoder: a register byte, the 16-bit result, a 32-bit wide operand and the
64-bit command word (00_scope.md R7, R10; 30_encoding.md R80). -/
namespace Sys2Proof

/-- A register address or value, or an 8-bit operand: unsigned 8 bits (R10). -/
abbrev Byte := BitVec 8

/-- A 16-bit value: the result register (R41), an F-number or volume operand (R84, R85). -/
abbrev Half := BitVec 16

/-- The 32-bit wide operand `D`, and a blob address (R80, R62). -/
abbrev Wide := BitVec 32

/-- A 64-bit command word (R80). -/
abbrev Word := BitVec 64

end Sys2Proof
end

