-- ==== Sys2Proof/Config.lean ====
section
/-! DEFINITION. What the specification leaves open and no state fixes: the bytes a blob source space answers
(00_scope.md R9; 20_memory.md R62, R63; 93_implementation_defined.md U6). The eight parameters of R8 are held in
`Machine.State.rom`, with their defaults in Machine/Tables.lean. -/
namespace Sys2Proof

/-- `BlobRead(s, a)` where the state lists no byte for address `a` of space `s`: a FREE VALUE with no body, so that
nothing can be proved of it (R63: "A model treats its answer as a free input (any byte)"). Log entry 6. -/
opaque Config.blobRead : BitVec 1 → Wide → Byte

/-- The quotient of FFNUM's frequency by a step of 0, a table value that 41_address_mapping.md R130 excludes. Free: no body
(log entry 13). -/
opaque Config.quotientByZero : Wide → Nat

end Sys2Proof
end

