-- ==== Sys2Proof/Syntax.lean ====
section
/-! DEFINITION. The commands: one constructor for each row of spec/opcode_table.json (30_encoding.md R88). A constructor
holds the bits its format reads (R81) as they stand in the word; clamping, masking and the reading of booleans belong to the
command (00_scope.md R12, 60_exceptions.md R300) and are in Machine/Operands.lean. -/
namespace Sys2Proof

/-- A command of the block. Operands: `a`, `b`, `c` are the bytes A, B, C of the word and `d` its 32-bit field D (R80). -/
inductive Instr where
  /-- RESET, OP 0x01: no operand (R102). -/
  | reset
  /-- SETREG, OP 0x02: A = register, B = value (R104). -/
  | setreg (a : Byte) (b : Byte)
  /-- GETREG, OP 0x03: A = register (R105). -/
  | getreg (a : Byte)
  /-- REGOFF, OP 0x08: A = channel, B = operator (R127). -/
  | regoff (a : Byte) (b : Byte)
  /-- DRUMOFF, OP 0x09: A = drum, B = operator (R128). -/
  | drumoff (a : Byte) (b : Byte)
  /-- FBLOCK, OP 0x0A: D = frequency (mHz) (R129). -/
  | fblock (d : Wide)
  /-- FFNUM, OP 0x0B: A = channel, D = frequency (mHz) (R130). -/
  | ffnum (a : Byte) (d : Wide)
  /-- NOTEFNUM, OP 0x0C: A = note (R131). -/
  | notefnum (a : Byte)
  /-- SETTREM, OP 0x10: A = channel, B = operator, C = value (R152). -/
  | settrem (a : Byte) (b : Byte) (c : Byte)
  /-- SETVIB, OP 0x11: A = channel, B = operator, C = value (R154). -/
  | setvib (a : Byte) (b : Byte) (c : Byte)
  /-- SETSUSH, OP 0x12: A = channel, B = operator, C = value (R156). -/
  | setsush (a : Byte) (b : Byte) (c : Byte)
  /-- SETKSR, OP 0x13: A = channel, B = operator, C = value (R158). -/
  | setksr (a : Byte) (b : Byte) (c : Byte)
  /-- SETMULT, OP 0x14: A = channel, B = operator, C = value (R160). -/
  | setmult (a : Byte) (b : Byte) (c : Byte)
  /-- SETKSL, OP 0x15: A = channel, B = operator, C = value (R162). -/
  | setksl (a : Byte) (b : Byte) (c : Byte)
  /-- SETLVL, OP 0x16: A = channel, B = operator, C = value (R164). -/
  | setlvl (a : Byte) (b : Byte) (c : Byte)
  /-- SETATK, OP 0x17: A = channel, B = operator, C = value (R166). -/
  | setatk (a : Byte) (b : Byte) (c : Byte)
  /-- SETDEC, OP 0x18: A = channel, B = operator, C = value (R168). -/
  | setdec (a : Byte) (b : Byte) (c : Byte)
  /-- SETSUSL, OP 0x19: A = channel, B = operator, C = value (R170). -/
  | setsusl (a : Byte) (b : Byte) (c : Byte)
  /-- SETREL, OP 0x1A: A = channel, B = operator, C = value (R172). -/
  | setrel (a : Byte) (b : Byte) (c : Byte)
  /-- SETWAVE, OP 0x1B: A = channel, B = operator, C = value (R174). -/
  | setwave (a : Byte) (b : Byte) (c : Byte)
  /-- GETTREM, OP 0x20: A = channel, B = operator (R153). -/
  | gettrem (a : Byte) (b : Byte)
  /-- GETVIB, OP 0x21: A = channel, B = operator (R155). -/
  | getvib (a : Byte) (b : Byte)
  /-- GETSUSH, OP 0x22: A = channel, B = operator (R157). -/
  | getsush (a : Byte) (b : Byte)
  /-- GETKSR, OP 0x23: A = channel, B = operator (R159). -/
  | getksr (a : Byte) (b : Byte)
  /-- GETMULT, OP 0x24: A = channel, B = operator (R161). -/
  | getmult (a : Byte) (b : Byte)
  /-- GETKSL, OP 0x25: A = channel, B = operator (R163). -/
  | getksl (a : Byte) (b : Byte)
  /-- GETLVL, OP 0x26: A = channel, B = operator (R165). -/
  | getlvl (a : Byte) (b : Byte)
  /-- GETATK, OP 0x27: A = channel, B = operator (R167). -/
  | getatk (a : Byte) (b : Byte)
  /-- GETDEC, OP 0x28: A = channel, B = operator (R169). -/
  | getdec (a : Byte) (b : Byte)
  /-- GETSUSL, OP 0x29: A = channel, B = operator (R171). -/
  | getsusl (a : Byte) (b : Byte)
  /-- GETREL, OP 0x2A: A = channel, B = operator (R173). -/
  | getrel (a : Byte) (b : Byte)
  /-- GETWAVE, OP 0x2B: A = channel, B = operator (R175). -/
  | getwave (a : Byte) (b : Byte)
  /-- SETFNUM, OP 0x30: A = channel, D[15:0] = F-number (signed) (R200). -/
  | setfnum (a : Byte) (f : Half)
  /-- SETBLK, OP 0x31: A = channel, B = block (R202). -/
  | setblk (a : Byte) (b : Byte)
  /-- SETKEY, OP 0x32: A = channel, B = boolean (R204). -/
  | setkey (a : Byte) (b : Byte)
  /-- SETFB, OP 0x33: A = channel, B = feedback (R206). -/
  | setfb (a : Byte) (b : Byte)
  /-- SETSYN, OP 0x34: A = channel, B = boolean (R208). -/
  | setsyn (a : Byte) (b : Byte)
  /-- GETFNUM, OP 0x38: A = channel (R201). -/
  | getfnum (a : Byte)
  /-- GETBLK, OP 0x39: A = channel (R203). -/
  | getblk (a : Byte)
  /-- GETKEY, OP 0x3A: A = channel (R205). -/
  | getkey (a : Byte)
  /-- GETFB, OP 0x3B: A = channel (R207). -/
  | getfb (a : Byte)
  /-- GETSYN, OP 0x3C: A = channel (R209). -/
  | getsyn (a : Byte)
  /-- SETWSE, OP 0x40: A = boolean (R230). -/
  | setwse (a : Byte)
  /-- GETWSE, OP 0x41: no operand (R231). -/
  | getwse
  /-- SETPERC, OP 0x42: A = boolean (R232). -/
  | setperc (a : Byte)
  /-- GETPERC, OP 0x43: no operand (R233). -/
  | getperc
  /-- SETDRUMS, OP 0x44: A = mask (R234). -/
  | setdrums (a : Byte)
  /-- SETDRUMS5, OP 0x45: A, B, C, D[31:24], D[23:16] = booleans (R235). -/
  | setdrums5 (bass : Byte) (snare : Byte) (tom : Byte) (cymbal : Byte) (hihat : Byte)
  /-- GETDRUMS, OP 0x46: no operand (R237). -/
  | getdrums
  /-- INST_CREATE, OP 0x50: no operand (R256). -/
  | instCreate
  /-- INST_LOAD, OP 0x51: A[0] = space, D = base address (R257). -/
  | instLoad (sp : BitVec 1) (base : Wide)
  /-- INST_GET, OP 0x52: A = channel (R258). -/
  | instGet (a : Byte)
  /-- INST_GET_DRUM, OP 0x53: A = drum (R259). -/
  | instGetDrum (a : Byte)
  /-- INST_SET, OP 0x54: A = channel, D[15:0] = volume (R261). -/
  | instSet (a : Byte) (vol : Half)
  /-- INST_SET_DRUM, OP 0x55: D[15:0] = volume (R263). -/
  | instSetDrum (vol : Half)
  /-- PLAYNOTE, OP 0x60: A = channel, B = octave, C = note (R290). -/
  | playnote (a : Byte) (b : Byte) (c : Byte)
  /-- PLAYDRUM, OP 0x61: A = drum, B = octave, C = note (R291). -/
  | playdrum (a : Byte) (b : Byte) (c : Byte)
  deriving DecidableEq, Repr

end Sys2Proof
end

