-- ==== Sys2Proof/WellFormed.lean ====
section
/-! DEFINITION. Which command words are well formed: the opcode is assigned (30_encoding.md R88, R89) and every bit its
format does not read is 0, as assemblers write it (R81, R90, R94). Every operand value is legal (R91), so an `Instr`, whose
operands have exactly the widths the formats read, cannot be ill-formed. -/
namespace Sys2Proof

/-- The formats of R81. -/
inductive Format where
  | n | a | ab | abc | d | ad | a5
  deriving DecidableEq, Repr

/-- The fields of a word, by bit position (R80). -/
def opField (w : Word) : Byte := w.extractLsb' 56 8
def aField (w : Word) : Byte := w.extractLsb' 48 8
def bField (w : Word) : Byte := w.extractLsb' 40 8
def cField (w : Word) : Byte := w.extractLsb' 32 8
def dField (w : Word) : Wide := w.extractLsb' 0 32

/-- The opcode map of R88: the format of an assigned opcode, none for an unassigned one (R89). -/
def opcodeFormat (op : Byte) : Option Format :=
  match op.toNat with
  | 0x01 => some .n
  | 0x02 => some .ab
  | 0x03 => some .a
  | 0x08 => some .ab
  | 0x09 => some .ab
  | 0x0A => some .d
  | 0x0B => some .ad
  | 0x0C => some .a
  | 0x10 => some .abc
  | 0x11 => some .abc
  | 0x12 => some .abc
  | 0x13 => some .abc
  | 0x14 => some .abc
  | 0x15 => some .abc
  | 0x16 => some .abc
  | 0x17 => some .abc
  | 0x18 => some .abc
  | 0x19 => some .abc
  | 0x1A => some .abc
  | 0x1B => some .abc
  | 0x20 => some .ab
  | 0x21 => some .ab
  | 0x22 => some .ab
  | 0x23 => some .ab
  | 0x24 => some .ab
  | 0x25 => some .ab
  | 0x26 => some .ab
  | 0x27 => some .ab
  | 0x28 => some .ab
  | 0x29 => some .ab
  | 0x2A => some .ab
  | 0x2B => some .ab
  | 0x30 => some .ad
  | 0x31 => some .ab
  | 0x32 => some .ab
  | 0x33 => some .ab
  | 0x34 => some .ab
  | 0x38 => some .a
  | 0x39 => some .a
  | 0x3A => some .a
  | 0x3B => some .a
  | 0x3C => some .a
  | 0x40 => some .a
  | 0x41 => some .n
  | 0x42 => some .a
  | 0x43 => some .n
  | 0x44 => some .a
  | 0x45 => some .a5
  | 0x46 => some .n
  | 0x50 => some .n
  | 0x51 => some .ad
  | 0x52 => some .a
  | 0x53 => some .a
  | 0x54 => some .ad
  | 0x55 => some .d
  | 0x60 => some .abc
  | 0x61 => some .abc
  | _ => none

/-- The bits a format reads beside OP, before the narrower readings R81 names for single commands. -/
def Format.mask : Format → Word
  | .n => 0xFF00000000000000
  | .a => 0xFFFF000000000000
  | .ab => 0xFFFFFF0000000000
  | .abc => 0xFFFFFFFF00000000
  | .d => 0xFF000000FFFFFFFF
  | .ad => 0xFFFF0000FFFFFFFF
  | .a5 => 0xFFFFFFFFFFFF0000

/-- The bits of a word that a command with opcode `op` reads, OP included: its format's (R81), less D[31:16] for
SETFNUM, INST_SET and INST_SET_DRUM (R84, R85) and A[7:1] for INST_LOAD (R86). An unassigned opcode reads OP alone. -/
def readMask (op : Byte) : Word :=
  match op.toNat with
  | 0x30 => 0xFFFF00000000FFFF
  | 0x51 => 0xFF010000FFFFFFFF
  | 0x54 => 0xFFFF00000000FFFF
  | 0x55 => 0xFF0000000000FFFF
  | _ => ((opcodeFormat op).map Format.mask).getD 0xFF00000000000000

/-- First check: the opcode is assigned (R89). -/
def Word.opAssigned (w : Word) : Bool := (opcodeFormat (opField w)).isSome

/-- Second check: every bit the command does not read is 0 (R90, R94). -/
def Word.unreadZero (w : Word) : Bool := w &&& ~~~readMask (opField w) == 0

/-- A well-formed command word: what an assembler writes (R92, R94). -/
def Word.wellFormed (w : Word) : Bool := Word.opAssigned w && Word.unreadZero w

end Sys2Proof
end

