-- ==== Sys2Proof/Decode.lean ====
section
/-! DEFINITION. Decoding a 64-bit command word, total on every word, an unassigned opcode decoding to none (30_encoding.md
R88, R89, R94); the encoder beside it, written from the same table; a word carried as bytes (20_memory.md R67). -/
namespace Sys2Proof

/-- R94: look OP up in the opcode map of R88 and read the fields its format names (R81); none where OP is unassigned. -/
def decode (w : Word) : Option Instr :=
  match (opField w).toNat with
  | 0x01 => some .reset
  | 0x02 => some (.setreg (aField w) (bField w))
  | 0x03 => some (.getreg (aField w))
  | 0x08 => some (.regoff (aField w) (bField w))
  | 0x09 => some (.drumoff (aField w) (bField w))
  | 0x0A => some (.fblock (dField w))
  | 0x0B => some (.ffnum (aField w) (dField w))
  | 0x0C => some (.notefnum (aField w))
  | 0x10 => some (.settrem (aField w) (bField w) (cField w))
  | 0x11 => some (.setvib (aField w) (bField w) (cField w))
  | 0x12 => some (.setsush (aField w) (bField w) (cField w))
  | 0x13 => some (.setksr (aField w) (bField w) (cField w))
  | 0x14 => some (.setmult (aField w) (bField w) (cField w))
  | 0x15 => some (.setksl (aField w) (bField w) (cField w))
  | 0x16 => some (.setlvl (aField w) (bField w) (cField w))
  | 0x17 => some (.setatk (aField w) (bField w) (cField w))
  | 0x18 => some (.setdec (aField w) (bField w) (cField w))
  | 0x19 => some (.setsusl (aField w) (bField w) (cField w))
  | 0x1A => some (.setrel (aField w) (bField w) (cField w))
  | 0x1B => some (.setwave (aField w) (bField w) (cField w))
  | 0x20 => some (.gettrem (aField w) (bField w))
  | 0x21 => some (.getvib (aField w) (bField w))
  | 0x22 => some (.getsush (aField w) (bField w))
  | 0x23 => some (.getksr (aField w) (bField w))
  | 0x24 => some (.getmult (aField w) (bField w))
  | 0x25 => some (.getksl (aField w) (bField w))
  | 0x26 => some (.getlvl (aField w) (bField w))
  | 0x27 => some (.getatk (aField w) (bField w))
  | 0x28 => some (.getdec (aField w) (bField w))
  | 0x29 => some (.getsusl (aField w) (bField w))
  | 0x2A => some (.getrel (aField w) (bField w))
  | 0x2B => some (.getwave (aField w) (bField w))
  | 0x30 => some (.setfnum (aField w) (w.extractLsb' 0 16))
  | 0x31 => some (.setblk (aField w) (bField w))
  | 0x32 => some (.setkey (aField w) (bField w))
  | 0x33 => some (.setfb (aField w) (bField w))
  | 0x34 => some (.setsyn (aField w) (bField w))
  | 0x38 => some (.getfnum (aField w))
  | 0x39 => some (.getblk (aField w))
  | 0x3A => some (.getkey (aField w))
  | 0x3B => some (.getfb (aField w))
  | 0x3C => some (.getsyn (aField w))
  | 0x40 => some (.setwse (aField w))
  | 0x41 => some .getwse
  | 0x42 => some (.setperc (aField w))
  | 0x43 => some .getperc
  | 0x44 => some (.setdrums (aField w))
  | 0x45 => some (.setdrums5 (aField w) (bField w) (cField w) (w.extractLsb' 24 8) (w.extractLsb' 16 8))
  | 0x46 => some .getdrums
  | 0x50 => some .instCreate
  | 0x51 => some (.instLoad (w.extractLsb' 48 1) (dField w))
  | 0x52 => some (.instGet (aField w))
  | 0x53 => some (.instGetDrum (aField w))
  | 0x54 => some (.instSet (aField w) (w.extractLsb' 0 16))
  | 0x55 => some (.instSetDrum (w.extractLsb' 0 16))
  | 0x60 => some (.playnote (aField w) (bField w) (cField w))
  | 0x61 => some (.playdrum (aField w) (bField w) (cField w))
  | _ => none

/-- R94: the word with the five fields `OP`, `A`, `B`, `C`, `D` in their places (R80). -/
def assemble (op a b c : Byte) (d : Wide) : Word :=
  (op.setWidth 64 <<< 56) ||| (a.setWidth 64 <<< 48) ||| (b.setWidth 64 <<< 40) ||| (c.setWidth 64 <<< 32) ||| d.setWidth 64

/-- R88: the opcode of a command. -/
def Instr.opcode : Instr → Byte
  | .reset => 0x01
  | .setreg _ _ => 0x02
  | .getreg _ => 0x03
  | .regoff _ _ => 0x08
  | .drumoff _ _ => 0x09
  | .fblock _ => 0x0A
  | .ffnum _ _ => 0x0B
  | .notefnum _ => 0x0C
  | .settrem _ _ _ => 0x10
  | .setvib _ _ _ => 0x11
  | .setsush _ _ _ => 0x12
  | .setksr _ _ _ => 0x13
  | .setmult _ _ _ => 0x14
  | .setksl _ _ _ => 0x15
  | .setlvl _ _ _ => 0x16
  | .setatk _ _ _ => 0x17
  | .setdec _ _ _ => 0x18
  | .setsusl _ _ _ => 0x19
  | .setrel _ _ _ => 0x1A
  | .setwave _ _ _ => 0x1B
  | .gettrem _ _ => 0x20
  | .getvib _ _ => 0x21
  | .getsush _ _ => 0x22
  | .getksr _ _ => 0x23
  | .getmult _ _ => 0x24
  | .getksl _ _ => 0x25
  | .getlvl _ _ => 0x26
  | .getatk _ _ => 0x27
  | .getdec _ _ => 0x28
  | .getsusl _ _ => 0x29
  | .getrel _ _ => 0x2A
  | .getwave _ _ => 0x2B
  | .setfnum _ _ => 0x30
  | .setblk _ _ => 0x31
  | .setkey _ _ => 0x32
  | .setfb _ _ => 0x33
  | .setsyn _ _ => 0x34
  | .getfnum _ => 0x38
  | .getblk _ => 0x39
  | .getkey _ => 0x3A
  | .getfb _ => 0x3B
  | .getsyn _ => 0x3C
  | .setwse _ => 0x40
  | .getwse => 0x41
  | .setperc _ => 0x42
  | .getperc => 0x43
  | .setdrums _ => 0x44
  | .setdrums5 _ _ _ _ _ => 0x45
  | .getdrums => 0x46
  | .instCreate => 0x50
  | .instLoad _ _ => 0x51
  | .instGet _ => 0x52
  | .instGetDrum _ => 0x53
  | .instSet _ _ => 0x54
  | .instSetDrum _ => 0x55
  | .playnote _ _ _ => 0x60
  | .playdrum _ _ _ => 0x61

/-- R94: the command word of an instruction, every bit it does not read 0. -/
def encode (i : Instr) : Word :=
  match i with
  | .reset => assemble 0x01 0 0 0 0
  | .setreg a b => assemble 0x02 a b 0 0
  | .getreg a => assemble 0x03 a 0 0 0
  | .regoff a b => assemble 0x08 a b 0 0
  | .drumoff a b => assemble 0x09 a b 0 0
  | .fblock d => assemble 0x0A 0 0 0 d
  | .ffnum a d => assemble 0x0B a 0 0 d
  | .notefnum a => assemble 0x0C a 0 0 0
  | .settrem a b c => assemble 0x10 a b c 0
  | .setvib a b c => assemble 0x11 a b c 0
  | .setsush a b c => assemble 0x12 a b c 0
  | .setksr a b c => assemble 0x13 a b c 0
  | .setmult a b c => assemble 0x14 a b c 0
  | .setksl a b c => assemble 0x15 a b c 0
  | .setlvl a b c => assemble 0x16 a b c 0
  | .setatk a b c => assemble 0x17 a b c 0
  | .setdec a b c => assemble 0x18 a b c 0
  | .setsusl a b c => assemble 0x19 a b c 0
  | .setrel a b c => assemble 0x1A a b c 0
  | .setwave a b c => assemble 0x1B a b c 0
  | .gettrem a b => assemble 0x20 a b 0 0
  | .getvib a b => assemble 0x21 a b 0 0
  | .getsush a b => assemble 0x22 a b 0 0
  | .getksr a b => assemble 0x23 a b 0 0
  | .getmult a b => assemble 0x24 a b 0 0
  | .getksl a b => assemble 0x25 a b 0 0
  | .getlvl a b => assemble 0x26 a b 0 0
  | .getatk a b => assemble 0x27 a b 0 0
  | .getdec a b => assemble 0x28 a b 0 0
  | .getsusl a b => assemble 0x29 a b 0 0
  | .getrel a b => assemble 0x2A a b 0 0
  | .getwave a b => assemble 0x2B a b 0 0
  | .setfnum a f => assemble 0x30 a 0 0 (f.setWidth 32)
  | .setblk a b => assemble 0x31 a b 0 0
  | .setkey a b => assemble 0x32 a b 0 0
  | .setfb a b => assemble 0x33 a b 0 0
  | .setsyn a b => assemble 0x34 a b 0 0
  | .getfnum a => assemble 0x38 a 0 0 0
  | .getblk a => assemble 0x39 a 0 0 0
  | .getkey a => assemble 0x3A a 0 0 0
  | .getfb a => assemble 0x3B a 0 0 0
  | .getsyn a => assemble 0x3C a 0 0 0
  | .setwse a => assemble 0x40 a 0 0 0
  | .getwse => assemble 0x41 0 0 0 0
  | .setperc a => assemble 0x42 a 0 0 0
  | .getperc => assemble 0x43 0 0 0 0
  | .setdrums a => assemble 0x44 a 0 0 0
  | .setdrums5 bass snare tom cymbal hihat => assemble 0x45 bass snare tom ((cymbal.setWidth 32 <<< 24) ||| (hihat.setWidth 32 <<< 16))
  | .getdrums => assemble 0x46 0 0 0 0
  | .instCreate => assemble 0x50 0 0 0 0
  | .instLoad sp base => assemble 0x51 (sp.setWidth 8) 0 0 base
  | .instGet a => assemble 0x52 a 0 0 0
  | .instGetDrum a => assemble 0x53 a 0 0 0
  | .instSet a vol => assemble 0x54 a 0 0 (vol.setWidth 32)
  | .instSetDrum vol => assemble 0x55 0 0 0 (vol.setWidth 32)
  | .playnote a b c => assemble 0x60 a b c 0
  | .playdrum a b c => assemble 0x61 a b c 0

/-- R67: a word carried as bytes, most significant byte first. -/
def bytesOfWord (w : Word) : List Byte :=
  [w.extractLsb' 56 8, w.extractLsb' 48 8, w.extractLsb' 40 8, w.extractLsb' 32 8,
   w.extractLsb' 24 8, w.extractLsb' 16 8, w.extractLsb' 8 8, w.extractLsb' 0 8]

/-- R67: the word eight bytes carry, the first byte the most significant. -/
def wordOfBytes (b0 b1 b2 b3 b4 b5 b6 b7 : Byte) : Word :=
  b0 ++ b1 ++ b2 ++ b3 ++ b4 ++ b5 ++ b6 ++ b7

/-- Decoding a stream of bytes: the instruction its first eight bytes carry and the bytes after them; none where fewer
than eight bytes stand there (one instruction length, R80) or the opcode is unassigned (R89). -/
def decodeBytes (bs : List Byte) : Option (Instr × List Byte) :=
  match bs with
  | b0 :: b1 :: b2 :: b3 :: b4 :: b5 :: b6 :: b7 :: rest =>
    (decode (wordOfBytes b0 b1 b2 b3 b4 b5 b6 b7)).map fun i => (i, rest)
  | _ => none

/-- The command word whose low `nbits` bits are `w` and whose other bits are 0, bit 0 being the least significant bit of
the word (R10, R80). -/
def tableWord (nbits w : Nat) : Word := BitVec.ofNat 64 (w % 2 ^ nbits)

/-- The instruction the decoder reads from the word of a row of spec/opcode_table.json, laid out as it is carried, most
significant byte first (R67). -/
def decodeTableWord (nbits w : Nat) : Option Instr :=
  (decodeBytes (bytesOfWord (tableWord nbits w))).map Prod.fst

end Sys2Proof
end

