-- ==== Sys2Proof/Machine/Tables.lean ====
section
/-! DEFINITION. The block's parameters (00_scope.md R8) as one record: its constant tables, the ROM
(41_address_mapping.md R120-R126), and the register field layout (10_state.md R39), with the default value the specification
supplies for each. -/
namespace Sys2Proof.Machine

/-- Where a field lies in its register (10_state.md R39): its bit offset `sh` and its width `w`. -/
structure BitRange where
  sh : Nat
  w : Nat
  deriving DecidableEq, Repr

/-- The parameter `FIELDMAP` (R8; 10_state.md R39): the `sh` and `w` columns of the field descriptor table. The addresses of
the registers are the rules' own. -/
structure FieldMap where
  /-- Tremolo, in 0x20 + o. -/
  trem : BitRange
  /-- Vibrato, in 0x20 + o. -/
  vib : BitRange
  /-- Sustain-hold, in 0x20 + o. -/
  sush : BitRange
  /-- Envelope scaling, in 0x20 + o. -/
  ksr : BitRange
  /-- Multiplier, in 0x20 + o. -/
  mult : BitRange
  /-- Key-scale level, in 0x40 + o. -/
  ksl : BitRange
  /-- Output level, in 0x40 + o. -/
  lvl : BitRange
  /-- Attack, in 0x60 + o. -/
  atk : BitRange
  /-- Decay, in 0x60 + o. -/
  dec : BitRange
  /-- Sustain level, in 0x80 + o. -/
  susl : BitRange
  /-- Release, in 0x80 + o. -/
  rel : BitRange
  /-- Waveform, in 0xE0 + o. -/
  wave : BitRange
  /-- Block, in 0xB0 + c. -/
  blk : BitRange
  /-- Key-on, in 0xB0 + c. -/
  key : BitRange
  /-- Feedback, in 0xC0 + c. -/
  fb : BitRange
  /-- Synthesis mode, in 0xC0 + c. -/
  syn : BitRange
  /-- Waveform-select enable, in 0x01. -/
  wse : BitRange
  /-- Percussion mode, in 0xBD. -/
  perc : BitRange
  /-- Drum enable mask, in 0xBD. -/
  drums : BitRange
  /-- F-number, in the register pair 0xB0 + c (high byte), 0xA0 + c (low byte). -/
  fnum : BitRange
  deriving DecidableEq, Repr

/-- The eight parameters of R8: seven tables and the register field layout. Frequencies are natural numbers of millihertz. -/
structure Rom where
  /-- `OPOFF[p][c]`: the operator offset table (R120). -/
  opoff : Vector (Vector Byte 9) 2
  /-- `DRUMCH[d]`: the channel of drum d (R121). -/
  drumch : Vector (Fin 9) 5
  /-- `DRUMOFF[p][d]`: the drum register offset table, 0xFF where the drum does not use the operator (R122). -/
  drumoff : Vector (Vector Byte 5) 2
  /-- `DRUMBIT[d]`: the enable bit of drum d in register 0xBD (R123). -/
  drumbit : Vector Byte 5
  /-- `BLKTHR_mHz[i]`: the block thresholds (R124). -/
  blkthr : Vector Nat 8
  /-- `BLKSTEP_mHz[b]`: the step of block b (R125). -/
  blkstep : Vector Nat 8
  /-- `NOTEF[n]`: the F-number of note n (R126). -/
  notef : Vector (BitVec 10) 12
  /-- `FIELDMAP`: the register field layout (10_state.md R39). -/
  fields : FieldMap
  deriving DecidableEq, Repr

/-- Default of R120. UNVERIFIED values (the spec gives them as its default, from general knowledge): log entry 3, unsafe
where the chip differs. -/
def opoffDefault : Vector (Vector Byte 9) 2 :=
  #v[#v[0x00, 0x01, 0x02, 0x08, 0x09, 0x0A, 0x10, 0x11, 0x12],
     #v[0x03, 0x04, 0x05, 0x0B, 0x0C, 0x0D, 0x13, 0x14, 0x15]]

/-- Default of R121, UNVERIFIED as above. -/
def drumchDefault : Vector (Fin 9) 5 := #v[6, 7, 8, 8, 7]

/-- Default of R122, UNVERIFIED as above. -/
def drumoffDefault : Vector (Vector Byte 5) 2 :=
  #v[#v[0x10, 0xFF, 0x12, 0xFF, 0x11],
     #v[0x13, 0x14, 0xFF, 0x15, 0xFF]]

/-- Default of R123, UNVERIFIED as above. -/
def drumbitDefault : Vector Byte 5 := #v[0x10, 0x08, 0x04, 0x02, 0x01]

/-- Default of R124, UNVERIFIED as above. -/
def blkthrDefault : Vector Nat 8 := #v[48503, 97006, 194013, 388026, 776053, 1552107, 3104215, 6208431]

/-- Default of R125, UNVERIFIED as above; the entries double only approximately (90_conflicts.md C8). -/
def blkstepDefault : Vector Nat 8 := #v[48, 95, 190, 379, 759, 1517, 3034, 6069]

/-- Default of R126, UNVERIFIED as above. -/
def notefDefault : Vector (BitVec 10) 12 :=
  #v[0x156, 0x16B, 0x181, 0x198, 0x1B0, 0x1CA, 0x1E5, 0x202, 0x220, 0x241, 0x263, 0x287]

/-- Default of `FIELDMAP`, the columns of R39 as the spec writes them. UNVERIFIED as above: log entry 4. -/
def fieldMapDefault : FieldMap where
  trem := ⟨7, 1⟩
  vib := ⟨6, 1⟩
  sush := ⟨5, 1⟩
  ksr := ⟨4, 1⟩
  mult := ⟨0, 4⟩
  ksl := ⟨6, 2⟩
  lvl := ⟨0, 6⟩
  atk := ⟨4, 4⟩
  dec := ⟨0, 4⟩
  susl := ⟨4, 4⟩
  rel := ⟨0, 4⟩
  wave := ⟨0, 2⟩
  blk := ⟨2, 3⟩
  key := ⟨5, 1⟩
  fb := ⟨1, 3⟩
  syn := ⟨0, 1⟩
  wse := ⟨5, 1⟩
  perc := ⟨5, 1⟩
  drums := ⟨0, 5⟩
  fnum := ⟨0, 10⟩

/-- The ROM with every table and the layout at the spec's default. -/
def romDefault : Rom where
  opoff := opoffDefault
  drumch := drumchDefault
  drumoff := drumoffDefault
  drumbit := drumbitDefault
  blkthr := blkthrDefault
  blkstep := blkstepDefault
  notef := notefDefault
  fields := fieldMapDefault

/-- What the rules say of any contents of the tables: the thresholds ascend (R124), no step is zero (R130), each drum bit
is one of the five low bits of 0xBD (R123), and each used drum offset is its channel's operator offset (R122). -/
abbrev Rom.wf (rom : Rom) : Prop :=
  rom.blkthr.toList.Pairwise (· < ·) ∧ (∀ b : Fin 8, rom.blkstep[b] ≠ 0) ∧
  (∀ d : Fin 5, rom.drumbit[d] ∈ [0x10#8, 0x08#8, 0x04#8, 0x02#8, 0x01#8]) ∧
  ∀ (p : Fin 2) (d : Fin 5), rom.drumoff[p][d] = 0xFF ∨ rom.drumoff[p][d] = rom.opoff[p][rom.drumch[d]]

/-- A field of `n` bits that lies within its byte register. -/
abbrev BitRange.inByte (f : BitRange) (n : Nat) : Prop := f.w = n ∧ f.sh + n ≤ 8

/-- Two fields of one register that share no bit. -/
abbrev BitRange.apart (f g : BitRange) : Prop := f.sh + f.w ≤ g.sh ∨ g.sh + g.w ≤ f.sh

/-- A field of register 0xB0 + c in the bit numbers of the F-number's register pair. -/
def BitRange.upper (f : BitRange) : BitRange := ⟨f.sh + 8, f.w⟩

/-- A layout that can hold the block's fields: each has the width the source gives it (R7; 10_state.md R40), lies within its
register, and shares no bit with another field there. -/
abbrev FieldMap.wf (m : FieldMap) : Prop :=
  ((m.trem.inByte 1 ∧ m.vib.inByte 1 ∧ m.sush.inByte 1 ∧ m.ksr.inByte 1 ∧ m.mult.inByte 4) ∧
    [m.trem, m.vib, m.sush, m.ksr, m.mult].Pairwise BitRange.apart) ∧
  (m.ksl.inByte 2 ∧ m.lvl.inByte 6 ∧ m.ksl.apart m.lvl) ∧ (m.atk.inByte 4 ∧ m.dec.inByte 4 ∧ m.atk.apart m.dec) ∧
  (m.susl.inByte 4 ∧ m.rel.inByte 4 ∧ m.susl.apart m.rel) ∧ m.wave.inByte 2 ∧
  (m.blk.inByte 3 ∧ m.key.inByte 1 ∧ m.fnum.w = 10 ∧ m.fnum.sh + 10 ≤ 16 ∧
    [m.fnum, m.blk.upper, m.key.upper].Pairwise BitRange.apart) ∧
  (m.fb.inByte 3 ∧ m.syn.inByte 1 ∧ m.fb.apart m.syn) ∧ m.wse.inByte 1 ∧
  (m.perc.inByte 1 ∧ m.drums.inByte 5 ∧ m.perc.apart m.drums)

end Sys2Proof.Machine
end

