-- ==== Sys2Proof/Machine/Operands.lean ====
section
/-! DEFINITION. Every operand form: the conversions of 00_scope.md R12, and the reading and replacing of a register field
(10_state.md R39). -/
namespace Sys2Proof.Machine

/-- `clamp(x, lo, hi) = min(max(x, lo), hi)` on integers (R10). -/
def clamp (x lo hi : Int) : Int := min (max x lo) hi

/-- A byte clamped to 0..n, as an index of a table of n + 1 entries. -/
def clampFin (n : Nat) (a : Byte) : Fin (n + 1) := ⟨min a.toNat n, Nat.lt_succ_of_le (Nat.min_le_right _ _)⟩

/-- A channel operand: `ch(a) = clamp(a, 0, 8)` (R12). -/
def ch (a : Byte) : Fin 9 := clampFin 8 a

/-- An operator operand: `op(b) = clamp(b, 0, 1)` (R12). -/
def op (b : Byte) : Fin 2 := clampFin 1 b

/-- A drum operand: `drum(a) = clamp(a, 0, 4)` (R12). -/
def drum (a : Byte) : Fin 5 := clampFin 4 a

/-- A note operand: `note(c) = clamp(c, 0, 11)` (R12). -/
def note (c : Byte) : Fin 12 := clampFin 11 c

/-- An octave operand: `oct(b) = clamp(b, 0, 7)` (R12), three bits. -/
def oct (b : Byte) : BitVec 3 := BitVec.ofNat 3 (clampFin 7 b).val

/-- A block operand: `blk(b) = clamp(b, 0, 7)` (R12), three bits. -/
def blk (b : Byte) : BitVec 3 := BitVec.ofNat 3 (clampFin 7 b).val

/-- An F-number operand: `fn(d) = clamp(sext_32(d[15:0]), 0, 1023)` (R12; 30_encoding.md R84), ten bits. -/
def fn (f : Half) : BitVec 10 := BitVec.ofInt 10 (clamp (f.signExtend 32).toInt 0 1023)

/-- A boolean operand: `bool(x)` is 1 if `x != 0` else 0 (R10, R12). -/
def boolOf (x : Byte) : BitVec 1 := if x = 0 then 0 else 1

/-- A channel number as a register offset. -/
def chByte (c : Fin 9) : Byte := BitVec.ofNat 8 c.val

/-! The register fields (R39): `M` is the mask of the width. A field is read and replaced where the layout puts it. -/

/-- `M = 2^w - 1` (R39). -/
def BitRange.max (f : BitRange) : Byte := BitVec.ofNat 8 (2 ^ f.w - 1)

/-- The field in a register value: `(RB[addr] >> sh) & M` (R39). -/
def BitRange.get (f : BitRange) (v : Byte) : Byte := (v >>> f.sh) &&& f.max

/-- The value `x` in the field's place, every other bit 0: `(x & M) << sh` (R39). -/
def BitRange.place (f : BitRange) (x : Byte) : Byte := (x &&& f.max) <<< f.sh

/-- A register value with the field cleared: `RB[addr] & ~(M << sh)` (R39). -/
def BitRange.clear (f : BitRange) (v : Byte) : Byte := v &&& ~~~(f.max <<< f.sh)

/-- A register value with the field replaced: `(RB[addr] & ~(M << sh)) | ((x & M) << sh)` (R39). -/
def BitRange.put (f : BitRange) (v x : Byte) : Byte := f.clear v ||| f.place x

/-- The value a setter's operand byte gives the field: `if w = 1 then bool(C) else C & M` (42_operator_fields.md R150). -/
def BitRange.input (f : BitRange) (c : Byte) : Byte := if f.w = 1 then (boolOf c).setWidth 8 else c &&& f.max

/-! The F-number's field lies in the pair of registers 0xB0 + c, 0xA0 + c read as one value of sixteen bits (R39, row FNUM;
log entry 21). -/

/-- `M` of a field of the pair. -/
def BitRange.pairMax (f : BitRange) : Half := BitVec.ofNat 16 (2 ^ f.w - 1)

/-- The field in the pair of register values. -/
def BitRange.pairGet (f : BitRange) (hi lo : Byte) : Half := ((hi ++ lo) >>> f.sh) &&& f.pairMax

/-- The pair with the field replaced. -/
def BitRange.pairPut (f : BitRange) (hi lo : Byte) (x : Half) : Half :=
  ((hi ++ lo) &&& ~~~(f.pairMax <<< f.sh)) ||| ((x &&& f.pairMax) <<< f.sh)

/-- The low register of the pair with the field replaced: 0xA0 + c (R33). -/
def BitRange.putLow (f : BitRange) (lo : Byte) (x : BitVec 10) : Byte := (f.pairPut 0 lo (x.setWidth 16)).extractLsb' 0 8

/-- The high register of the pair with the field replaced: 0xB0 + c (R34). -/
def BitRange.putHigh (f : BitRange) (hi : Byte) (x : BitVec 10) : Byte := (f.pairPut hi 0 (x.setWidth 16)).extractLsb' 8 8

end Sys2Proof.Machine
end

