-- ==== Sys2Proof/Machine/Memory.lean ====
section
/-! DEFINITION. A byte memory as plain data: the listed bytes by rising address. It holds the register bank (10_state.md
R20; 20_memory.md R60) and the listed bytes of a blob source space (20_memory.md R62). What an unlisted address reads as is
said once for each memory, in Machine/Ops.lean and Machine/State.lean. -/
namespace Sys2Proof.Machine

/-- Listed bytes, addresses strictly rising. -/
abbrev Memory := List Host.Cell

/-- The byte listed at address `a`, if any. -/
def Memory.find (m : Memory) (a : Nat) : Option Byte :=
  match m with
  | [] => none
  | (k, v) :: rest => if a = k then some v else Memory.find rest a

/-- List byte `v` at address `a`, in place of the one listed there. -/
def Memory.insert (m : Memory) (a : Nat) (v : Byte) : Memory :=
  match m with
  | [] => [(a, v)]
  | (k, x) :: rest =>
    if a < k then (a, v) :: (k, x) :: rest
    else if a = k then (a, v) :: rest
    else (k, x) :: Memory.insert rest a v

/-- List nothing at address `a`. -/
def Memory.erase (m : Memory) (a : Nat) : Memory := m.filter fun c => c.1 != a

/-- Write byte `v` at address `a` of a memory whose unlisted addresses read as `unlisted` (`none`: as an open value, which
no listed byte can be said to equal): a byte that an unlisted address reads as is not listed. -/
def Memory.write (unlisted : Option Byte) (m : Memory) (a : Nat) (v : Byte) : Memory :=
  if some v = unlisted then Memory.erase m a else Memory.insert m a v

/-- The canonical form of a memory of `size` addresses: addresses strictly rising and below `size`, and no listed byte
equal to what an unlisted address reads as. -/
abbrev Memory.wf (unlisted : Option Byte) (size : Nat) (m : Memory) : Prop :=
  m.Pairwise (fun c d => c.1 < d.1) ∧ ∀ c ∈ m, c.1 < size ∧ some c.2 ≠ unlisted

end Sys2Proof.Machine
end

