-- ==== Sys2Proof/Machine/State.lean ====
section
/-! DEFINITION. The state of the block as plain data (10_state.md R20-R47), its value after the RESET command (R47) and at
power-on, and the reasons a step can stop (60_exceptions.md R301, R302). -/
namespace Sys2Proof.Machine

/-- One operator of an Instrument (R40). -/
structure Operator where
  trem : BitVec 1
  vib : BitVec 1
  sush : BitVec 1
  ksr : BitVec 1
  mult : BitVec 4
  ksl : BitVec 2
  lvl : BitVec 6
  atk : BitVec 4
  dec : BitVec 4
  susl : BitVec 4
  rel : BitVec 4
  wave : BitVec 2
  deriving DecidableEq, Repr

/-- The type of an Instrument (R40). -/
inductive InstType where
  | melodic | bass | snare | tom | cymbal | hiHat
  deriving DecidableEq, Repr

/-- An Instrument (R40): `op0` is the source's operator 1, `op1` its operator 2. -/
structure Instrument where
  op0 : Operator
  op1 : Operator
  fb : BitVec 3
  add : BitVec 1
  type : InstType
  deriving DecidableEq, Repr

/-- An event of TX (R45): a two-phase register write, or the reset pulse. -/
inductive TxEvent where
  | write (r v : Byte)
  | pulse
  deriving DecidableEq, Repr

/-- What the outside world does to the block between commands: the host delivers a command word (20_memory.md R64), the
host writes IB directly (R46), or the platform changes a byte of a blob source space (20_memory.md R62). -/
inductive Input where
  | command (w : Word)
  | setInstrument (v : Instrument)
  | setBlobByte (sp : BitVec 1) (a : Wide) (v : Byte)
  deriving DecidableEq, Repr

/-- The block and its surroundings. -/
structure State where
  /-- `RB`, the register bank (R20): an unlisted register holds 0. -/
  rb : Memory
  /-- `IB`, the instrument buffer (R40). -/
  ib : Instrument
  /-- `RES`, the result register (R41). -/
  res : Half
  /-- `INIT` (R42). -/
  init : Bool
  /-- `TX`, every event emitted since power-on, oldest first (R43). -/
  tx : List TxEvent
  /-- The constant tables (00_scope.md R8; 41_address_mapping.md R120-R126). -/
  rom : Rom
  /-- Blob source space 0 (20_memory.md R62): an unlisted byte is the open value `Config.blobRead 0`. -/
  blob0 : Memory
  /-- Blob source space 1 (20_memory.md R62): an unlisted byte is the open value `Config.blobRead 1`. -/
  blob1 : Memory
  /-- What the host and the platform have yet to do, oldest first (20_memory.md R64; 00_scope.md R15). -/
  inbox : List Input
  deriving DecidableEq, Repr

/-- Why a step stops in the faulted state of 60_exceptions.md R301; the stop is final (R304). -/
inductive Fault where
  /-- Raised by every command but RESET while INIT = 0, recording the command word (R301). Safe: nothing is proved of what
  the block does there. -/
  | notReset (w : Word)
  deriving DecidableEq, Repr

/-- Why a step stops in the refused state of 60_exceptions.md R302; the stop is final (R304). -/
inductive Refusal where
  /-- Raised by a command word whose OP is unassigned, recording the opcode and the word (R302). Safe. -/
  | unassigned (op : Byte) (w : Word)
  /-- Raised by the arm of a command that has no meaning yet (none in this model). Safe. -/
  | notModelled (mnemonic : String)
  deriving DecidableEq, Repr

/-- `ZeroOp`: every field 0 (45_instrument_codec.md R250). -/
def zeroOp : Operator := ⟨0, 0, 0, 0, 0, 0, 0, 0, 0, 0, 0, 0⟩

/-- `EmptyInstrument`: every field 0, type Melodic (R250). -/
def emptyInstrument : Instrument := ⟨zeroOp, zeroOp, 0, 0, .melodic⟩

/-- What an unlisted register holds: 0, the value RESET leaves (R47). -/
def rbUnlisted : Option Byte := some 0

/-- The number of registers, `NREG` (00_scope.md R7). -/
def nreg : Nat := 256

/-- What an unlisted blob byte is: an open value (20_memory.md R63). -/
def blobUnlisted : Option Byte := none

/-- The number of addresses of a blob source space: 32-bit addresses (20_memory.md R62). -/
def blobSize : Nat := 2 ^ 32

/-- The register addresses 0x00, 0x01, ..., 0xFF in ascending order (40_register_store.md R102). -/
def regAddrs : List Byte := (List.range nreg).map (BitVec.ofNat 8)

/-- The events RESET emits: `Pulse`, then `Write(r, 0)` for every `r` ascending (R47, R102). -/
def resetEvents : List TxEvent := .pulse :: regAddrs.map fun r => .write r 0

/-- Power-on (R47; 70_reset_and_hazards.md R330): INIT = 0 and TX empty, with RB, IB and RES holding unspecified values,
here arguments. -/
def State.powerOn (rb : Memory) (ib : Instrument) (res : Half) : State where
  rb := rb
  ib := ib
  res := res
  init := false
  tx := []
  rom := romDefault
  blob0 := []
  blob1 := []
  inbox := []

/-- The block right after the first RESET command since power-on (R47, column "after RESET"), no input pending. -/
def State.reset : State where
  rb := []
  ib := emptyInstrument
  res := 0
  init := true
  tx := resetEvents
  rom := romDefault
  blob0 := []
  blob1 := []
  inbox := []

end Sys2Proof.Machine
end

