-- ==== Sys2Proof/Machine/Ops.lean ====
section
/-! DEFINITION. The named operations over the state: the primitives of 00_scope.md R11 (`RB[r]`, `Wr`, `ResetPulse`,
`BlobRead`, `RES <- v`), the shared setter and getter (42_operator_fields.md R150, R151), the check of INIT with the block's
one fault (60_exceptions.md R301), and the taking of an input. The block has no exception to enter or return from (R300,
R307, R308). -/
namespace Sys2Proof.Machine

/-- What a step answers. -/
abbrev Result := Host.Outcome State Fault Refusal

/-- `RB[r]`: reads the bank, emits nothing (R11). -/
def State.reg (s : State) (r : Byte) : Byte := (s.rb.find r.toNat).getD 0

/-- `Wr(r, v)`: `RB[r] <- v; TX <- TX ++ [Write(r, v)]`, also where the value is the one already there
(40_register_store.md R100). -/
def State.wr (s : State) (r v : Byte) : State :=
  { s with rb := Memory.write rbUnlisted s.rb r.toNat v, tx := s.tx ++ [.write r v] }

/-- `ResetPulse()` (40_register_store.md R101). -/
def State.resetPulse (s : State) : State := { s with tx := s.tx ++ [.pulse] }

/-- `RES <- v` (R11). -/
def State.setRes (s : State) (v : Half) : State := { s with res := v }

/-- `IB <- v`. -/
def State.setIB (s : State) (v : Instrument) : State := { s with ib := v }

/-- The listed bytes of a blob source space (20_memory.md R62). -/
def State.blob (s : State) (sp : BitVec 1) : Memory := if sp = 0 then s.blob0 else s.blob1

/-- `BlobRead(sp, a)`: the byte listed there, else the open value (20_memory.md R62, R63; log entries 5, 6). -/
def State.blobRead (s : State) (sp : BitVec 1) (a : Wide) : Byte :=
  ((s.blob sp).find a.toNat).getD (Config.blobRead sp a)

/-- The platform puts byte `v` at address `a` of blob source space `sp` (log entry 5). -/
def State.setBlobByte (s : State) (sp : BitVec 1) (a : Wide) (v : Byte) : State :=
  if sp = 0 then { s with blob0 := Memory.write blobUnlisted s.blob0 a.toNat v }
  else { s with blob1 := Memory.write blobUnlisted s.blob1 a.toNat v }

/-- The address of a per-operator field of channel `c`, operator `p`: `base + OPOFF[p][c]`, modulo 256 (10_state.md R25;
20_memory.md R61). -/
def State.opAddr (s : State) (base : Byte) (c : Fin 9) (p : Fin 2) : Byte := base + s.rom.opoff[p][c]

/-- The address of a per-channel field of channel `c`: `base + c` (10_state.md R26). -/
def chAddr (base : Byte) (c : Fin 9) : Byte := base + chByte c

/-- A read-modify-write setter: one `Wr` of the register at `addr` with the field replaced by `x`, and
`RES <- zext_16(addr)` (R39; 42_operator_fields.md R150). -/
def State.setField (s : State) (f : BitRange) (addr x : Byte) : State :=
  (s.wr addr (f.put (s.reg addr) x)).setRes (addr.setWidth 16)

/-- A getter: `RES <- zext_16` of the field of the register at `addr` (R39; 42_operator_fields.md R151). -/
def State.getField (s : State) (f : BitRange) (addr : Byte) : State := s.setRes ((f.get (s.reg addr)).setWidth 16)

/-- R301: the command's effect `t` where INIT = 1, else the fault NotReset, recording the command's word and changing
nothing. -/
def afterReset (i : Instr) (s t : State) : Result := if s.init then .next t else .fault (.notReset (encode i))

/-- R301: a fault records the word as it was received, bits the command does not read included. -/
def recordWord (w : Word) (o : Result) : Result :=
  match o with
  | .next t => .next t
  | .fault (.notReset _) => .fault (.notReset w)
  | .refused r => .refused r

/-- R302: the refusal of a word whose opcode is unassigned. -/
def refuseWord (w : Word) : Result := .refused (.unassigned (opField w) w)

/-- The oldest input, and the state without it. -/
def State.takeInput (s : State) : Option (Input × State) :=
  match s.inbox with
  | [] => none
  | x :: rest => some (x, { s with inbox := rest })

/-- The host delivers `w` ahead of every pending input. -/
def State.deliver (s : State) (w : Word) : State := { s with inbox := .command w :: s.inbox }

end Sys2Proof.Machine
end

