-- ==== Sys2Proof/Machine/AddressMapping.lean ====
section
/-! DEFINITION. Address mapping and frequency conversion: REGOFF, DRUMOFF, FBLOCK, FFNUM, NOTEFNUM (41_address_mapping.md). -/
namespace Sys2Proof.Machine

/-- The linear scan of FBLOCK (R129) over the thresholds from index `i` on: the first index whose threshold exceeds the
frequency, 7 where none does. -/
def blockScan (d : Nat) (thresholds : List Nat) (i : Nat) : Nat :=
  match thresholds with
  | [] => 7
  | t :: rest => if d < t then i else blockScan d rest (i + 1)

/-- The current block of a channel, where the layout puts it, a value of three bits (R130; 00_scope.md R7; log entry 21). -/
def State.currentBlock (s : State) (c : Fin 9) : Fin 8 :=
  BitVec.toFin ((s.rom.fields.blk.get (s.reg (chAddr 0xB0 c))).setWidth 3)

/-- `FSTEP(c)`: the step of the channel's current block (R132). -/
def State.fstep (s : State) (c : Fin 9) : Nat := s.rom.blkstep[s.currentBlock c]

/-- `min(floor(D / step), 1023)` (R130). No rule gives a step of 0, which R130 excludes: the quotient by one is an open value
(log entry 13). -/
def freqFnum (d : Wide) (step : Nat) : Nat := min (if step = 0 then Config.quotientByZero d else d.toNat / step) 1023

/-- REGOFF (R127): `RES <- zext_16(OPOFF[op(B)][ch(A)])`. -/
def execRegoff (a : Byte) (b : Byte) (s : State) : Result :=
  afterReset (.regoff a b) s (s.setRes (s.rom.opoff[op b][ch a].setWidth 16))

/-- DRUMOFF (R128): `RES <- zext_16(DRUMOFF[op(B)][drum(A)])`. -/
def execDrumoff (a : Byte) (b : Byte) (s : State) : Result :=
  afterReset (.drumoff a b) s (s.setRes (s.rom.drumoff[op b][drum a].setWidth 16))

/-- FBLOCK (R129): `RES` is the first block whose threshold exceeds the frequency, saturating at 7. -/
def execFblock (d : Wide) (s : State) : Result :=
  afterReset (.fblock d) s (s.setRes (BitVec.ofNat 16 (blockScan d.toNat s.rom.blkthr.toList 0)))

/-- FFNUM (R130): `RES` is the frequency divided by the step of the channel's current block, at most 1023. -/
def execFfnum (a : Byte) (d : Wide) (s : State) : Result :=
  afterReset (.ffnum a d) s (s.setRes (BitVec.ofNat 16 (freqFnum d (s.fstep (ch a)))))

/-- NOTEFNUM (R131): `RES <- zext_16(NOTEF[note(A)])`. -/
def execNotefnum (a : Byte) (s : State) : Result :=
  afterReset (.notefnum a) s (s.setRes (s.rom.notef[note a].setWidth 16))

end Sys2Proof.Machine
end

