-- ==== Sys2Proof/Machine/ChannelFields.lean ====
section
/-! DEFINITION. The per-channel field accessors: F-number, block, key-on, feedback, synthesis mode (43_channel_fields.md). -/
namespace Sys2Proof.Machine

/-- The setter of a per-channel field of channel `c`, at `f` of register `base + c` (10_state.md R26). -/
def setChannelField (base : Byte) (f : BitRange) (c : Fin 9) (x : Byte) (s : State) : State :=
  s.setField f (chAddr base c) x

/-- The getter of a per-channel field of channel `c`. -/
def getChannelField (base : Byte) (f : BitRange) (c : Fin 9) (s : State) : State := s.getField f (chAddr base c)

/-- SETFNUM's two writes, the low register first (R200): with the default layout `Wr(0xA0 + c, f[7:0])`, then register
0xB0 + c with bits 1:0 replaced by `f[9:8]`. -/
def writeFnum (c : Fin 9) (f : BitVec 10) (s : State) : State :=
  let s1 := s.wr (chAddr 0xA0 c) (s.rom.fields.fnum.putLow (s.reg (chAddr 0xA0 c)) f)
  s1.wr (chAddr 0xB0 c) (s.rom.fields.fnum.putHigh (s1.reg (chAddr 0xB0 c)) f)

/-- The F-number of a channel (R201): with the default layout `{RB[0xB0 + c][1:0], RB[0xA0 + c]}`. -/
def State.fnum (s : State) (c : Fin 9) : Half :=
  s.rom.fields.fnum.pairGet (s.reg (chAddr 0xB0 c)) (s.reg (chAddr 0xA0 c))

/-- SETFNUM (R200): the clamped F-number written low register first; `RES <- 0xA0 + c`. -/
def execSetfnum (a : Byte) (f : Half) (s : State) : Result :=
  afterReset (.setfnum a f) s ((writeFnum (ch a) (fn f) s).setRes ((chAddr 0xA0 (ch a)).setWidth 16))

/-- SETBLK (R202): set the block, clamped to 0..7. -/
def execSetblk (a : Byte) (b : Byte) (s : State) : Result :=
  afterReset (.setblk a b) s (setChannelField 0xB0 s.rom.fields.blk (ch a) ((blk b).setWidth 8) s)

/-- SETKEY (R204): set or clear key-on. -/
def execSetkey (a : Byte) (b : Byte) (s : State) : Result :=
  afterReset (.setkey a b) s (setChannelField 0xB0 s.rom.fields.key (ch a) ((boolOf b).setWidth 8) s)

/-- SETFB (R206): set the feedback, masked to its width, three bits. -/
def execSetfb (a : Byte) (b : Byte) (s : State) : Result :=
  afterReset (.setfb a b) s (setChannelField 0xC0 s.rom.fields.fb (ch a) (b &&& s.rom.fields.fb.max) s)

/-- SETSYN (R208): set the synthesis mode. -/
def execSetsyn (a : Byte) (b : Byte) (s : State) : Result :=
  afterReset (.setsyn a b) s (setChannelField 0xC0 s.rom.fields.syn (ch a) ((boolOf b).setWidth 8) s)

/-- GETFNUM (R201): read the F-number from its two registers. -/
def execGetfnum (a : Byte) (s : State) : Result :=
  afterReset (.getfnum a) s (s.setRes (s.fnum (ch a)))

/-- GETBLK (R203): read the block. -/
def execGetblk (a : Byte) (s : State) : Result :=
  afterReset (.getblk a) s (getChannelField 0xB0 s.rom.fields.blk (ch a) s)

/-- GETKEY (R205): read the key-on bit. -/
def execGetkey (a : Byte) (s : State) : Result :=
  afterReset (.getkey a) s (getChannelField 0xB0 s.rom.fields.key (ch a) s)

/-- GETFB (R207): read the feedback. -/
def execGetfb (a : Byte) (s : State) : Result :=
  afterReset (.getfb a) s (getChannelField 0xC0 s.rom.fields.fb (ch a) s)

/-- GETSYN (R209): read the synthesis mode. -/
def execGetsyn (a : Byte) (s : State) : Result :=
  afterReset (.getsyn a) s (getChannelField 0xC0 s.rom.fields.syn (ch a) s)

end Sys2Proof.Machine
end

