-- ==== Sys2Proof/Machine/GlobalFields.lean ====
section
/-! DEFINITION. The chip-wide fields: waveform-select enable, percussion mode, the five drum enable bits (44_global_fields.md). -/
namespace Sys2Proof.Machine

/-- `DrumsClearThenSet(m)` (R236): the drum bits of 0xBD cleared, then the mask, in its place in the register, set. -/
def drumsClearThenSet (m : Byte) (s : State) : State :=
  let s1 := s.wr 0xBD (s.rom.fields.drums.clear (s.reg 0xBD))
  s1.wr 0xBD (s.rom.fields.drums.clear (s1.reg 0xBD) ||| m)

/-- A drum's enable bit where its boolean operand is true, else 0 (R235, for any `DRUMBIT`). -/
def drumBitIf (s : State) (d : Fin 5) (x : Byte) : Byte := if boolOf x = 1 then s.rom.drumbit[d] else 0

/-- SETDRUMS5's mask (R235): `DRUMBIT[0]*bass | ... | DRUMBIT[4]*hihat`. -/
def drumsMask (s : State) (bass snare tom cymbal hihat : Byte) : Byte :=
  drumBitIf s 0 bass ||| drumBitIf s 1 snare ||| drumBitIf s 2 tom ||| drumBitIf s 3 cymbal ||| drumBitIf s 4 hihat

/-- SETWSE (R230): set or clear waveform-select enable; `RES <- 0x0001`. -/
def execSetwse (a : Byte) (s : State) : Result :=
  afterReset (.setwse a) s (s.setField s.rom.fields.wse 0x01 ((boolOf a).setWidth 8))

/-- GETWSE (R231): read waveform-select enable. -/
def execGetwse (s : State) : Result :=
  afterReset .getwse s (s.getField s.rom.fields.wse 0x01)

/-- SETPERC (R232): set or clear percussion mode; `RES <- 0x00BD`. -/
def execSetperc (a : Byte) (s : State) : Result :=
  afterReset (.setperc a) s (s.setField s.rom.fields.perc 0xBD ((boolOf a).setWidth 8))

/-- GETPERC (R233): read percussion mode. -/
def execGetperc (s : State) : Result :=
  afterReset .getperc s (s.getField s.rom.fields.perc 0xBD)

/-- SETDRUMS (R234): the five drum bits from a raw mask, two writes; `RES <- 0x00BD`. -/
def execSetdrums (a : Byte) (s : State) : Result :=
  afterReset (.setdrums a) s ((drumsClearThenSet (s.rom.fields.drums.place a) s).setRes 0x00BD)

/-- SETDRUMS5 (R235): the five drum bits from five booleans, two writes; `RES <- 0x00BD`. -/
def execSetdrums5 (bass : Byte) (snare : Byte) (tom : Byte) (cymbal : Byte) (hihat : Byte) (s : State) : Result :=
  afterReset (.setdrums5 bass snare tom cymbal hihat) s ((drumsClearThenSet (drumsMask s bass snare tom cymbal hihat) s).setRes 0x00BD)

/-- GETDRUMS (R237): read the drum enable mask. -/
def execGetdrums (s : State) : Result :=
  afterReset .getdrums s (s.getField s.rom.fields.drums 0xBD)

end Sys2Proof.Machine
end

