-- ==== Sys2Proof/Machine/InstrumentCodec.lean ====
section
/-! DEFINITION. The instrument codec: the blob and register encodings of an Instrument, and the INST_* commands (45_instrument_codec.md). -/
namespace Sys2Proof.Machine

/-- One operator from four bytes in layout `m` and its waveform (R252): blob bytes k to k+3, or the first four registers of the
operator (R255). -/
def operatorOfBytes (m : FieldMap) (k0 k1 k2 k3 : Byte) (wave : BitVec 2) : Operator where
  trem := (m.trem.get k0).setWidth 1
  vib := (m.vib.get k0).setWidth 1
  sush := (m.sush.get k0).setWidth 1
  ksr := (m.ksr.get k0).setWidth 1
  mult := (m.mult.get k0).setWidth 4
  ksl := (m.ksl.get k1).setWidth 2
  lvl := (m.lvl.get k1).setWidth 6
  atk := (m.atk.get k2).setWidth 4
  dec := (m.dec.get k2).setWidth 4
  susl := (m.susl.get k3).setWidth 4
  rel := (m.rel.get k3).setWidth 4
  wave := wave

/-- The waveform of blob byte k+4: its low two bits, which the source itself gives (R252). -/
def blobWave (k4 : Byte) : BitVec 2 := k4.extractLsb' 0 2

/-- `TypeOf(t)`: the type a tag byte names (R254). -/
def typeOf (t : Byte) : InstType :=
  match t.toNat with
  | 6 => .bass
  | 7 => .snare
  | 8 => .tom
  | 9 => .cymbal
  | 10 => .hiHat
  | _ => .melodic

/-- `DrumIndex(t)`: 0 for Bass up to 4 for HiHat, none for Melodic (R254). -/
def drumIndex (t : InstType) : Option (Fin 5) :=
  match t with
  | .melodic => none
  | .bass => some 0
  | .snare => some 1
  | .tom => some 2
  | .cymbal => some 3
  | .hiHat => some 4

/-- `DrumType(d)`, the inverse of `DrumIndex` (R254). -/
def drumType (d : Fin 5) : InstType :=
  match d with
  | 0 => .bass
  | 1 => .snare
  | 2 => .tom
  | 3 => .cymbal
  | 4 => .hiHat

/-- `IB.op[p]` (R40). -/
def Instrument.op (i : Instrument) (p : Fin 2) : Operator := if p = 0 then i.op0 else i.op1

/-- `Scale(L, v) = 63 - floor(((63 - L) * V + 0x4000) / 0x8000)` with `V = min(v, 0x8000)` (R260; 30_encoding.md R85). -/
def scale (l : BitVec 6) (v : Half) : BitVec 6 :=
  BitVec.ofNat 6 (63 - ((63 - l.toNat) * min v.toNat 0x8000 + 0x4000) / 0x8000)

/-- The register images of an operator in layout `m` (R255). -/
def img20 (m : FieldMap) (x : Operator) : Byte :=
  m.trem.place (x.trem.setWidth 8) ||| m.vib.place (x.vib.setWidth 8) ||| m.sush.place (x.sush.setWidth 8) |||
    m.ksr.place (x.ksr.setWidth 8) ||| m.mult.place (x.mult.setWidth 8)
def img40 (m : FieldMap) (x : Operator) (l : BitVec 6) : Byte :=
  m.ksl.place (x.ksl.setWidth 8) ||| m.lvl.place (l.setWidth 8)
def img60 (m : FieldMap) (x : Operator) : Byte := m.atk.place (x.atk.setWidth 8) ||| m.dec.place (x.dec.setWidth 8)
def img80 (m : FieldMap) (x : Operator) : Byte := m.susl.place (x.susl.setWidth 8) ||| m.rel.place (x.rel.setWidth 8)
def imgE0 (m : FieldMap) (x : Operator) : Byte := m.wave.place (x.wave.setWidth 8)

/-- `WriteOp(o, X, V)`: the five whole-register writes of an operator at offset `o`, in this order (R255). -/
def writeOp (o : Byte) (x : Operator) (v : Half) (s : State) : State :=
  let m := s.rom.fields
  ((((s.wr (0x20 + o) (img20 m x)).wr (0x40 + o) (img40 m x (scale x.lvl v))).wr (0x60 + o) (img60 m x)).wr (0x80 + o)
    (img80 m x)).wr (0xE0 + o) (imgE0 m x)

/-- `ReadOp(o)`: the operator the five registers at offset `o` hold (R255). -/
def readOp (o : Byte) (s : State) : Operator :=
  operatorOfBytes s.rom.fields (s.reg (0x20 + o)) (s.reg (0x40 + o)) (s.reg (0x60 + o)) (s.reg (0x80 + o))
    ((s.rom.fields.wave.get (s.reg (0xE0 + o))).setWidth 2)

/-- The Instrument a 12-byte blob encodes, byte i being `BlobRead(sp, base + i)` (R251, R257). -/
def loadBlob (sp : BitVec 1) (base : Wide) (s : State) : Instrument :=
  let byte (i : Wide) : Byte := s.blobRead sp (base + i)
  { op0 := operatorOfBytes s.rom.fields (byte 1) (byte 2) (byte 3) (byte 4) (blobWave (byte 5))
    op1 := operatorOfBytes s.rom.fields (byte 7) (byte 8) (byte 9) (byte 10) (blobWave (byte 11))
    fb := (byte 6).extractLsb' 1 3
    add := (byte 6).extractLsb' 0 1
    type := typeOf (byte 0) }

/-- The Instrument read back from channel `c` (R258). -/
def readChannel (c : Fin 9) (s : State) : Instrument where
  op0 := readOp s.rom.opoff[(0 : Fin 2)][c] s
  op1 := readOp s.rom.opoff[(1 : Fin 2)][c] s
  fb := (s.rom.fields.fb.get (s.reg (chAddr 0xC0 c))).setWidth 3
  add := (s.rom.fields.syn.get (s.reg (chAddr 0xC0 c))).setWidth 1
  type := .melodic

/-- Operator `p` of drum `d` read back: `ZeroOp` where the drum does not use it (R259). -/
def readDrumOp (p : Fin 2) (d : Fin 5) (s : State) : Operator :=
  if s.rom.drumoff[p][d] = 0xFF then zeroOp else readOp s.rom.drumoff[p][d] s

/-- The Instrument read back from drum `d` (R259). -/
def readDrum (d : Fin 5) (s : State) : Instrument where
  op0 := readDrumOp 0 d s
  op1 := readDrumOp 1 d s
  fb := 0
  add := 0
  type := drumType d

/-- Waveform-select enable set, with the default layout `Wr(0x01, RB[0x01] | 0x20)` (R261, R263): the write of `SETWSE 1`
(R230). -/
def wseOn (s : State) : State := s.wr 0x01 (s.rom.fields.wse.put (s.reg 0x01) 1)

/-- Register 0xC0 + c with feedback and synthesis mode replaced and its other bits kept (R261, R263). -/
def putFeedback (m : FieldMap) (v : Byte) (fb : BitVec 3) (add : BitVec 1) : Byte :=
  m.syn.put (m.fb.put v (fb.setWidth 8)) (add.setWidth 8)

/-- The writes of INST_SET on channel `c` (R261). -/
def writeChannel (c : Fin 9) (v : Half) (s : State) : State :=
  let s2 := writeOp s.rom.opoff[(1 : Fin 2)][c] s.ib.op1 v (writeOp s.rom.opoff[(0 : Fin 2)][c] s.ib.op0 v (wseOn s))
  s2.wr (chAddr 0xC0 c) (putFeedback s.rom.fields (s2.reg (chAddr 0xC0 c)) s.ib.fb s.ib.add)

/-- INST_SET_DRUM's writes for operator `p`: none where the drum does not use it (R263). -/
def writeDrumOp (p : Fin 2) (d : Fin 5) (v : Half) (s : State) : State :=
  if s.rom.drumoff[p][d] = 0xFF then s else writeOp s.rom.drumoff[p][d] (s.ib.op p) v s

/-- The writes of INST_SET_DRUM on drum `d` (R263). -/
def writeDrum (d : Fin 5) (v : Half) (s : State) : State :=
  let s2 := writeDrumOp 1 d v (writeDrumOp 0 d v (wseOn s))
  s2.wr (chAddr 0xC0 s.rom.drumch[d]) (putFeedback s.rom.fields (s2.reg (chAddr 0xC0 s.rom.drumch[d])) 0 0)

/-- INST_SET_DRUM's effect: the type of IB selects the drum, and a melodic IB writes nothing (R263). -/
def setDrumInstrument (v : Half) (s : State) : State :=
  match drumIndex s.ib.type with
  | none => s
  | some d => writeDrum d v s

/-- INST_CREATE (R256): `IB <- EmptyInstrument`. -/
def execInstCreate (s : State) : Result :=
  afterReset .instCreate s (s.setIB emptyInstrument)

/-- INST_LOAD (R257): IB from the 12-byte blob at `base` of space `sp`. -/
def execInstLoad (sp : BitVec 1) (base : Wide) (s : State) : Result :=
  afterReset (.instLoad sp base) s (s.setIB (loadBlob sp base s))

/-- INST_GET (R258): IB from the registers of a channel, tagged Melodic. -/
def execInstGet (a : Byte) (s : State) : Result :=
  afterReset (.instGet a) s (s.setIB (readChannel (ch a) s))

/-- INST_GET_DRUM (R259): IB from the registers a drum uses, tagged with the drum. -/
def execInstGetDrum (a : Byte) (s : State) : Result :=
  afterReset (.instGetDrum a) s (s.setIB (readDrum (drum a) s))

/-- INST_SET (R261): IB written to a channel with its levels scaled, 12 writes. -/
def execInstSet (a : Byte) (vol : Half) (s : State) : Result :=
  afterReset (.instSet a vol) s (writeChannel (ch a) vol s)

/-- INST_SET_DRUM (R263): IB written to the drum its type names. -/
def execInstSetDrum (vol : Half) (s : State) : Result :=
  afterReset (.instSetDrum vol) s (setDrumInstrument vol s)

end Sys2Proof.Machine
end

