-- ==== Sys2Proof/Machine/OperatorFields.lean ====
section
/-! DEFINITION. The per-operator field accessors, a setter and a getter for each of the twelve operator fields (42_operator_fields.md). -/
namespace Sys2Proof.Machine

/-- `SETF` (R150): the field at `f` of the register at `base` of channel `ch(A)`, operator `op(B)` set from the operand byte C. -/
def setOperatorField (base : Byte) (f : BitRange) (a b c : Byte) (s : State) : State :=
  s.setField f (s.opAddr base (ch a) (op b)) (f.input c)

/-- `GETF` (R151): the field at `f` of the register at `base` of channel `ch(A)`, operator `op(B)` read into RES. -/
def getOperatorField (base : Byte) (f : BitRange) (a b : Byte) (s : State) : State :=
  s.getField f (s.opAddr base (ch a) (op b))

/-- SETTREM (R152): set the tremolo of one operator. -/
def execSettrem (a : Byte) (b : Byte) (c : Byte) (s : State) : Result :=
  afterReset (.settrem a b c) s (setOperatorField 0x20 s.rom.fields.trem a b c s)

/-- SETVIB (R154): set the vibrato of one operator. -/
def execSetvib (a : Byte) (b : Byte) (c : Byte) (s : State) : Result :=
  afterReset (.setvib a b c) s (setOperatorField 0x20 s.rom.fields.vib a b c s)

/-- SETSUSH (R156): set the sustain-hold of one operator. -/
def execSetsush (a : Byte) (b : Byte) (c : Byte) (s : State) : Result :=
  afterReset (.setsush a b c) s (setOperatorField 0x20 s.rom.fields.sush a b c s)

/-- SETKSR (R158): set the envelope scaling of one operator. -/
def execSetksr (a : Byte) (b : Byte) (c : Byte) (s : State) : Result :=
  afterReset (.setksr a b c) s (setOperatorField 0x20 s.rom.fields.ksr a b c s)

/-- SETMULT (R160): set the frequency multiplier of one operator. -/
def execSetmult (a : Byte) (b : Byte) (c : Byte) (s : State) : Result :=
  afterReset (.setmult a b c) s (setOperatorField 0x20 s.rom.fields.mult a b c s)

/-- SETKSL (R162): set the key-scale level of one operator. -/
def execSetksl (a : Byte) (b : Byte) (c : Byte) (s : State) : Result :=
  afterReset (.setksl a b c) s (setOperatorField 0x40 s.rom.fields.ksl a b c s)

/-- SETLVL (R164): set the output level of one operator. -/
def execSetlvl (a : Byte) (b : Byte) (c : Byte) (s : State) : Result :=
  afterReset (.setlvl a b c) s (setOperatorField 0x40 s.rom.fields.lvl a b c s)

/-- SETATK (R166): set the attack of one operator. -/
def execSetatk (a : Byte) (b : Byte) (c : Byte) (s : State) : Result :=
  afterReset (.setatk a b c) s (setOperatorField 0x60 s.rom.fields.atk a b c s)

/-- SETDEC (R168): set the decay of one operator. -/
def execSetdec (a : Byte) (b : Byte) (c : Byte) (s : State) : Result :=
  afterReset (.setdec a b c) s (setOperatorField 0x60 s.rom.fields.dec a b c s)

/-- SETSUSL (R170): set the sustain level of one operator. -/
def execSetsusl (a : Byte) (b : Byte) (c : Byte) (s : State) : Result :=
  afterReset (.setsusl a b c) s (setOperatorField 0x80 s.rom.fields.susl a b c s)

/-- SETREL (R172): set the release of one operator. -/
def execSetrel (a : Byte) (b : Byte) (c : Byte) (s : State) : Result :=
  afterReset (.setrel a b c) s (setOperatorField 0x80 s.rom.fields.rel a b c s)

/-- SETWAVE (R174): set the waveform of one operator. -/
def execSetwave (a : Byte) (b : Byte) (c : Byte) (s : State) : Result :=
  afterReset (.setwave a b c) s (setOperatorField 0xE0 s.rom.fields.wave a b c s)

/-- GETTREM (R153): read the tremolo of one operator. -/
def execGettrem (a : Byte) (b : Byte) (s : State) : Result :=
  afterReset (.gettrem a b) s (getOperatorField 0x20 s.rom.fields.trem a b s)

/-- GETVIB (R155): read the vibrato of one operator. -/
def execGetvib (a : Byte) (b : Byte) (s : State) : Result :=
  afterReset (.getvib a b) s (getOperatorField 0x20 s.rom.fields.vib a b s)

/-- GETSUSH (R157): read the sustain-hold of one operator. -/
def execGetsush (a : Byte) (b : Byte) (s : State) : Result :=
  afterReset (.getsush a b) s (getOperatorField 0x20 s.rom.fields.sush a b s)

/-- GETKSR (R159): read the envelope scaling of one operator. -/
def execGetksr (a : Byte) (b : Byte) (s : State) : Result :=
  afterReset (.getksr a b) s (getOperatorField 0x20 s.rom.fields.ksr a b s)

/-- GETMULT (R161): read the frequency multiplier of one operator. -/
def execGetmult (a : Byte) (b : Byte) (s : State) : Result :=
  afterReset (.getmult a b) s (getOperatorField 0x20 s.rom.fields.mult a b s)

/-- GETKSL (R163): read the key-scale level of one operator. -/
def execGetksl (a : Byte) (b : Byte) (s : State) : Result :=
  afterReset (.getksl a b) s (getOperatorField 0x40 s.rom.fields.ksl a b s)

/-- GETLVL (R165): read the output level of one operator. -/
def execGetlvl (a : Byte) (b : Byte) (s : State) : Result :=
  afterReset (.getlvl a b) s (getOperatorField 0x40 s.rom.fields.lvl a b s)

/-- GETATK (R167): read the attack of one operator. -/
def execGetatk (a : Byte) (b : Byte) (s : State) : Result :=
  afterReset (.getatk a b) s (getOperatorField 0x60 s.rom.fields.atk a b s)

/-- GETDEC (R169): read the decay of one operator. -/
def execGetdec (a : Byte) (b : Byte) (s : State) : Result :=
  afterReset (.getdec a b) s (getOperatorField 0x60 s.rom.fields.dec a b s)

/-- GETSUSL (R171): read the sustain level of one operator. -/
def execGetsusl (a : Byte) (b : Byte) (s : State) : Result :=
  afterReset (.getsusl a b) s (getOperatorField 0x80 s.rom.fields.susl a b s)

/-- GETREL (R173): read the release of one operator. -/
def execGetrel (a : Byte) (b : Byte) (s : State) : Result :=
  afterReset (.getrel a b) s (getOperatorField 0x80 s.rom.fields.rel a b s)

/-- GETWAVE (R175): read the waveform of one operator. -/
def execGetwave (a : Byte) (b : Byte) (s : State) : Result :=
  afterReset (.getwave a b) s (getOperatorField 0xE0 s.rom.fields.wave a b s)

end Sys2Proof.Machine
end

