-- ==== Sys2Proof/Machine/Playback.lean ====
section
/-! DEFINITION. The playback sequencer: PLAYNOTE and PLAYDRUM (46_playback.md). -/
namespace Sys2Proof.Machine

/-- Register 0xB0 + c with block and F-number high bits replaced (R290, R291). -/
def putPitch (m : FieldMap) (v : Byte) (b : BitVec 3) (f : BitVec 10) : Byte := m.blk.put (m.fnum.putHigh v f) (b.setWidth 8)

/-- The three writes of PLAYNOTE (R290): key-off, F-number low, then block, F-number high and key-on together. -/
def playNote (c : Fin 9) (b : BitVec 3) (f : BitVec 10) (s : State) : State :=
  let m := s.rom.fields
  let s1 := s.wr (chAddr 0xB0 c) (m.key.clear (s.reg (chAddr 0xB0 c)))
  let s2 := s1.wr (chAddr 0xA0 c) (m.fnum.putLow (s1.reg (chAddr 0xA0 c)) f)
  s2.wr (chAddr 0xB0 c) (m.key.put (putPitch m (s2.reg (chAddr 0xB0 c)) b f) 1)

/-- The four writes of PLAYDRUM (R291): the drum's bit cleared, F-number low, block and F-number high, the bit set. -/
def playDrum (d : Fin 5) (b : BitVec 3) (f : BitVec 10) (s : State) : State :=
  let m := s.rom.fields
  let c := s.rom.drumch[d]
  let s1 := s.wr 0xBD (s.reg 0xBD &&& ~~~s.rom.drumbit[d])
  let s2 := s1.wr (chAddr 0xA0 c) (m.fnum.putLow (s1.reg (chAddr 0xA0 c)) f)
  let s3 := s2.wr (chAddr 0xB0 c) (putPitch m (s2.reg (chAddr 0xB0 c)) b f)
  s3.wr 0xBD (s3.reg 0xBD ||| s.rom.drumbit[d])

/-- PLAYNOTE (R290): key-off, pitch, key-on on one channel. -/
def execPlaynote (a : Byte) (b : Byte) (c : Byte) (s : State) : Result :=
  afterReset (.playnote a b c) s (playNote (ch a) (oct b) s.rom.notef[note c] s)

/-- PLAYDRUM (R291): a drum's bit off, its channel's pitch, the bit on. -/
def execPlaydrum (a : Byte) (b : Byte) (c : Byte) (s : State) : Result :=
  afterReset (.playdrum a b c) s (playDrum (drum a) (oct b) s.rom.notef[note c] s)

end Sys2Proof.Machine
end

