-- ==== Sys2Proof/Machine/RegisterStore.lean ====
section
/-! DEFINITION. The register store and writer: RESET, SETREG, GETREG (40_register_store.md). -/
namespace Sys2Proof.Machine

/-- `Wr(r, 0x00)` for every address of the list, in its order. -/
def zeroRegs (addrs : List Byte) (s : State) : State := addrs.foldl (fun t r => t.wr r 0x00) s

/-- The effect of RESET: the reset pulse, a zero written to every register in ascending order, IB empty, RES zero and INIT
set (R102). -/
def resetBlock (s : State) : State :=
  { ((zeroRegs regAddrs s.resetPulse).setIB emptyInstrument).setRes 0x0000 with init := true }

/-- RESET (R102): legal also while INIT = 0. -/
def execReset (s : State) : Result := .next (resetBlock s)

/-- SETREG (R104): `Wr(A, B)`; RES unchanged. -/
def execSetreg (a : Byte) (b : Byte) (s : State) : Result :=
  afterReset (.setreg a b) s (s.wr a b)

/-- GETREG (R105): `RES <- zext_16(RB[A])`. -/
def execGetreg (a : Byte) (s : State) : Result :=
  afterReset (.getreg a) s (s.setRes ((s.reg a).setWidth 16))

end Sys2Proof.Machine
end

