-- ==== Sys2Proof/Machine/Dispatch.lean ====
section
/-! DEFINITION. One arm for each command: the call of its meaning. -/
namespace Sys2Proof.Machine

/-- What command `i` does in state `s`. -/
def exec (i : Instr) (s : State) : Host.Outcome State Fault Refusal :=
  match i with
  | .reset => Sys2Proof.Machine.execReset s
  | .setreg a b => Sys2Proof.Machine.execSetreg a b s
  | .getreg a => Sys2Proof.Machine.execGetreg a s
  | .regoff a b => Sys2Proof.Machine.execRegoff a b s
  | .drumoff a b => Sys2Proof.Machine.execDrumoff a b s
  | .fblock d => Sys2Proof.Machine.execFblock d s
  | .ffnum a d => Sys2Proof.Machine.execFfnum a d s
  | .notefnum a => Sys2Proof.Machine.execNotefnum a s
  | .settrem a b c => Sys2Proof.Machine.execSettrem a b c s
  | .setvib a b c => Sys2Proof.Machine.execSetvib a b c s
  | .setsush a b c => Sys2Proof.Machine.execSetsush a b c s
  | .setksr a b c => Sys2Proof.Machine.execSetksr a b c s
  | .setmult a b c => Sys2Proof.Machine.execSetmult a b c s
  | .setksl a b c => Sys2Proof.Machine.execSetksl a b c s
  | .setlvl a b c => Sys2Proof.Machine.execSetlvl a b c s
  | .setatk a b c => Sys2Proof.Machine.execSetatk a b c s
  | .setdec a b c => Sys2Proof.Machine.execSetdec a b c s
  | .setsusl a b c => Sys2Proof.Machine.execSetsusl a b c s
  | .setrel a b c => Sys2Proof.Machine.execSetrel a b c s
  | .setwave a b c => Sys2Proof.Machine.execSetwave a b c s
  | .gettrem a b => Sys2Proof.Machine.execGettrem a b s
  | .getvib a b => Sys2Proof.Machine.execGetvib a b s
  | .getsush a b => Sys2Proof.Machine.execGetsush a b s
  | .getksr a b => Sys2Proof.Machine.execGetksr a b s
  | .getmult a b => Sys2Proof.Machine.execGetmult a b s
  | .getksl a b => Sys2Proof.Machine.execGetksl a b s
  | .getlvl a b => Sys2Proof.Machine.execGetlvl a b s
  | .getatk a b => Sys2Proof.Machine.execGetatk a b s
  | .getdec a b => Sys2Proof.Machine.execGetdec a b s
  | .getsusl a b => Sys2Proof.Machine.execGetsusl a b s
  | .getrel a b => Sys2Proof.Machine.execGetrel a b s
  | .getwave a b => Sys2Proof.Machine.execGetwave a b s
  | .setfnum a f => Sys2Proof.Machine.execSetfnum a f s
  | .setblk a b => Sys2Proof.Machine.execSetblk a b s
  | .setkey a b => Sys2Proof.Machine.execSetkey a b s
  | .setfb a b => Sys2Proof.Machine.execSetfb a b s
  | .setsyn a b => Sys2Proof.Machine.execSetsyn a b s
  | .getfnum a => Sys2Proof.Machine.execGetfnum a s
  | .getblk a => Sys2Proof.Machine.execGetblk a s
  | .getkey a => Sys2Proof.Machine.execGetkey a s
  | .getfb a => Sys2Proof.Machine.execGetfb a s
  | .getsyn a => Sys2Proof.Machine.execGetsyn a s
  | .setwse a => Sys2Proof.Machine.execSetwse a s
  | .getwse => Sys2Proof.Machine.execGetwse s
  | .setperc a => Sys2Proof.Machine.execSetperc a s
  | .getperc => Sys2Proof.Machine.execGetperc s
  | .setdrums a => Sys2Proof.Machine.execSetdrums a s
  | .setdrums5 bass snare tom cymbal hihat => Sys2Proof.Machine.execSetdrums5 bass snare tom cymbal hihat s
  | .getdrums => Sys2Proof.Machine.execGetdrums s
  | .instCreate => Sys2Proof.Machine.execInstCreate s
  | .instLoad sp base => Sys2Proof.Machine.execInstLoad sp base s
  | .instGet a => Sys2Proof.Machine.execInstGet a s
  | .instGetDrum a => Sys2Proof.Machine.execInstGetDrum a s
  | .instSet a vol => Sys2Proof.Machine.execInstSet a vol s
  | .instSetDrum vol => Sys2Proof.Machine.execInstSetDrum vol s
  | .playnote a b c => Sys2Proof.Machine.execPlaynote a b c s
  | .playdrum a b c => Sys2Proof.Machine.execPlaydrum a b c s

end Sys2Proof.Machine
end

