-- ==== Sys2Proof/Machine/Step.lean ====
section
/-! DEFINITION. One step: the oldest input is taken and, where it is a command word, decoded and executed (20_memory.md R64,
R70), the opcode checked before INIT (60_exceptions.md R303). -/
namespace Sys2Proof.Machine

/-- A command word delivered in state `s`: refused where its opcode is unassigned (R302), else executed. -/
def runWord (w : Word) (s : State) : Host.Outcome State Fault Refusal :=
  match decode w with
  | none => refuseWord w
  | some i => recordWord w (exec i s)

/-- One step. With no input pending the block holds its state (60_exceptions.md R314). -/
def step (s : State) : Host.Outcome State Fault Refusal :=
  match s.takeInput with
  | none => .next s
  | some (.command w, t) => runWord w t
  | some (.setInstrument v, t) => .next (t.setIB v)
  | some (.setBlobByte sp a v, t) => .next (t.setBlobByte sp a v)

/-- The state with the command word of `nbits` table bits `w` delivered ahead of every pending input, so that the next step
executes it. -/
def State.withFetchWord (s : State) (nbits w : Nat) : State := s.deliver (tableWord nbits w)

end Sys2Proof.Machine
end

