-- ==== Sys2Proof/Safety.lean ====
section
/-! DEFINITION. The terms claims about the block are stated in: the bank as a faithful shadow of what was transmitted
(10_state.md R21; 20_memory.md R71), the canonical form of the memories, the number of writes of a command
(70_reset_and_hazards.md R350), what a command may write, and runs of
commands. -/
namespace Sys2Proof.Machine

/-- The value of the last `Write` to register `r` among the events, if any. -/
def lastWrite (es : List TxEvent) (r : Byte) : Option Byte :=
  match es with
  | [] => none
  | .pulse :: rest => lastWrite rest r
  | .write a v :: rest => (lastWrite rest r).or (if a = r then some v else none)

/-- R21: every register of the bank holds the last value transmitted to it, or 0 where none was. -/
def State.Faithful (s : State) : Prop := ∀ r : Byte, s.reg r = (lastWrite s.tx r).getD 0

/-- The invariant of R21 in the block's terms: once RESET has run, the bank is a faithful shadow. -/
def State.ShadowInv (s : State) : Prop := s.init = true → s.Faithful

/-- Every memory of the state is in its canonical form. -/
abbrev State.MemWf (s : State) : Prop :=
  Memory.wf rbUnlisted nreg s.rb ∧ Memory.wf blobUnlisted blobSize s.blob0 ∧ Memory.wf blobUnlisted blobSize s.blob1

/-- A list of `Wr(r, v)`, performed in order. -/
def State.writes (s : State) (ws : List (Byte × Byte)) : State := ws.foldl (fun t p => t.wr p.1 p.2) s

/-- The events of a list of `Wr(r, v)`. -/
def writeEvents (ws : List (Byte × Byte)) : List TxEvent := ws.map fun p => .write p.1 p.2

end Sys2Proof.Machine

namespace Sys2Proof
open Machine

/-- The commands that emit no event: the last row of R350. -/
def Instr.emitsNothing (i : Instr) : Bool :=
  match i with
  | .getreg _ | .regoff _ _ | .drumoff _ _ | .fblock _ | .ffnum _ _ | .notefnum _ => true
  | .gettrem _ _ | .getvib _ _ | .getsush _ _ | .getksr _ _ | .getmult _ _ | .getksl _ _ => true
  | .getlvl _ _ | .getatk _ _ | .getdec _ _ | .getsusl _ _ | .getrel _ _ | .getwave _ _ => true
  | .getfnum _ | .getblk _ | .getkey _ | .getfb _ | .getsyn _ | .getwse | .getperc | .getdrums => true
  | .instCreate | .instLoad _ _ | .instGet _ | .instGetDrum _ => true
  | .reset | .setreg _ _ => false
  | .settrem _ _ _ | .setvib _ _ _ | .setsush _ _ _ | .setksr _ _ _ | .setmult _ _ _ | .setksl _ _ _ => false
  | .setlvl _ _ _ | .setatk _ _ _ | .setdec _ _ _ | .setsusl _ _ _ | .setrel _ _ _ | .setwave _ _ _ => false
  | .setfnum _ _ | .setblk _ _ | .setkey _ _ | .setfb _ _ | .setsyn _ _ => false
  | .setwse _ | .setperc _ | .setdrums _ | .setdrums5 _ _ _ _ _ => false
  | .instSet _ _ | .instSetDrum _ | .playnote _ _ _ | .playdrum _ _ _ => false

end Sys2Proof

namespace Sys2Proof.Machine

/-- The number of `Write` events INST_SET_DRUM emits for an instrument of type `t` (R350). -/
def drumWriteCount (t : InstType) : Nat :=
  match t with
  | .melodic => 0
  | .bass => 12
  | .snare | .tom | .cymbal | .hiHat => 7

end Sys2Proof.Machine

namespace Sys2Proof
open Machine

/-- The number of `Write` events of a command, in a state whose ROM is the default (R350). -/
def Instr.writeCount (i : Instr) (s : State) : Nat :=
  match i with
  | .reset => 256
  | .setreg _ _ => 1
  | .settrem _ _ _ | .setvib _ _ _ | .setsush _ _ _ | .setksr _ _ _ | .setmult _ _ _ | .setksl _ _ _ => 1
  | .setlvl _ _ _ | .setatk _ _ _ | .setdec _ _ _ | .setsusl _ _ _ | .setrel _ _ _ | .setwave _ _ _ => 1
  | .setblk _ _ | .setkey _ _ | .setfb _ _ | .setsyn _ _ | .setwse _ | .setperc _ => 1
  | .setfnum _ _ | .setdrums _ | .setdrums5 _ _ _ _ _ => 2
  | .instSet _ _ => 12
  | .instSetDrum _ => drumWriteCount s.ib.type
  | .playnote _ _ _ => 3
  | .playdrum _ _ _ => 4
  | .getreg _ | .regoff _ _ | .drumoff _ _ | .fblock _ | .ffnum _ _ | .notefnum _ => 0
  | .gettrem _ _ | .getvib _ _ | .getsush _ _ | .getksr _ _ | .getmult _ _ | .getksl _ _ => 0
  | .getlvl _ _ | .getatk _ _ | .getdec _ _ | .getsusl _ _ | .getrel _ _ | .getwave _ _ => 0
  | .getfnum _ | .getblk _ | .getkey _ | .getfb _ | .getsyn _ | .getwse | .getperc | .getdrums => 0
  | .instCreate | .instLoad _ _ | .instGet _ | .instGetDrum _ => 0

end Sys2Proof

namespace Sys2Proof.Machine

/-- The number of `Write` events of a list of events. -/
def countWrites (es : List TxEvent) : Nat := es.countP fun e => e != .pulse

/-- What one command answers in any state: its next state `t` where INIT = 1, and the fault NotReset where INIT = 0
(60_exceptions.md R301, R303). -/
def Effect (i : Instr) (s t : State) : Prop :=
  (s.init = true → exec i s = .next t) ∧ (s.init = false → ∃ w, exec i s = .fault (.notReset w))

/-- Commands performed one after another, up to the first that stops (20_memory.md R64, R70; 60_exceptions.md R304). -/
def runCommands (is : List Instr) (s : State) : Result :=
  match is with
  | [] => .next s
  | i :: rest =>
    match exec i s with
    | .next t => runCommands rest t
    | .fault r => .fault r
    | .refused r => .refused r

/-- A boolean operand as a register value: 1 where the byte is not 0, else 0 (00_scope.md R10, R12). -/
def bit (x : Byte) : Byte := if x = 0 then 0 else 1

/-- The twelve operator fields (42_operator_fields.md). -/
inductive OpField where
  | trem | vib | sush | ksr | mult | ksl | lvl | atk | dec | susl | rel | wave
  deriving DecidableEq, Repr

/-- The setter of an operator field. -/
def OpField.setter (f : OpField) (a b c : Byte) : Instr :=
  match f with
  | .trem => .settrem a b c
  | .vib => .setvib a b c
  | .sush => .setsush a b c
  | .ksr => .setksr a b c
  | .mult => .setmult a b c
  | .ksl => .setksl a b c
  | .lvl => .setlvl a b c
  | .atk => .setatk a b c
  | .dec => .setdec a b c
  | .susl => .setsusl a b c
  | .rel => .setrel a b c
  | .wave => .setwave a b c

/-- The getter of an operator field. -/
def OpField.getter (f : OpField) (a b : Byte) : Instr :=
  match f with
  | .trem => .gettrem a b
  | .vib => .getvib a b
  | .sush => .getsush a b
  | .ksr => .getksr a b
  | .mult => .getmult a b
  | .ksl => .getksl a b
  | .lvl => .getlvl a b
  | .atk => .getatk a b
  | .dec => .getdec a b
  | .susl => .getsusl a b
  | .rel => .getrel a b
  | .wave => .getwave a b

/-- The base address of an operator field's register (10_state.md R39). -/
def OpField.base (f : OpField) : Byte :=
  match f with
  | .trem | .vib | .sush | .ksr | .mult => 0x20
  | .ksl | .lvl => 0x40
  | .atk | .dec => 0x60
  | .susl | .rel => 0x80
  | .wave => 0xE0

/-- Where layout `m` puts an operator field. -/
def OpField.range (f : OpField) (m : FieldMap) : BitRange :=
  match f with
  | .trem => m.trem
  | .vib => m.vib
  | .sush => m.sush
  | .ksr => m.ksr
  | .mult => m.mult
  | .ksl => m.ksl
  | .lvl => m.lvl
  | .atk => m.atk
  | .dec => m.dec
  | .susl => m.susl
  | .rel => m.rel
  | .wave => m.wave

/-- The value a setter's operand gives a field of `w` bits: `bool` for one bit, else the low bits (R150). -/
def fieldValue (w : Nat) (c : Byte) : Byte := if w = 1 then bit c else BitVec.ofNat 8 (c.toNat % 2 ^ w)

/-- The registers of the operator at offset `o` (R255). -/
def opRegs (o : Byte) : List Byte := [0x20 + o, 0x40 + o, 0x60 + o, 0x80 + o, 0xE0 + o]

/-- The registers of operator `p` of drum `d`: none where the drum does not use it (45_instrument_codec.md R263). -/
def drumOpRegs (rom : Rom) (p : Fin 2) (d : Fin 5) : List Byte :=
  if rom.drumoff[p][d] = 0xFF then [] else opRegs rom.drumoff[p][d]

/-- The registers INST_SET_DRUM writes for an instrument of type `t` (R263). -/
def drumRegs (rom : Rom) (t : InstType) : List Byte :=
  match drumIndex t with
  | none => []
  | some d => 0x01 :: (drumOpRegs rom 0 d ++ drumOpRegs rom 1 d ++ [chAddr 0xC0 rom.drumch[d]])

end Sys2Proof.Machine

namespace Sys2Proof
open Machine

/-- The registers a command writes in state `s`, as its rule names them. -/
def Instr.addrs (i : Instr) (s : State) : List Byte :=
  match i with
  | .reset => regAddrs
  | .setreg a _ => [a]
  | .getreg _ => []
  | .regoff _ _ => []
  | .drumoff _ _ => []
  | .fblock _ => []
  | .ffnum _ _ => []
  | .notefnum _ => []
  | .settrem a b _ => [s.opAddr 0x20 (ch a) (op b)]
  | .setvib a b _ => [s.opAddr 0x20 (ch a) (op b)]
  | .setsush a b _ => [s.opAddr 0x20 (ch a) (op b)]
  | .setksr a b _ => [s.opAddr 0x20 (ch a) (op b)]
  | .setmult a b _ => [s.opAddr 0x20 (ch a) (op b)]
  | .setksl a b _ => [s.opAddr 0x40 (ch a) (op b)]
  | .setlvl a b _ => [s.opAddr 0x40 (ch a) (op b)]
  | .setatk a b _ => [s.opAddr 0x60 (ch a) (op b)]
  | .setdec a b _ => [s.opAddr 0x60 (ch a) (op b)]
  | .setsusl a b _ => [s.opAddr 0x80 (ch a) (op b)]
  | .setrel a b _ => [s.opAddr 0x80 (ch a) (op b)]
  | .setwave a b _ => [s.opAddr 0xE0 (ch a) (op b)]
  | .gettrem _ _ => []
  | .getvib _ _ => []
  | .getsush _ _ => []
  | .getksr _ _ => []
  | .getmult _ _ => []
  | .getksl _ _ => []
  | .getlvl _ _ => []
  | .getatk _ _ => []
  | .getdec _ _ => []
  | .getsusl _ _ => []
  | .getrel _ _ => []
  | .getwave _ _ => []
  | .setfnum a _ => [chAddr 0xA0 (ch a), chAddr 0xB0 (ch a)]
  | .setblk a _ => [chAddr 0xB0 (ch a)]
  | .setkey a _ => [chAddr 0xB0 (ch a)]
  | .setfb a _ => [chAddr 0xC0 (ch a)]
  | .setsyn a _ => [chAddr 0xC0 (ch a)]
  | .getfnum _ => []
  | .getblk _ => []
  | .getkey _ => []
  | .getfb _ => []
  | .getsyn _ => []
  | .setwse _ => [0x01]
  | .getwse => []
  | .setperc _ => [0xBD]
  | .getperc => []
  | .setdrums _ => [0xBD]
  | .setdrums5 _ _ _ _ _ => [0xBD]
  | .getdrums => []
  | .instCreate => []
  | .instLoad _ _ => []
  | .instGet _ => []
  | .instGetDrum _ => []
  | .instSet a _ => 0x01 :: (opRegs s.rom.opoff[(0 : Fin 2)][ch a] ++ opRegs s.rom.opoff[(1 : Fin 2)][ch a] ++ [chAddr 0xC0 (ch a)])
  | .instSetDrum _ => drumRegs s.rom s.ib.type
  | .playnote a _ _ => [chAddr 0xB0 (ch a), chAddr 0xA0 (ch a)]
  | .playdrum a _ _ => [0xBD, chAddr 0xA0 s.rom.drumch[drum a], chAddr 0xB0 s.rom.drumch[drum a]]

/-- The commands whose rule writes RES (10_state.md R41; 92_eei_decisions.md D4). -/
def Instr.writesRes (i : Instr) : Bool :=
  match i with
  | .reset => true
  | .setreg _ _ => false
  | .getreg _ => true
  | .regoff _ _ => true
  | .drumoff _ _ => true
  | .fblock _ => true
  | .ffnum _ _ => true
  | .notefnum _ => true
  | .settrem _ _ _ => true
  | .setvib _ _ _ => true
  | .setsush _ _ _ => true
  | .setksr _ _ _ => true
  | .setmult _ _ _ => true
  | .setksl _ _ _ => true
  | .setlvl _ _ _ => true
  | .setatk _ _ _ => true
  | .setdec _ _ _ => true
  | .setsusl _ _ _ => true
  | .setrel _ _ _ => true
  | .setwave _ _ _ => true
  | .gettrem _ _ => true
  | .getvib _ _ => true
  | .getsush _ _ => true
  | .getksr _ _ => true
  | .getmult _ _ => true
  | .getksl _ _ => true
  | .getlvl _ _ => true
  | .getatk _ _ => true
  | .getdec _ _ => true
  | .getsusl _ _ => true
  | .getrel _ _ => true
  | .getwave _ _ => true
  | .setfnum _ _ => true
  | .setblk _ _ => true
  | .setkey _ _ => true
  | .setfb _ _ => true
  | .setsyn _ _ => true
  | .getfnum _ => true
  | .getblk _ => true
  | .getkey _ => true
  | .getfb _ => true
  | .getsyn _ => true
  | .setwse _ => true
  | .getwse => true
  | .setperc _ => true
  | .getperc => true
  | .setdrums _ => true
  | .setdrums5 _ _ _ _ _ => true
  | .getdrums => true
  | .instCreate => false
  | .instLoad _ _ => false
  | .instGet _ => false
  | .instGetDrum _ => false
  | .instSet _ _ => false
  | .instSetDrum _ => false
  | .playnote _ _ _ => false
  | .playdrum _ _ _ => false

/-- The commands that write IB: RESET and the four of 10_state.md R46. -/
def Instr.writesIB (i : Instr) : Bool :=
  match i with
  | .reset => true
  | .setreg _ _ => false
  | .getreg _ => false
  | .regoff _ _ => false
  | .drumoff _ _ => false
  | .fblock _ => false
  | .ffnum _ _ => false
  | .notefnum _ => false
  | .settrem _ _ _ => false
  | .setvib _ _ _ => false
  | .setsush _ _ _ => false
  | .setksr _ _ _ => false
  | .setmult _ _ _ => false
  | .setksl _ _ _ => false
  | .setlvl _ _ _ => false
  | .setatk _ _ _ => false
  | .setdec _ _ _ => false
  | .setsusl _ _ _ => false
  | .setrel _ _ _ => false
  | .setwave _ _ _ => false
  | .gettrem _ _ => false
  | .getvib _ _ => false
  | .getsush _ _ => false
  | .getksr _ _ => false
  | .getmult _ _ => false
  | .getksl _ _ => false
  | .getlvl _ _ => false
  | .getatk _ _ => false
  | .getdec _ _ => false
  | .getsusl _ _ => false
  | .getrel _ _ => false
  | .getwave _ _ => false
  | .setfnum _ _ => false
  | .setblk _ _ => false
  | .setkey _ _ => false
  | .setfb _ _ => false
  | .setsyn _ _ => false
  | .getfnum _ => false
  | .getblk _ => false
  | .getkey _ => false
  | .getfb _ => false
  | .getsyn _ => false
  | .setwse _ => false
  | .getwse => false
  | .setperc _ => false
  | .getperc => false
  | .setdrums _ => false
  | .setdrums5 _ _ _ _ _ => false
  | .getdrums => false
  | .instCreate => true
  | .instLoad _ _ => true
  | .instGet _ => true
  | .instGetDrum _ => true
  | .instSet _ _ => false
  | .instSetDrum _ => false
  | .playnote _ _ _ => false
  | .playdrum _ _ _ => false

end Sys2Proof

namespace Sys2Proof.Machine

/-- The bits of register `r` that belong to no field of the block in the default layout: the "preserved" rows of 10_state.md R27-R36, and every
bit of a register that holds no field (R37). -/
def noFieldBits (r : Byte) : Byte :=
  let n := r.toNat
  let operator := n % 32 % 8 < 6 ∧ n % 32 < 22
  if n = 0x01 then 0xDF
  else if 0x20 ≤ n ∧ n < 0xA0 ∧ operator then 0x00
  else if 0xA0 ≤ n ∧ n ≤ 0xA8 then 0x00
  else if 0xB0 ≤ n ∧ n ≤ 0xB8 then 0xC0
  else if n = 0xBD then 0xC0
  else if 0xC0 ≤ n ∧ n ≤ 0xC8 then 0xF0
  else if 0xE0 ≤ n ∧ operator then 0xFC
  else 0xFF

end Sys2Proof.Machine
end

