-- ==== Sys2Proof/Certificates/Slice0/Obligations.lean ====
section
/-! DEFINITION. The statements about the model, each from numbered rules of spec/. `Effect i s t` says both what command `i`
completes with where INIT = 1 and its fault where INIT = 0. A state equation `… = next t` is the whole frame: what `t` does
not name is as it was in `s`. A statement that writes a rule's masks out holds for the default layout of the register fields,
which it names as `s.rom.fields = fieldMapDefault` (10_state.md R39; log entry 4); the same commands in any layout are in
`OperatorFieldsFollowTheLayout` (the operator fields), `CommandsFollowTheLayout` (the channel fields, WSE, PERC, SETDRUMS,
GETDRUMS, FFNUM, the getters after PLAYNOTE), `DrumsAndPlaybackFollowTheLayout` (SETDRUMS5, PLAYNOTE, PLAYDRUM),
`InstrumentReadsFollowTheLayout` (INST_LOAD, INST_GET, INST_GET_DRUM) and `InstrumentWritesFollowTheLayout` (INST_SET,
INST_SET_DRUM). -/
open Sys2Proof Sys2Proof.Machine

/-! ## Words and instructions -/

/-- 30_encoding.md R94, which the spec marks as its own inference from R80, R88, R89: decoding the word of any instruction,
at every operand value, gives it back. -/
def Obligations.DecodeOfEncodeIsTheInstruction : Prop := ∀ i : Instr, decode (encode i) = some i

/-- R94, the spec's own inference, with R81, R84-R87: a word that decodes is encoded again with exactly the bits its command
reads, the others 0. -/
def Obligations.EncodeOfDecodeKeepsReadBits : Prop :=
  ∀ (w : Word) (i : Instr), decode w = some i → encode i = w &&& readMask (opField w)

/-- R90: a word and the same word with the bits its format does not read cleared decode alike and step to the same states.
-/
def Obligations.UnreadBitsAreIgnored : Prop :=
  ∀ (w : Word) (rest : List Input) (s : State), (decode w).isSome →
    decode (w &&& readMask (opField w)) = decode w ∧
    ∀ t, step { s with inbox := .command w :: rest } = .next t ↔
      step { s with inbox := .command (w &&& readMask (opField w)) :: rest } = .next t

/-- The opcode values R89 lists as unassigned. -/
abbrev unassignedOpcode (n : Nat) : Prop :=
  n = 0x00 ∨ (0x04 ≤ n ∧ n ≤ 0x07) ∨ (0x0D ≤ n ∧ n ≤ 0x0F) ∨ (0x1C ≤ n ∧ n ≤ 0x1F) ∨ (0x2C ≤ n ∧ n ≤ 0x2F) ∨
  (0x35 ≤ n ∧ n ≤ 0x37) ∨ (0x3D ≤ n ∧ n ≤ 0x3F) ∨ (0x47 ≤ n ∧ n ≤ 0x4F) ∨ (0x56 ≤ n ∧ n ≤ 0x5F) ∨
  (0x62 ≤ n ∧ n ≤ 0xFF)

/-- R89, R302: exactly the unassigned opcodes decode to nothing, and such a word is refused in every state, the refusal
recording the opcode and the word. -/
def Obligations.UnassignedOpcodesAreRefused : Prop :=
  ∀ w : Word, (decode w = none ↔ unassignedOpcode (opField w).toNat) ∧
    ∀ (s : State) (rest : List Input), unassignedOpcode (opField w).toNat → s.inbox = .command w :: rest →
      step s = .refused (.unassigned (opField w) w)

/-- 95_test_vectors.md section 2.1 (V30.1-V30.9 and V42.4, which the spec derives from its rules): words written out from
the encoding of R80, R88 decode to their commands, one or more of every opcode group. -/
def Obligations.WordsOfTheSpecDecode : Prop :=
  decode 0x1600011000000000 = some (.setlvl 0 1 0x10) ∧ decode 0x0100000000000000 = some .reset ∧
  decode 0x4501000001010000 = some (.setdrums5 1 0 0 1 1) ∧ decode 0x300200000000FFFF = some (.setfnum 2 0xFFFF) ∧
  decode 0x0A0000000006B6C0 = some (.fblock 440000) ∧ decode 0x5101000012345678 = some (.instLoad 1 0x12345678) ∧
  decode 0x5408000000008000 = some (.instSet 8 0x8000) ∧ decode 0x6104070B00000000 = some (.playdrum 4 7 11) ∧
  decode 0x41FFFFFFFFFFFFFF = some .getwse ∧ decode 0x2103010000000000 = some (.getvib 3 1)

/-- 20_memory.md R67: a word is carried as eight bytes, the most significant first, and decoding a byte stream takes exactly
those eight bytes. -/
def Obligations.WordsTravelMostSignificantByteFirst : Prop :=
  (∀ b0 b1 b2 b3 b4 b5 b6 b7 : Byte,
    (wordOfBytes b0 b1 b2 b3 b4 b5 b6 b7).toNat =
      b0.toNat * 2 ^ 56 + b1.toNat * 2 ^ 48 + b2.toNat * 2 ^ 40 + b3.toNat * 2 ^ 32 + b4.toNat * 2 ^ 24 +
        b5.toNat * 2 ^ 16 + b6.toNat * 2 ^ 8 + b7.toNat) ∧
  ∀ (w : Word) (rest : List Byte), decodeBytes (bytesOfWord w ++ rest) = (decode w).map fun i => (i, rest)

/-- 00_scope.md R12: the operand conversions; a multi-bit field's value is masked to the width its layout gives it. -/
def Obligations.OperandsClampAndMask : Prop :=
  (∀ a : Byte, ((ch a).val : Int) = min (max (a.toNat : Int) 0) 8 ∧ ((op a).val : Int) = min (max (a.toNat : Int) 0) 1 ∧
    ((drum a).val : Int) = min (max (a.toNat : Int) 0) 4 ∧ ((note a).val : Int) = min (max (a.toNat : Int) 0) 11 ∧
    ((oct a).toNat : Int) = min (max (a.toNat : Int) 0) 7 ∧ ((blk a).toNat : Int) = min (max (a.toNat : Int) 0) 7 ∧
    (boolOf a).toNat = if a.toNat ≠ 0 then 1 else 0) ∧
  (∀ f : Half, ((fn f).toNat : Int) = min (max f.toInt 0) 1023) ∧
  (∀ (f : OpField) (a b c : Byte) (s t : State) (w : Nat), w = (f.range s.rom.fields).w → w ≠ 1 →
    exec (f.setter a b c) s = .next t → exec (f.setter a b (BitVec.ofNat 8 (c.toNat % 2 ^ w))) s = .next t) ∧
  ∀ (a b : Byte) (s t : State),
    (exec (.setfb a b) s = .next t →
      exec (.setfb a (BitVec.ofNat 8 (b.toNat % 2 ^ s.rom.fields.fb.w))) s = .next t) ∧
    (exec (.setdrums a) s = .next t →
      exec (.setdrums (BitVec.ofNat 8 (a.toNat % 2 ^ s.rom.fields.drums.w))) s = .next t)

/-! ## Steps and stops -/

/-- 20_memory.md R64, R70: a step whose oldest input is a word that decodes to `i` is `exec i` on the state without that
input, a fault recording the word as received. -/
def Obligations.StepRunsTheDecodedInstruction : Prop :=
  ∀ (s : State) (w : Word) (rest : List Input) (i : Instr), s.inbox = .command w :: rest → decode w = some i →
    step s = recordWord w (exec i { s with inbox := rest }) ∧
    ∀ t, exec i { s with inbox := rest } = .next t → step s = .next t

/-- 10_state.md R46, 20_memory.md R62, 60_exceptions.md R314 as the model takes them (log entries 5, 8, 9): with nothing
pending a step holds the state; the host's write of IB and the platform's change of a blob byte change only that. -/
def Obligations.StepsWithoutACommand : Prop :=
  (∀ s : State, s.inbox = [] → step s = .next s) ∧
  (∀ (s : State) (v : Instrument) (rest : List Input), s.inbox = .setInstrument v :: rest →
    step s = .next { s with ib := v, inbox := rest }) ∧
  ∀ (s : State) (sp : BitVec 1) (a : Wide) (v : Byte) (rest : List Input), s.inbox = .setBlobByte sp a v :: rest →
    ∃ t, step s = .next t ∧ t.blobRead sp a = v ∧
      (∀ sp' a', (sp', a') ≠ (sp, a) → t.blobRead sp' a' = s.blobRead sp' a') ∧
      t.rb = s.rb ∧ t.ib = s.ib ∧ t.res = s.res ∧ t.init = s.init ∧ t.tx = s.tx ∧ t.rom = s.rom ∧ t.inbox = rest

/-- 60_exceptions.md R303: first the opcode, then INIT, then the command, which cannot fault. -/
def Obligations.ChecksComeInOrder : Prop :=
  ∀ (s : State) (w : Word) (rest : List Input), s.inbox = .command w :: rest →
    (unassignedOpcode (opField w).toNat → step s = .refused (.unassigned (opField w) w)) ∧
    (¬ unassignedOpcode (opField w).toNat → opField w ≠ 0x01 → s.init = false → step s = .fault (.notReset w)) ∧
    (¬ unassignedOpcode (opField w).toNat → opField w = 0x01 ∨ s.init = true → ∃ t, step s = .next t)

/-- R303 for the commands themselves: every command but RESET completes where INIT = 1, and RESET everywhere. -/
def Obligations.EveryCommandCompletesAfterReset : Prop :=
  ∀ (i : Instr) (s : State), i = .reset ∨ s.init = true → ∃ t, exec i s = .next t

/-- 60_exceptions.md R301: while INIT = 0 every command but RESET faults NotReset, recording the word as received. -/
def Obligations.CommandsBeforeResetFault : Prop :=
  ∀ (i : Instr) (s : State), i ≠ .reset → s.init = false →
    (∃ w, exec i s = .fault (.notReset w)) ∧
    ∀ (w : Word) (rest : List Input), decode w = some i → step { s with inbox := .command w :: rest } = .fault (.notReset w)

/-- 60_exceptions.md R304, the two stopped states being outcomes of a step in this model (log entry 10): where a run of any
length (none included) has come to a state whose oldest input is a word with an unassigned opcode, every longer run ends in
that word's refusal; where it is any command but RESET and INIT = 0, in that word's fault; whatever inputs, RESET words
among them, are pending behind it. -/
def Obligations.StopsAreFinal : Prop :=
  ∀ (n k : Nat) (s t : State) (w : Word) (rest : List Input),
    Sys2Proof.core.run n s = .next t → t.inbox = .command w :: rest →
    (unassignedOpcode (opField w).toNat → Sys2Proof.core.run (n + 1 + k) s = .refused (.unassigned (opField w) w)) ∧
    ∀ i : Instr, decode w = some i → i ≠ .reset → t.init = false →
      Sys2Proof.core.run (n + 1 + k) s = .fault (.notReset w)

/-! ## Register store -/

/-- 40_register_store.md R100: `Wr(r, v)` stores `v` in `RB[r]` alone and emits exactly `Write(r, v)`. -/
def Obligations.WriteStoresAndTransmits : Prop :=
  ∀ (s : State) (r v : Byte), (∀ q, (s.wr r v).reg q = if q = r then v else s.reg q) ∧
    (s.wr r v).tx = s.tx ++ [.write r v] ∧
    { s.wr r v with rb := s.rb, tx := s.tx } = s

/-- R102, 70_reset_and_hazards.md R333: RESET completes in every state, with every register 0, the pulse and 256 ascending
zero writes after every earlier event, IB empty, RES 0 and INIT 1. -/
def Obligations.ResetClearsTheBlock : Prop :=
  ∀ s : State, ∃ t, exec .reset s = .next t ∧ (∀ r, t.reg r = 0x00) ∧
    t.tx = s.tx ++ .pulse :: (List.range 256).map (fun n => .write (BitVec.ofNat 8 n) 0x00) ∧
    t.ib = emptyInstrument ∧ t.res = 0x0000 ∧ t.init = true ∧
    t.rom = s.rom ∧ t.blob0 = s.blob0 ∧ t.blob1 = s.blob1 ∧ t.inbox = s.inbox

/-- R47, R330: from power-on, whatever RB, IB and RES hold, RESET gives State.reset, and State.reset holds the values RESET
leaves (that State.reset is the state after RESET is the model's choice: log entry 1). -/
def Obligations.ResetFromPowerOnGivesStateReset : Prop :=
  (∀ (rb : Memory) (ib : Instrument) (res : Half), Memory.wf rbUnlisted nreg rb →
    (State.powerOn rb ib res).init = false ∧ (State.powerOn rb ib res).tx = [] ∧
    exec .reset (State.powerOn rb ib res) = .next State.reset) ∧
  (∀ r, State.reset.reg r = 0x00) ∧ State.reset.ib = emptyInstrument ∧ State.reset.res = 0x0000 ∧
  State.reset.init = true ∧
  State.reset.tx = .pulse :: (List.range 256).map (fun n => .write (BitVec.ofNat 8 n) 0x00)

/-- R104, R105: SETREG is one Wr, RES unchanged; GETREG reads the shadow into RES and emits nothing. -/
def Obligations.SetregWritesAndGetregReads : Prop :=
  ∀ (s : State) (a b : Byte), Effect (.setreg a b) s (s.wr a b) ∧
    Effect (.getreg a) s { s with res := (s.reg a).setWidth 16 }

/-- R107, which the spec marks as its own inference from R104, R105, R21: after SETREG r, v, GETREG r gives v, whatever
commands that do not write r run between them. -/
def Obligations.GetregReturnsTheValueSet : Prop :=
  ∀ (s s1 s2 : State) (r v : Byte) (is : List Instr), exec (.setreg r v) s = .next s1 → runCommands is s1 = .next s2 →
    (∀ x, .write r x ∉ s2.tx.drop s1.tx.length) → exec (.getreg r) s2 = .next { s2 with res := v.setWidth 16 }

/-! ## Address mapping -/

/-- 41_address_mapping.md R127, R128: REGOFF and DRUMOFF answer the table entry of the clamped operands; with the default
tables (log entry 3) REGOFF answers the formula R120 marks as its own inference from its table, never a gap offset. -/
def Obligations.OffsetQueriesAnswerTheTables : Prop :=
  ∀ (s : State) (a b : Byte),
    Effect (.regoff a b) s { s with res := s.rom.opoff[op b][ch a].setWidth 16 } ∧
    Effect (.drumoff a b) s { s with res := s.rom.drumoff[op b][drum a].setWidth 16 } ∧
    (s.rom = romDefault → s.init = true → ∃ t, exec (.regoff a b) s = .next t ∧ t.res.toNat =
      8 * ((ch a).val / 3) + (ch a).val % 3 + 3 * (op b).val ∧ t.res ∉ [0x06#16, 0x07#16, 0x0E#16, 0x0F#16])

/-- R129: FBLOCK answers the first block whose threshold exceeds the frequency, 7 where none does; a frequency equal to a
threshold (of ascending ones) is in the next block, the frequency 0 (with the default table) in block 0, and the answer
never falls as the frequency rises. -/
def Obligations.BlockOfAFrequency : Prop :=
  (∀ (s : State) (d : Wide), ∃ b : Fin 8, Effect (.fblock d) s { s with res := BitVec.ofNat 16 b.val } ∧
    (∀ j : Fin 8, j < b → s.rom.blkthr[j] ≤ d.toNat) ∧ (d.toNat < s.rom.blkthr[b] ∨ b = 7)) ∧
  (∀ (s : State) (d : Wide) (i : Fin 8), s.rom.wf → d.toNat = s.rom.blkthr[i] →
    Effect (.fblock d) s { s with res := BitVec.ofNat 16 (min (i.val + 1) 7) }) ∧
  (∀ s : State, s.rom = romDefault → Effect (.fblock 0) s { s with res := 0 }) ∧
  ∀ (s t1 t2 : State) (d1 d2 : Wide), d1.toNat ≤ d2.toNat → exec (.fblock d1) s = .next t1 →
    exec (.fblock d2) s = .next t2 → t1.res.toNat ≤ t2.res.toNat

/-- R130: FFNUM divides by the step of the channel's current block in RB, rounding toward zero, and clamps to 1023. -/
def Obligations.FnumberOfAFrequency : Prop :=
  ∀ (s : State) (a : Byte) (d : Wide) (b : Fin 8), s.rom.fields = fieldMapDefault →
    b.val = (s.reg (0xB0 + BitVec.ofNat 8 (ch a).val)).toNat / 4 % 8 → s.rom.blkstep[b] ≠ 0 →
    Effect (.ffnum a d) s { s with res := BitVec.ofNat 16 (min (d.toNat / s.rom.blkstep[b]) 1023) }

/-- R131: NOTEFNUM answers the table entry of the clamped note. -/
def Obligations.FnumberOfANote : Prop :=
  ∀ (s : State) (a : Byte), Effect (.notefnum a) s { s with res := s.rom.notef[note a].setWidth 16 }

/-! ## Operator fields -/

/-- 42_operator_fields.md R152, R154, R156, R158, R160, R162, R164, R166, R168, R170, R172, R174 with R150: the twelve
setters, `r2` the register of the 0x20 group, and so on. -/
def Obligations.OperatorFieldSetters : Prop :=
  ∀ (s : State) (a b c o r2 r4 r6 r8 rE : Byte), s.rom.fields = fieldMapDefault → o = s.rom.opoff[op b][ch a] →
    r2 = 0x20 + o → r4 = 0x40 + o → r6 = 0x60 + o → r8 = 0x80 + o → rE = 0xE0 + o →
    Effect (.settrem a b c) s { s.wr r2 ((s.reg r2 &&& (0x7F : Byte)) ||| (bit c <<< 7)) with res := r2.setWidth 16 } ∧
    Effect (.setvib a b c) s { s.wr r2 ((s.reg r2 &&& (0xBF : Byte)) ||| (bit c <<< 6)) with res := r2.setWidth 16 } ∧
    Effect (.setsush a b c) s { s.wr r2 ((s.reg r2 &&& (0xDF : Byte)) ||| (bit c <<< 5)) with res := r2.setWidth 16 } ∧
    Effect (.setksr a b c) s { s.wr r2 ((s.reg r2 &&& (0xEF : Byte)) ||| (bit c <<< 4)) with res := r2.setWidth 16 } ∧
    Effect (.setmult a b c) s { s.wr r2 ((s.reg r2 &&& 0xF0) ||| (c &&& 0x0F)) with res := r2.setWidth 16 } ∧
    Effect (.setksl a b c) s { s.wr r4 ((s.reg r4 &&& (0x3F : Byte)) ||| ((c &&& 0x03) <<< 6)) with res := r4.setWidth 16 } ∧
    Effect (.setlvl a b c) s { s.wr r4 ((s.reg r4 &&& 0xC0) ||| (c &&& 0x3F)) with res := r4.setWidth 16 } ∧
    Effect (.setatk a b c) s { s.wr r6 ((s.reg r6 &&& (0x0F : Byte)) ||| ((c &&& 0x0F) <<< 4)) with res := r6.setWidth 16 } ∧
    Effect (.setdec a b c) s { s.wr r6 ((s.reg r6 &&& 0xF0) ||| (c &&& 0x0F)) with res := r6.setWidth 16 } ∧
    Effect (.setsusl a b c) s { s.wr r8 ((s.reg r8 &&& (0x0F : Byte)) ||| ((c &&& 0x0F) <<< 4)) with res := r8.setWidth 16 } ∧
    Effect (.setrel a b c) s { s.wr r8 ((s.reg r8 &&& 0xF0) ||| (c &&& 0x0F)) with res := r8.setWidth 16 } ∧
    Effect (.setwave a b c) s { s.wr rE ((s.reg rE &&& 0xFC) ||| (c &&& 0x03)) with res := rE.setWidth 16 }

/-- R153, R155, R157, R159, R161, R163, R165, R167, R169, R171, R173, R175 with R151: the twelve getters. -/
def Obligations.OperatorFieldGetters : Prop :=
  ∀ (s : State) (a b o v : Byte), s.rom.fields = fieldMapDefault → o = s.rom.opoff[op b][ch a] → v = s.reg (0x20 + o) →
    Effect (.gettrem a b) s { s with res := ((v >>> 7) &&& 0x01).setWidth 16 } ∧
    Effect (.getvib a b) s { s with res := ((v >>> 6) &&& 0x01).setWidth 16 } ∧
    Effect (.getsush a b) s { s with res := ((v >>> 5) &&& 0x01).setWidth 16 } ∧
    Effect (.getksr a b) s { s with res := ((v >>> 4) &&& 0x01).setWidth 16 } ∧
    Effect (.getmult a b) s { s with res := (v &&& 0x0F).setWidth 16 } ∧
    Effect (.getksl a b) s { s with res := ((s.reg (0x40 + o) >>> 6) &&& 0x03).setWidth 16 } ∧
    Effect (.getlvl a b) s { s with res := (s.reg (0x40 + o) &&& 0x3F).setWidth 16 } ∧
    Effect (.getatk a b) s { s with res := ((s.reg (0x60 + o) >>> 4) &&& 0x0F).setWidth 16 } ∧
    Effect (.getdec a b) s { s with res := (s.reg (0x60 + o) &&& 0x0F).setWidth 16 } ∧
    Effect (.getsusl a b) s { s with res := ((s.reg (0x80 + o) >>> 4) &&& 0x0F).setWidth 16 } ∧
    Effect (.getrel a b) s { s with res := (s.reg (0x80 + o) &&& 0x0F).setWidth 16 } ∧
    Effect (.getwave a b) s { s with res := (s.reg (0xE0 + o) &&& 0x03).setWidth 16 }

/-- R150, R151 with 10_state.md R39: the setter and the getter of each of the twelve operator fields, in any layout: the bit
offset and the width are the layout's. -/
def Obligations.OperatorFieldsFollowTheLayout : Prop :=
  ∀ (f : OpField) (s : State) (a b c r max : Byte) (m : BitRange), m = f.range s.rom.fields →
    r = f.base + s.rom.opoff[op b][ch a] → max = BitVec.ofNat 8 (2 ^ m.w - 1) →
    Effect (f.setter a b c) s
      { s.wr r ((s.reg r &&& ~~~(max <<< m.sh)) ||| ((if m.w = 1 then bit c else c &&& max) <<< m.sh)) with
        res := r.setWidth 16 } ∧
    Effect (f.getter a b) s { s with res := ((s.reg r >>> m.sh) &&& max).setWidth 16 }

/-- The round trips that R151 and 43_channel_fields.md R201 mark as the spec's own inferences (the source's properties S3,
S4), in any layout that puts the field within its register: each of the twelve operator fields, once set, is read back,
masked or as a boolean, and so is any F-number in 0..1023 (its field in other layouts: log entry 21). -/
def Obligations.FieldsReadBackWhatWasSet : Prop :=
  (∀ (f : OpField) (s t : State) (a b c : Byte) (m : BitRange), m = f.range s.rom.fields → m.sh + m.w ≤ 8 →
    exec (f.setter a b c) s = .next t → exec (f.getter a b) t = .next { t with res := (fieldValue m.w c).setWidth 16 }) ∧
  ∀ (s t : State) (a : Byte) (f : Half) (m : BitRange), m = s.rom.fields.fnum → m.w = 10 → m.sh + m.w ≤ 16 →
    f.toNat ≤ 1023 → exec (.setfnum a f) s = .next t → exec (.getfnum a) t = .next { t with res := f }

/-- R150: with the default tables (log entry 3), setting one field of one operator leaves every other operator field of
every channel and operator as its getter read it. -/
def Obligations.OperatorFieldsAreIndependent : Prop :=
  ∀ (f g : OpField) (s t u v : State) (a b c a' b' : Byte), s.rom = romDefault →
    (f, ch a, op b) ≠ (g, ch a', op b') → exec (f.setter a b c) s = .next t →
    exec (g.getter a' b') s = .next u → exec (g.getter a' b') t = .next v → v.res = u.res

/-! ## Channel fields -/

/-- 43_channel_fields.md R200: SETFNUM, the clamped F-number written low register first. -/
def Obligations.SetfnumWritesBothRegisters : Prop :=
  ∀ (s s1 : State) (a lo hi : Byte) (f : Half) (n : BitVec 10),
    s.rom.fields = fieldMapDefault → (n.toNat : Int) = min (max (f.signExtend 32).toInt 0) 1023 →
    lo = 0xA0 + BitVec.ofNat 8 (ch a).val → hi = 0xB0 + BitVec.ofNat 8 (ch a).val →
    s1 = s.wr lo (BitVec.ofNat 8 (n.toNat % 256)) →
    Effect (.setfnum a f) s
      { s1.wr hi ((s1.reg hi &&& 0xFC) ||| BitVec.ofNat 8 (n.toNat / 256)) with res := lo.setWidth 16 }

/-- R201: GETFNUM joins the two registers. -/
def Obligations.GetfnumJoinsBothRegisters : Prop :=
  ∀ (s : State) (a lo hi : Byte), s.rom.fields = fieldMapDefault → lo = s.reg (0xA0 + BitVec.ofNat 8 (ch a).val) →
    hi = s.reg (0xB0 + BitVec.ofNat 8 (ch a).val) →
    Effect (.getfnum a) s { s with res := BitVec.ofNat 16 (hi.toNat % 4 * 256 + lo.toNat) }

/-- R202, R204, R206, R208: the one-register channel setters. -/
def Obligations.ChannelSetters : Prop :=
  ∀ (s : State) (a b r q : Byte), s.rom.fields = fieldMapDefault → r = 0xB0 + BitVec.ofNat 8 (ch a).val →
    q = 0xC0 + BitVec.ofNat 8 (ch a).val →
    Effect (.setblk a b) s
      { s.wr r ((s.reg r &&& (0xE3 : Byte)) ||| (BitVec.ofNat 8 (min b.toNat 7) <<< 2)) with res := r.setWidth 16 } ∧
    Effect (.setkey a b) s { s.wr r ((s.reg r &&& (0xDF : Byte)) ||| (bit b <<< 5)) with res := r.setWidth 16 } ∧
    Effect (.setfb a b) s { s.wr q ((s.reg q &&& (0xF1 : Byte)) ||| ((b &&& 0x07) <<< 1)) with res := q.setWidth 16 } ∧
    Effect (.setsyn a b) s { s.wr q ((s.reg q &&& 0xFE) ||| bit b) with res := q.setWidth 16 }

/-- R203, R205, R207, R209: the one-register channel getters. -/
def Obligations.ChannelGetters : Prop :=
  ∀ (s : State) (a v u : Byte), s.rom.fields = fieldMapDefault → v = s.reg (0xB0 + BitVec.ofNat 8 (ch a).val) →
    u = s.reg (0xC0 + BitVec.ofNat 8 (ch a).val) →
    Effect (.getblk a) s { s with res := ((v >>> 2) &&& 0x07).setWidth 16 } ∧
    Effect (.getkey a) s { s with res := ((v >>> 5) &&& 0x01).setWidth 16 } ∧
    Effect (.getfb a) s { s with res := ((u >>> 1) &&& 0x07).setWidth 16 } ∧
    Effect (.getsyn a) s { s with res := (u &&& 0x01).setWidth 16 }

/-! ## Global fields -/

/-- 44_global_fields.md R230-R233, R237: SETWSE and SETPERC, GETWSE, GETPERC and GETDRUMS. -/
def Obligations.GlobalFieldSettersAndGetters : Prop :=
  ∀ (s : State) (a : Byte), s.rom.fields = fieldMapDefault →
    Effect (.setwse a) s { s.wr 0x01 ((s.reg 0x01 &&& (0xDF : Byte)) ||| (bit a <<< 5)) with res := 0x0001 } ∧
    Effect (.setperc a) s { s.wr 0xBD ((s.reg 0xBD &&& (0xDF : Byte)) ||| (bit a <<< 5)) with res := 0x00BD } ∧
    Effect .getwse s { s with res := ((s.reg 0x01 >>> 5) &&& 0x01).setWidth 16 } ∧
    Effect .getperc s { s with res := ((s.reg 0xBD >>> 5) &&& 0x01).setWidth 16 } ∧
    Effect .getdrums s { s with res := (s.reg 0xBD &&& 0x1F).setWidth 16 }

/-- R234, R235, R236: SETDRUMS and SETDRUMS5 clear the five drum bits, then set the mask, in two writes; SETDRUMS5's mask is
the or of the enable bits of the true booleans, with the default table bass 16, snare 8, tom 4, cymbal 2, hi-hat 1. With a
table whose enable bits lie in bits 4:0 (R123), bits 7:5 are kept; that a mask of any other table is not cut to five bits
is the model's reading (log entry 19). -/
def Obligations.DrumMasksAreClearedThenSet : Prop :=
  ∀ (s s1 : State), s.rom.fields = fieldMapDefault → s1 = s.wr 0xBD (s.reg 0xBD &&& 0xE0) →
    (∀ a : Byte, Effect (.setdrums a) s { s1.wr 0xBD ((s1.reg 0xBD &&& 0xE0) ||| (a &&& 0x1F)) with res := 0x00BD }) ∧
    (∀ b n t c h : Byte, s.rom = romDefault → Effect (.setdrums5 b n t c h) s
      { s1.wr 0xBD ((s1.reg 0xBD &&& (0xE0 : Byte)) |||
          ((bit b <<< 4) ||| (bit n <<< 3) ||| (bit t <<< 2) ||| (bit c <<< 1) ||| bit h)) with res := 0x00BD }) ∧
    (∀ b n t c h : Byte, Effect (.setdrums5 b n t c h) s
      { s1.wr 0xBD ((s1.reg 0xBD &&& 0xE0) ||| (s.rom.drumbit[(0 : Fin 5)] * bit b ||| s.rom.drumbit[(1 : Fin 5)] * bit n |||
          s.rom.drumbit[(2 : Fin 5)] * bit t ||| s.rom.drumbit[(3 : Fin 5)] * bit c |||
          s.rom.drumbit[(4 : Fin 5)] * bit h)) with res := 0x00BD }) ∧
    ∀ (b n t c h : Byte) (u : State), (∀ d : Fin 5, s.rom.drumbit[d] ∈ [0x10#8, 0x08#8, 0x04#8, 0x02#8, 0x01#8]) →
      exec (.setdrums5 b n t c h) s = .next u → u.reg 0xBD &&& 0xE0 = s.reg 0xBD &&& 0xE0

/-- The bits of a field with bit offset and width `m` replaced by `x` in a register value (10_state.md R39). -/
abbrev fieldReplaced (m : BitRange) (v x : Byte) : Byte :=
  (v &&& ~~~(BitVec.ofNat 8 (2 ^ m.w - 1) <<< m.sh)) ||| ((x &&& BitVec.ofNat 8 (2 ^ m.w - 1)) <<< m.sh)

/-- The same in the F-number's pair of registers. -/
abbrev pairReplaced (m : BitRange) (v x : Half) : Half :=
  (v &&& ~~~(BitVec.ofNat 16 (2 ^ m.w - 1) <<< m.sh)) ||| ((x &&& BitVec.ofNat 16 (2 ^ m.w - 1)) <<< m.sh)

/-- 10_state.md R39 as the model reads it in any layout (log entry 21), for the F-number, block, key-on, feedback, synthesis
mode, waveform select and percussion mode, SETDRUMS and GETDRUMS: the getters shift and mask, the setters replace the field,
the F-number's field lying in its pair of registers, written low register first. FFNUM
takes the block, a number of three bits, from its field. In a layout that can hold the block's fields, the getters read
after PLAYNOTE what it set. -/
def Obligations.CommandsFollowTheLayout : Prop :=
  (∀ (s s1 : State) (a b k lo hi q x : Byte) (f p : Half) (m : FieldMap), m = s.rom.fields → k = BitVec.ofNat 8 (ch a).val →
    lo = 0xA0 + k → hi = 0xB0 + k → q = 0xC0 + k →
    p = pairReplaced m.fnum (s.reg hi ++ s.reg lo) (BitVec.ofInt 16 (min (max f.toInt 0) 1023)) →
    x = s.reg 0xBD &&& ~~~(BitVec.ofNat 8 (2 ^ m.drums.w - 1) <<< m.drums.sh) → s1 = s.wr 0xBD x →
    Effect (.setfnum a f) s { (s.wr lo (p.setWidth 8)).wr hi ((p >>> 8).setWidth 8) with res := lo.setWidth 16 } ∧
    Effect (.getfnum a) s
      { s with res := BitVec.ofNat 16 ((s.reg hi ++ s.reg lo).toNat / 2 ^ m.fnum.sh % 2 ^ m.fnum.w) } ∧
    Effect (.setblk a b) s { s.wr hi (fieldReplaced m.blk (s.reg hi) (BitVec.ofNat 8 (min b.toNat 7))) with
      res := hi.setWidth 16 } ∧
    Effect (.getblk a) s { s with res := BitVec.ofNat 16 ((s.reg hi).toNat / 2 ^ m.blk.sh % 2 ^ m.blk.w) } ∧
    Effect (.setkey a b) s { s.wr hi (fieldReplaced m.key (s.reg hi) (bit b)) with res := hi.setWidth 16 } ∧
    Effect (.getkey a) s { s with res := BitVec.ofNat 16 ((s.reg hi).toNat / 2 ^ m.key.sh % 2 ^ m.key.w) } ∧
    Effect (.setfb a b) s { s.wr q (fieldReplaced m.fb (s.reg q) b) with res := q.setWidth 16 } ∧
    Effect (.getfb a) s { s with res := BitVec.ofNat 16 ((s.reg q).toNat / 2 ^ m.fb.sh % 2 ^ m.fb.w) } ∧
    Effect (.setsyn a b) s { s.wr q (fieldReplaced m.syn (s.reg q) (bit b)) with res := q.setWidth 16 } ∧
    Effect (.getsyn a) s { s with res := BitVec.ofNat 16 ((s.reg q).toNat / 2 ^ m.syn.sh % 2 ^ m.syn.w) } ∧
    Effect (.setwse b) s { s.wr 0x01 (fieldReplaced m.wse (s.reg 0x01) (bit b)) with res := 0x0001 } ∧
    Effect .getwse s { s with res := BitVec.ofNat 16 ((s.reg 0x01).toNat / 2 ^ m.wse.sh % 2 ^ m.wse.w) } ∧
    Effect (.setperc b) s { s.wr 0xBD (fieldReplaced m.perc (s.reg 0xBD) (bit b)) with res := 0x00BD } ∧
    Effect .getperc s { s with res := BitVec.ofNat 16 ((s.reg 0xBD).toNat / 2 ^ m.perc.sh % 2 ^ m.perc.w) } ∧
    Effect (.setdrums b) s { s1.wr 0xBD (fieldReplaced m.drums x b) with res := 0x00BD } ∧
    Effect .getdrums s { s with res := BitVec.ofNat 16 ((s.reg 0xBD).toNat / 2 ^ m.drums.sh % 2 ^ m.drums.w) }) ∧
  (∀ (s : State) (a : Byte) (d : Wide) (b : Fin 8) (f : BitRange), f = s.rom.fields.blk →
    b.val = (s.reg (0xB0 + BitVec.ofNat 8 (ch a).val)).toNat / 2 ^ f.sh % 2 ^ f.w % 8 → s.rom.blkstep[b] ≠ 0 →
    Effect (.ffnum a d) s { s with res := BitVec.ofNat 16 (min (d.toNat / s.rom.blkstep[b]) 1023) }) ∧
  ∀ (s t : State) (a b c : Byte), s.rom.fields.wf → exec (.playnote a b c) s = .next t →
    exec (.getkey a) t = .next { t with res := 1 } ∧
    exec (.getblk a) t = .next { t with res := BitVec.ofNat 16 (min b.toNat 7) } ∧
    exec (.getfnum a) t = .next { t with res := s.rom.notef[note c].setWidth 16 }

/-! ## Instrument codec -/

/-- 45_instrument_codec.md R256, R250: INST_CREATE makes IB the empty instrument. -/
def Obligations.InstCreateEmptiesTheBuffer : Prop :=
  ∀ s : State, Effect .instCreate s
    { s with ib := ⟨⟨0, 0, 0, 0, 0, 0, 0, 0, 0, 0, 0, 0⟩, ⟨0, 0, 0, 0, 0, 0, 0, 0, 0, 0, 0, 0⟩, 0, 0, .melodic⟩ }

/-- The operator five bytes encode (R252), by its bits as numbers. -/
abbrev operatorEncoded (x : Operator) (k0 k1 k2 k3 k4 : Byte) : Prop :=
  x.trem.toNat = k0.toNat / 128 ∧ x.vib.toNat = k0.toNat / 64 % 2 ∧ x.sush.toNat = k0.toNat / 32 % 2 ∧
  x.ksr.toNat = k0.toNat / 16 % 2 ∧ x.mult.toNat = k0.toNat % 16 ∧ x.ksl.toNat = k1.toNat / 64 ∧
  x.lvl.toNat = k1.toNat % 64 ∧ x.atk.toNat = k2.toNat / 16 ∧ x.dec.toNat = k2.toNat % 16 ∧
  x.susl.toNat = k3.toNat / 16 ∧ x.rel.toNat = k3.toNat % 16 ∧ x.wave.toNat = k4.toNat % 4

/-- R251-R254, R257: INST_LOAD decodes the twelve bytes at `base` of space `sp` into IB and changes nothing else. -/
def Obligations.InstLoadDecodesTheBlob : Prop :=
  ∀ (s : State) (sp : BitVec 1) (base : Wide) (y : Nat → Byte), s.rom.fields = fieldMapDefault →
    (∀ i, i < 12 → y i = s.blobRead sp (base + BitVec.ofNat 32 i)) →
    ∃ v : Instrument, Effect (.instLoad sp base) s { s with ib := v } ∧
      operatorEncoded v.op0 (y 1) (y 2) (y 3) (y 4) (y 5) ∧ operatorEncoded v.op1 (y 7) (y 8) (y 9) (y 10) (y 11) ∧
      v.fb.toNat = (y 6).toNat / 2 % 8 ∧ v.add.toNat = (y 6).toNat % 2 ∧
      v.type = if (y 0).toNat = 6 then .bass else if (y 0).toNat = 7 then .snare else if (y 0).toNat = 8 then .tom
        else if (y 0).toNat = 9 then .cymbal else if (y 0).toNat = 10 then .hiHat else .melodic

/-- R258: INST_GET reads the channel's registers into IB, tagged Melodic. -/
def Obligations.InstGetReadsTheChannel : Prop :=
  ∀ (s : State) (a o0 o1 k : Byte), s.rom.fields = fieldMapDefault → o0 = s.rom.opoff[(0 : Fin 2)][ch a] →
    o1 = s.rom.opoff[(1 : Fin 2)][ch a] → k = s.reg (0xC0 + BitVec.ofNat 8 (ch a).val) →
    ∃ v : Instrument, Effect (.instGet a) s { s with ib := v } ∧
      operatorEncoded v.op0 (s.reg (0x20 + o0)) (s.reg (0x40 + o0)) (s.reg (0x60 + o0)) (s.reg (0x80 + o0))
        (s.reg (0xE0 + o0)) ∧
      operatorEncoded v.op1 (s.reg (0x20 + o1)) (s.reg (0x40 + o1)) (s.reg (0x60 + o1)) (s.reg (0x80 + o1))
        (s.reg (0xE0 + o1)) ∧
      v.fb.toNat = k.toNat / 2 % 8 ∧ v.add.toNat = k.toNat % 2 ∧ v.type = .melodic

/-- R259: INST_GET_DRUM reads the operators the drum uses, the others as zero, without feedback, tagged with the drum. -/
def Obligations.InstGetDrumReadsTheDrum : Prop :=
  ∀ (s : State) (a : Byte), s.rom.fields = fieldMapDefault → ∃ v : Instrument,
    Effect (.instGetDrum a) s { s with ib := v } ∧
    (∀ (p : Fin 2) (o : Byte), o = s.rom.drumoff[p][drum a] →
      (o = 0xFF → v.op p = ⟨0, 0, 0, 0, 0, 0, 0, 0, 0, 0, 0, 0⟩) ∧
      (o ≠ 0xFF → operatorEncoded (v.op p) (s.reg (0x20 + o)) (s.reg (0x40 + o)) (s.reg (0x60 + o)) (s.reg (0x80 + o))
        (s.reg (0xE0 + o)))) ∧
    v.fb = 0 ∧ v.add = 0 ∧
    v.type = if drum a = 0 then .bass else if drum a = 1 then .snare else if drum a = 2 then .tom
      else if drum a = 3 then .cymbal else .hiHat

/-- R260: the volume formula; volume 1.0 keeps the level and volume 0.0 gives 63. -/
def Obligations.VolumeScalesTheLevel : Prop :=
  ∀ (l : BitVec 6) (v : Half),
    ((scale l v).toNat : Int) = 63 - ((63 - (l.toNat : Int)) * min (v.toNat : Int) 0x8000 + 0x4000) / 0x8000 ∧
    scale l 0x8000 = l ∧ scale l 0 = 63

/-- The five writes of an operator `x` at offset `o` and volume `v`, in their order (R255). -/
abbrev operatorWrites (o : Byte) (x : Operator) (v : Half) : List (Byte × Byte) :=
  [(0x20 + o, BitVec.ofNat 8
      (x.trem.toNat * 128 + x.vib.toNat * 64 + x.sush.toNat * 32 + x.ksr.toNat * 16 + x.mult.toNat)),
   (0x40 + o, BitVec.ofNat 8 (x.ksl.toNat * 64 + (scale x.lvl v).toNat)),
   (0x60 + o, BitVec.ofNat 8 (x.atk.toNat * 16 + x.dec.toNat)),
   (0x80 + o, BitVec.ofNat 8 (x.susl.toNat * 16 + x.rel.toNat)),
   (0xE0 + o, BitVec.ofNat 8 x.wave.toNat)]

/-- R261, R255: INST_SET's twelve writes in their order. -/
def Obligations.InstSetWritesTheChannel : Prop :=
  ∀ (s s1 : State) (a k : Byte) (v : Half), s.rom.fields = fieldMapDefault → k = 0xC0 + BitVec.ofNat 8 (ch a).val →
    s1 = s.writes ((0x01, s.reg 0x01 ||| 0x20) :: (operatorWrites s.rom.opoff[(0 : Fin 2)][ch a] s.ib.op0 v ++
      operatorWrites s.rom.opoff[(1 : Fin 2)][ch a] s.ib.op1 v)) →
    Effect (.instSet a v) s
      (s1.wr k ((s1.reg k &&& 0xF0) ||| BitVec.ofNat 8 (s.ib.fb.toNat * 2 + s.ib.add.toNat)))

/-- R263: INST_SET_DRUM writes nothing for a melodic IB; for a drum, WSE, the operators the drum uses, and the channel's
0xC0 register with bits 3:0 cleared. -/
def Obligations.InstSetDrumWritesTheDrum : Prop :=
  (∀ (s : State) (v : Half), s.ib.type = .melodic → Effect (.instSetDrum v) s s) ∧
  ∀ (s s1 : State) (v : Half) (d : Fin 5) (k : Byte), s.rom.fields = fieldMapDefault →
    s.ib.type = [InstType.bass, .snare, .tom, .cymbal, .hiHat].get d → k = 0xC0 + BitVec.ofNat 8 s.rom.drumch[d].val →
    s1 = s.writes ((0x01, s.reg 0x01 ||| 0x20) ::
      ((if s.rom.drumoff[(0 : Fin 2)][d] = 0xFF then [] else operatorWrites s.rom.drumoff[(0 : Fin 2)][d] s.ib.op0 v) ++
       (if s.rom.drumoff[(1 : Fin 2)][d] = 0xFF then [] else operatorWrites s.rom.drumoff[(1 : Fin 2)][d] s.ib.op1 v))) →
    Effect (.instSetDrum v) s (s1.wr k (s1.reg k &&& 0xF0))

/-- A field with bit offset and width `m` of a register value, as a number (10_state.md R39). -/
abbrev fieldNumber (m : BitRange) (v : Byte) : Nat := v.toNat / 2 ^ m.sh % 2 ^ m.w

/-- The fields four bytes hold in layout `m`, each cut to its width in IB (R252; 93_implementation_defined.md U17). -/
abbrev operatorEncodedIn (m : FieldMap) (x : Operator) (k0 k1 k2 k3 : Byte) : Prop :=
  x.trem = BitVec.ofNat 1 (fieldNumber m.trem k0) ∧ x.vib = BitVec.ofNat 1 (fieldNumber m.vib k0) ∧
  x.sush = BitVec.ofNat 1 (fieldNumber m.sush k0) ∧ x.ksr = BitVec.ofNat 1 (fieldNumber m.ksr k0) ∧
  x.mult = BitVec.ofNat 4 (fieldNumber m.mult k0) ∧ x.ksl = BitVec.ofNat 2 (fieldNumber m.ksl k1) ∧
  x.lvl = BitVec.ofNat 6 (fieldNumber m.lvl k1) ∧ x.atk = BitVec.ofNat 4 (fieldNumber m.atk k2) ∧
  x.dec = BitVec.ofNat 4 (fieldNumber m.dec k2) ∧ x.susl = BitVec.ofNat 4 (fieldNumber m.susl k3) ∧
  x.rel = BitVec.ofNat 4 (fieldNumber m.rel k3)

/-- The operator the five registers at offset `o` hold in the layout of `s`. -/
abbrev operatorReadIn (s : State) (x : Operator) (o : Byte) : Prop :=
  operatorEncodedIn s.rom.fields x (s.reg (0x20 + o)) (s.reg (0x40 + o)) (s.reg (0x60 + o)) (s.reg (0x80 + o)) ∧
  x.wave = BitVec.ofNat 2 (fieldNumber s.rom.fields.wave (s.reg (0xE0 + o)))

/-- R257-R259 in any layout (log entry 21): INST_LOAD decodes blob bytes 1-4 and 7-10 by the layout (U17), the waveforms and
blob byte 6 as the source gives them; INST_GET and INST_GET_DRUM read each field of the registers where the layout puts it.
-/
def Obligations.InstrumentReadsFollowTheLayout : Prop :=
  (∀ (s : State) (sp : BitVec 1) (base : Wide) (y : Nat → Byte),
    (∀ i, i < 12 → y i = s.blobRead sp (base + BitVec.ofNat 32 i)) →
    ∃ v : Instrument, Effect (.instLoad sp base) s { s with ib := v } ∧
      operatorEncodedIn s.rom.fields v.op0 (y 1) (y 2) (y 3) (y 4) ∧ v.op0.wave.toNat = (y 5).toNat % 4 ∧
      operatorEncodedIn s.rom.fields v.op1 (y 7) (y 8) (y 9) (y 10) ∧ v.op1.wave.toNat = (y 11).toNat % 4 ∧
      v.fb.toNat = (y 6).toNat / 2 % 8 ∧ v.add.toNat = (y 6).toNat % 2 ∧
      v.type = if (y 0).toNat = 6 then .bass else if (y 0).toNat = 7 then .snare else if (y 0).toNat = 8 then .tom
        else if (y 0).toNat = 9 then .cymbal else if (y 0).toNat = 10 then .hiHat else .melodic) ∧
  (∀ (s : State) (a k : Byte), k = s.reg (0xC0 + BitVec.ofNat 8 (ch a).val) →
    ∃ v : Instrument, Effect (.instGet a) s { s with ib := v } ∧
      operatorReadIn s v.op0 s.rom.opoff[(0 : Fin 2)][ch a] ∧ operatorReadIn s v.op1 s.rom.opoff[(1 : Fin 2)][ch a] ∧
      v.fb = BitVec.ofNat 3 (fieldNumber s.rom.fields.fb k) ∧ v.add = BitVec.ofNat 1 (fieldNumber s.rom.fields.syn k) ∧
      v.type = .melodic) ∧
  ∀ (s : State) (a : Byte), ∃ v : Instrument, Effect (.instGetDrum a) s { s with ib := v } ∧
    (∀ (p : Fin 2) (o : Byte), o = s.rom.drumoff[p][drum a] →
      (o = 0xFF → v.op p = ⟨0, 0, 0, 0, 0, 0, 0, 0, 0, 0, 0, 0⟩) ∧ (o ≠ 0xFF → operatorReadIn s (v.op p) o)) ∧
    v.fb = 0 ∧ v.add = 0 ∧
    v.type = if drum a = 0 then .bass else if drum a = 1 then .snare else if drum a = 2 then .tom
      else if drum a = 3 then .cymbal else .hiHat

/-- A value of `n` bits in the place of a field with bit offset and width `m`, every other bit 0 (10_state.md R39). -/
abbrev fieldPlaced {n : Nat} (m : BitRange) (x : BitVec n) : Byte :=
  (x.setWidth 8 &&& BitVec.ofNat 8 (2 ^ m.w - 1)) <<< m.sh

/-- The five writes of an operator `x` at offset `o` and volume `v` in layout `m`, in their order (R255). -/
abbrev operatorWritesIn (m : FieldMap) (o : Byte) (x : Operator) (v : Half) : List (Byte × Byte) :=
  [(0x20 + o, fieldPlaced m.trem x.trem ||| fieldPlaced m.vib x.vib ||| fieldPlaced m.sush x.sush |||
      fieldPlaced m.ksr x.ksr ||| fieldPlaced m.mult x.mult),
   (0x40 + o, fieldPlaced m.ksl x.ksl ||| fieldPlaced m.lvl (scale x.lvl v)),
   (0x60 + o, fieldPlaced m.atk x.atk ||| fieldPlaced m.dec x.dec),
   (0x80 + o, fieldPlaced m.susl x.susl ||| fieldPlaced m.rel x.rel),
   (0xE0 + o, fieldPlaced m.wave x.wave)]

/-- R261, R263 with R255 in any layout (log entry 21): INST_SET and INST_SET_DRUM set the waveform-select field, write each
operator register as its fields in their places, every other bit 0, and replace the feedback and synthesis fields. -/
def Obligations.InstrumentWritesFollowTheLayout : Prop :=
  (∀ (s s1 : State) (a k : Byte) (v : Half) (m : FieldMap), m = s.rom.fields → k = 0xC0 + BitVec.ofNat 8 (ch a).val →
    s1 = s.writes ((0x01, fieldReplaced m.wse (s.reg 0x01) 1) ::
      (operatorWritesIn m s.rom.opoff[(0 : Fin 2)][ch a] s.ib.op0 v ++
        operatorWritesIn m s.rom.opoff[(1 : Fin 2)][ch a] s.ib.op1 v)) →
    Effect (.instSet a v) s (s1.wr k
      (fieldReplaced m.syn (fieldReplaced m.fb (s1.reg k) (s.ib.fb.setWidth 8)) (s.ib.add.setWidth 8)))) ∧
  (∀ (s : State) (v : Half), s.ib.type = .melodic → Effect (.instSetDrum v) s s) ∧
  ∀ (s s1 : State) (v : Half) (d : Fin 5) (k : Byte) (m : FieldMap), m = s.rom.fields →
    s.ib.type = [InstType.bass, .snare, .tom, .cymbal, .hiHat].get d → k = 0xC0 + BitVec.ofNat 8 s.rom.drumch[d].val →
    s1 = s.writes ((0x01, fieldReplaced m.wse (s.reg 0x01) 1) ::
      ((if s.rom.drumoff[(0 : Fin 2)][d] = 0xFF then [] else operatorWritesIn m s.rom.drumoff[(0 : Fin 2)][d] s.ib.op0 v) ++
       (if s.rom.drumoff[(1 : Fin 2)][d] = 0xFF then [] else
          operatorWritesIn m s.rom.drumoff[(1 : Fin 2)][d] s.ib.op1 v))) →
    Effect (.instSetDrum v) s (s1.wr k (fieldReplaced m.syn (fieldReplaced m.fb (s1.reg k) 0) 0))

/-- What R264 and R260 mark as the spec's own inferences: with the default tables (log entry 3), an instrument written at
volume 1.0 reads back whole, as Melodic, and at volume 0 both levels read 63; no volume makes a level louder. -/
def Obligations.InstrumentsReadBackWhatWasWritten : Prop :=
  (∀ (l : BitVec 6) (v : Half), l.toNat ≤ (scale l v).toNat) ∧
  ∀ (s t : State) (a b : Byte), s.rom = romDefault →
    (exec (.instSet a 0x8000) s = .next t → exec (.instGet a) t = .next { t with ib := { s.ib with type := .melodic } }) ∧
    (exec (.instSet a 0) s = .next t → exec (.getlvl a b) t = .next { t with res := 63 })

/-! ## Playback -/

/-- 46_playback.md R290: PLAYNOTE's three writes in their order, and what the getters then read. -/
def Obligations.PlaynoteIsThreeWrites : Prop :=
  ∀ (s : State) (a b c r q : Byte) (n m : Nat), s.rom.fields = fieldMapDefault → r = 0xB0 + BitVec.ofNat 8 (ch a).val →
    q = 0xA0 + BitVec.ofNat 8 (ch a).val → n = s.rom.notef[note c].toNat → m = min b.toNat 7 →
    Effect (.playnote a b c) s (s.writes [(r, s.reg r &&& 0xDF), (q, BitVec.ofNat 8 (n % 256)),
      (r, (s.reg r &&& 0xC0) ||| BitVec.ofNat 8 (0x20 + m * 4 + n / 256))]) ∧
    ∀ t, exec (.playnote a b c) s = .next t → exec (.getkey a) t = .next { t with res := 1 } ∧
      exec (.getblk a) t = .next { t with res := BitVec.ofNat 16 m } ∧
      exec (.getfnum a) t = .next { t with res := BitVec.ofNat 16 n }

/-- R291: PLAYDRUM's four writes in their order. -/
def Obligations.PlaydrumIsFourWrites : Prop :=
  ∀ (s s1 s2 s3 : State) (a b c r q : Byte) (n m : Nat), s.rom.fields = fieldMapDefault →
    r = 0xB0 + BitVec.ofNat 8 s.rom.drumch[drum a].val →
    q = 0xA0 + BitVec.ofNat 8 s.rom.drumch[drum a].val → n = s.rom.notef[note c].toNat → m = min b.toNat 7 →
    s1 = s.wr 0xBD (s.reg 0xBD &&& ~~~s.rom.drumbit[drum a]) → s2 = s1.wr q (BitVec.ofNat 8 (n % 256)) →
    s3 = s2.wr r ((s2.reg r &&& 0xE0) ||| BitVec.ofNat 8 (m * 4 + n / 256)) →
    Effect (.playdrum a b c) s (s3.wr 0xBD (s3.reg 0xBD ||| s.rom.drumbit[drum a]))

/-- 44_global_fields.md R235, 46_playback.md R290, R291 in any layout (log entries 19, 21): SETDRUMS5 clears the drum field,
then sets its mask of DRUMBIT; PLAYNOTE clears the key-on field, then replaces the F-number in its pair of registers, low
register first, with block and key-on in the last write; PLAYDRUM does the same between the two writes of its drum bit,
key-on kept. -/
def Obligations.DrumsAndPlaybackFollowTheLayout : Prop :=
  (∀ (s : State) (b n t c h x : Byte) (m : BitRange), m = s.rom.fields.drums →
    x = s.reg 0xBD &&& ~~~(BitVec.ofNat 8 (2 ^ m.w - 1) <<< m.sh) →
    Effect (.setdrums5 b n t c h) s
      { (s.wr 0xBD x).wr 0xBD (x ||| (s.rom.drumbit[(0 : Fin 5)] * bit b ||| s.rom.drumbit[(1 : Fin 5)] * bit n |||
          s.rom.drumbit[(2 : Fin 5)] * bit t ||| s.rom.drumbit[(3 : Fin 5)] * bit c |||
          s.rom.drumbit[(4 : Fin 5)] * bit h)) with res := 0x00BD }) ∧
  (∀ (s : State) (a b c r q v : Byte) (p : Half) (m : FieldMap), m = s.rom.fields →
    r = 0xB0 + BitVec.ofNat 8 (ch a).val → q = 0xA0 + BitVec.ofNat 8 (ch a).val →
    v = s.reg r &&& ~~~(BitVec.ofNat 8 (2 ^ m.key.w - 1) <<< m.key.sh) →
    p = pairReplaced m.fnum (v ++ s.reg q) (s.rom.notef[note c].setWidth 16) →
    Effect (.playnote a b c) s (s.writes [(r, v), (q, p.setWidth 8),
      (r, fieldReplaced m.key (fieldReplaced m.blk ((p >>> 8).setWidth 8) (BitVec.ofNat 8 (min b.toNat 7))) 1)])) ∧
  ∀ (s s1 : State) (a b c r q : Byte) (p : Half) (m : FieldMap), m = s.rom.fields →
    r = 0xB0 + BitVec.ofNat 8 s.rom.drumch[drum a].val → q = 0xA0 + BitVec.ofNat 8 s.rom.drumch[drum a].val →
    p = pairReplaced m.fnum (s.reg r ++ s.reg q) (s.rom.notef[note c].setWidth 16) →
    s1 = s.writes [(0xBD, s.reg 0xBD &&& ~~~s.rom.drumbit[drum a]), (q, p.setWidth 8),
      (r, fieldReplaced m.blk ((p >>> 8).setWidth 8) (BitVec.ofNat 8 (min b.toNat 7)))] →
    Effect (.playdrum a b c) s (s1.wr 0xBD (s1.reg 0xBD ||| s.rom.drumbit[drum a]))

/-- R292, which the spec marks as its own inference from R290 and R291: with the default tables (log entry 3), the events
of PLAYNOTE and PLAYDRUM clear the voice's key bit before any pitch bit changes and set it in or after the last pitch
write; no other key or drum bit changes. -/
def Obligations.VoicesAreKeyedOffBeforeTheirPitch : Prop :=
  (∀ (s t : State) (a b c r : Byte), s.rom.fields = fieldMapDefault → r = 0xB0 + BitVec.ofNat 8 (ch a).val →
    exec (.playnote a b c) s = .next t →
    ∃ v1 v2 v3 : Byte, t.tx = s.tx ++ [.write r v1, .write (r - 0x10) v2, .write r v3] ∧
      v1 &&& 0x20 = 0 ∧ v1 &&& 0xDF = s.reg r &&& 0xDF ∧ v3 &&& 0x20 = 0x20) ∧
  ∀ (s t : State) (a b c r : Byte), s.rom = romDefault → r = 0xB0 + BitVec.ofNat 8 s.rom.drumch[drum a].val →
    exec (.playdrum a b c) s = .next t →
    ∃ v1 v2 v3 v4 k : Byte, k = (0x10 : Byte) >>> (drum a).val ∧
      t.tx = s.tx ++ [.write 0xBD v1, .write (r - 0x10) v2, .write r v3, .write 0xBD v4] ∧
      v1 &&& k = 0 ∧ v1 &&& ~~~k = s.reg 0xBD &&& ~~~k ∧ v3 &&& 0xE0 = s.reg r &&& 0xE0 ∧
      v4 &&& k = k ∧ v4 &&& ~~~k = s.reg 0xBD &&& ~~~k

/-! ## The whole block -/

/-- 70_reset_and_hazards.md R350, which the spec marks as its own inference from the command rules: the number of Write
events of every command with the default tables (log entry 3); RESET alone emits a Pulse, once and first. -/
def Obligations.TransactionCounts : Prop :=
  ∀ (i : Instr) (s t : State), s.rom = romDefault → exec i s = .next t →
    ∃ es, t.tx = s.tx ++ es ∧ countWrites es = i.writeCount s ∧
      (i = .reset → ∃ fs, es = .pulse :: fs ∧ .pulse ∉ fs) ∧ (i ≠ .reset → .pulse ∉ es)

/-- 20_memory.md R69, 10_state.md R22: the commands of R350's last row leave the bank and TX as they were. -/
def Obligations.ReadCommandsWriteNothing : Prop :=
  ∀ (i : Instr) (s t : State), i.emitsNothing = true → exec i s = .next t → t.rb = s.rb ∧ t.tx = s.tx

/-- The frame of every command: registers its rule does not name, RES and IB where its rule writes neither, the tables, the
blob spaces and the pending inputs are as they were (10_state.md R46; 92_eei_decisions.md D4). -/
def Obligations.CommandsChangeOnlyWhatTheirRulesName : Prop :=
  ∀ (i : Instr) (s t : State), exec i s = .next t →
    (∀ q, q ∉ i.addrs s → t.reg q = s.reg q) ∧ (i.writesRes = false → t.res = s.res) ∧
    (i.writesIB = false → t.ib = s.ib) ∧ t.rom = s.rom ∧ (∀ sp a, t.blobRead sp a = s.blobRead sp a) ∧
    t.inbox = s.inbox ∧ t.init = true

/-- 10_state.md R38, and R37, which the spec marks as its own inference: with the default tables (log entry 3), the bits
that belong to no field are kept by every command but RESET, SETREG, INST_SET and INST_SET_DRUM; these last two keep them
in every register, gap registers among them, but the waveform registers, whose bits 7:2 are those a register's noFieldBits
0xFC names. -/
def Obligations.BitsOfNoFieldArePreserved : Prop :=
  ∀ (i : Instr) (s t : State) (r : Byte), s.rom = romDefault → exec i s = .next t →
    ((∀ a b, i ≠ .setreg a b) → (∀ a v, i ≠ .instSet a v) → (∀ v, i ≠ .instSetDrum v) → i ≠ .reset →
      t.reg r &&& noFieldBits r = s.reg r &&& noFieldBits r) ∧
    (((∃ a v, i = .instSet a v) ∨ ∃ v, i = .instSetDrum v) → noFieldBits r ≠ 0xFC →
      t.reg r &&& noFieldBits r = s.reg r &&& noFieldBits r)

/-- 10_state.md R43: a step only appends to TX. -/
def Obligations.OutputIsOnlyAppendedTo : Prop :=
  ∀ s t : State, step s = .next t → ∃ es, t.tx = s.tx ++ es

/-- 10_state.md R21: once RESET has run, every step keeps the bank a faithful shadow: each register holds the last value
transmitted to it, or 0. -/
def Obligations.StepKeepsTheShadowFaithful : Prop :=
  ∀ s t : State, s.ShadowInv → step s = .next t → t.ShadowInv

/-- The invariants of the statements above and below right after RESET (the shadow is faithful, every memory canonical), and
at power-on, where INIT = 0 (State.reset and the canonical form are the model's: log entries 1, 7). -/
def Obligations.ResetStateMeetsTheInvariants : Prop :=
  State.reset.ShadowInv ∧ State.reset.Faithful ∧ State.reset.MemWf ∧ ∀ rb ib res, (State.powerOn rb ib res).ShadowInv

/-- 20_memory.md R71, which the spec marks as its own inference from R70 and R21: after any run from power-on, whatever
the power-on contents and the inputs, once INIT = 1 the bank is the fold of the Write events over zero. -/
def Obligations.BankIsTheFoldOfTheWrites : Prop :=
  ∀ (rb : Memory) (ib : Instrument) (res : Half) (inputs : List Input) (n : Nat) (t : State),
    Sys2Proof.core.run n { State.powerOn rb ib res with inbox := inputs } = .next t → t.init = true →
    ∀ r, t.reg r = (lastWrite t.tx r).getD 0

/-- Every step keeps every memory in its canonical form, which is the model's own (log entries 5, 7). -/
def Obligations.StepKeepsMemoriesCanonical : Prop := ∀ s t : State, s.MemWf → step s = .next t → t.MemWf

/-- 10_state.md R42, 41_address_mapping.md R126: no step changes the tables, INIT once 1 stays 1, and only RESET sets it. -/
def Obligations.TablesAreConstantAndInitStays : Prop :=
  ∀ s t : State, step s = .next t → t.rom = s.rom ∧ (s.init = true → t.init = true) ∧
    (s.init = false → t.init = true → ∃ w rest, s.inbox = .command w :: rest ∧ decode w = some .reset)

/-- 20_memory.md R62: only INST_LOAD reads the blob spaces: every other command completes alike whatever they hold. -/
def Obligations.OnlyInstLoadReadsTheBlobs : Prop :=
  ∀ (i : Instr) (s t : State) (x y : Memory), (∀ sp base, i ≠ .instLoad sp base) → exec i s = .next t →
    exec i { s with blob0 := x, blob1 := y } = .next { t with blob0 := x, blob1 := y }

/-- 10_state.md R46: no command reads RES or TX: with other contents of both it does the same to everything else, writes
the same RES where it writes one, and emits the same events. -/
def Obligations.ResAndOutputAreNeverRead : Prop :=
  ∀ (i : Instr) (s t : State) (x : Half) (e : List TxEvent), exec i s = .next t →
    exec i { s with res := x, tx := e } = .next
      { t with res := if i.writesRes then t.res else x, tx := e ++ t.tx.drop s.tx.length }
end

