-- ==== Sys2Proof/Laws/Memory.lean ====
section
/-! SUPPORT. The laws of a byte memory: a read after a write to the same address gives the byte written, a write leaves every
other address alone, and every operation keeps the canonical form. -/
namespace Sys2Proof.Machine

@[simp] theorem Memory.find_nil (a : Nat) : Memory.find [] a = none := rfl

theorem Memory.find_insert_self (m : Memory) (a : Nat) (v : Byte) : Memory.find (Memory.insert m a v) a = some v := by
  induction m with
  | nil => simp [Memory.insert, Memory.find]
  | cons c rest ih =>
    obtain ⟨k, x⟩ := c
    simp only [Memory.insert]
    split
    · simp [Memory.find]
    · split
      · simp [Memory.find]
      · simp [Memory.find, *]

theorem Memory.find_insert_other (m : Memory) (a b : Nat) (v : Byte) (h : b ≠ a) :
    Memory.find (Memory.insert m a v) b = Memory.find m b := by
  induction m with
  | nil => simp [Memory.insert, Memory.find, h]
  | cons c rest ih =>
    obtain ⟨k, x⟩ := c
    simp only [Memory.insert]
    split
    · simp [Memory.find, h]
    · split
      · subst_vars; simp [Memory.find, h]
      · simp [Memory.find, ih]

theorem Memory.find_erase_self (m : Memory) (a : Nat) : Memory.find (Memory.erase m a) a = none := by
  induction m with
  | nil => rfl
  | cons c rest ih =>
    obtain ⟨k, x⟩ := c
    unfold Memory.erase at ih ⊢
    by_cases h : k = a
    · simp [h, ih]
    · simp [h, Memory.find, ih, Ne.symm h]

theorem Memory.find_erase_other (m : Memory) (a b : Nat) (h : b ≠ a) :
    Memory.find (Memory.erase m a) b = Memory.find m b := by
  induction m with
  | nil => rfl
  | cons c rest ih =>
    obtain ⟨k, x⟩ := c
    unfold Memory.erase at ih ⊢
    by_cases hk : k = a
    · subst hk; simp [ih, Memory.find, h]
    · simp [hk, Memory.find, ih]

/-- A read after a write to the same address: the byte written, where an unlisted byte reads as `u`. -/
theorem Memory.find_write_self (u v : Byte) (m : Memory) (a : Nat) :
    (Memory.find (Memory.write (some u) m a v) a).getD u = v := by
  unfold Memory.write
  split
  · rename_i h; simp [Memory.find_erase_self]; exact (Option.some.inj h).symm
  · simp [Memory.find_insert_self]

theorem Memory.find_write_self_none (v : Byte) (m : Memory) (a : Nat) :
    Memory.find (Memory.write none m a v) a = some v := by
  simp [Memory.write, Memory.find_insert_self]

/-- A write leaves every other address alone. -/
theorem Memory.find_write_other (o : Option Byte) (m : Memory) (a b : Nat) (v : Byte) (h : b ≠ a) :
    Memory.find (Memory.write o m a v) b = Memory.find m b := by
  unfold Memory.write
  split
  · exact Memory.find_erase_other m a b h
  · exact Memory.find_insert_other m a b v h

theorem Memory.mem_insert (m : Memory) (a : Nat) (v : Byte) (c : Host.Cell) (h : c ∈ Memory.insert m a v) :
    c = (a, v) ∨ c ∈ m := by
  induction m with
  | nil => simpa [Memory.insert] using h
  | cons d rest ih =>
    obtain ⟨k, x⟩ := d
    simp only [Memory.insert] at h
    split at h
    · simpa using h
    · split at h
      · simp only [List.mem_cons] at h ⊢; tauto
      · simp only [List.mem_cons] at h ⊢
        rcases h with h | h
        · tauto
        · rcases ih h with h | h <;> tauto

theorem Memory.insert_rising (m : Memory) (a : Nat) (v : Byte) (h : m.Pairwise fun c d => c.1 < d.1) :
    (Memory.insert m a v).Pairwise fun c d => c.1 < d.1 := by
  induction m with
  | nil => simp [Memory.insert]
  | cons d rest ih =>
    obtain ⟨k, x⟩ := d
    rw [List.pairwise_cons] at h
    simp only [Memory.insert]
    split
    · rename_i hlt
      refine List.Pairwise.cons ?_ (List.Pairwise.cons h.1 h.2)
      intro e he
      rcases List.mem_cons.1 he with rfl | he
      · exact hlt
      · exact lt_trans hlt (h.1 e he)
    · split
      · rename_i heq; subst heq; exact List.Pairwise.cons h.1 h.2
      · refine List.Pairwise.cons ?_ (ih h.2)
        intro e he
        rcases Memory.mem_insert rest a v e he with rfl | he
        · simp only; omega
        · exact h.1 e he

/-- Every write keeps the canonical form. -/
theorem Memory.write_wf (o : Option Byte) (size : Nat) (m : Memory) (a : Nat) (v : Byte) (ha : a < size)
    (h : Memory.wf o size m) : Memory.wf o size (Memory.write o m a v) := by
  unfold Memory.write
  split
  · exact ⟨h.1.filter _, fun c hc => h.2 c (List.mem_of_mem_filter hc)⟩
  · rename_i hv
    refine ⟨Memory.insert_rising m a v h.1, fun c hc => ?_⟩
    rcases Memory.mem_insert m a v c hc with rfl | hc
    · exact ⟨ha, hv⟩
    · exact h.2 c hc

/-- The canonical form makes equal memories equal lists: two canonical memories that list the same byte at every address
are the same. -/
theorem Memory.find_eq_some_of_mem (m : Memory) (h : m.Pairwise fun c d => c.1 < d.1) (c : Host.Cell) (hc : c ∈ m) :
    Memory.find m c.1 = some c.2 := by
  induction m with
  | nil => simp at hc
  | cons d rest ih =>
    rw [List.pairwise_cons] at h
    rcases List.mem_cons.1 hc with rfl | hc'
    · simp [Memory.find]
    · have := h.1 c hc'
      simp [Memory.find, Nat.ne_of_gt this, ih h.2 hc']

end Sys2Proof.Machine
end

