-- ==== Sys2Proof/Laws/State.lean ====
section
/-! SUPPORT. One lemma for each field of the state and each update: what the update leaves in it. -/
namespace Sys2Proof.Machine

@[simp] theorem State.wr_rb (s : State) (r v : Byte) : (s.wr r v).rb = Memory.write rbUnlisted s.rb r.toNat v := rfl
@[simp] theorem State.wr_ib (s : State) (r v : Byte) : (s.wr r v).ib = s.ib := rfl
@[simp] theorem State.wr_res (s : State) (r v : Byte) : (s.wr r v).res = s.res := rfl
@[simp] theorem State.wr_init (s : State) (r v : Byte) : (s.wr r v).init = s.init := rfl
@[simp] theorem State.wr_tx (s : State) (r v : Byte) : (s.wr r v).tx = s.tx ++ [.write r v] := rfl
@[simp] theorem State.wr_rom (s : State) (r v : Byte) : (s.wr r v).rom = s.rom := rfl
@[simp] theorem State.wr_blob0 (s : State) (r v : Byte) : (s.wr r v).blob0 = s.blob0 := rfl
@[simp] theorem State.wr_blob1 (s : State) (r v : Byte) : (s.wr r v).blob1 = s.blob1 := rfl
@[simp] theorem State.wr_inbox (s : State) (r v : Byte) : (s.wr r v).inbox = s.inbox := rfl

@[simp] theorem State.resetPulse_rb (s : State) : (s.resetPulse).rb = s.rb := rfl
@[simp] theorem State.resetPulse_ib (s : State) : (s.resetPulse).ib = s.ib := rfl
@[simp] theorem State.resetPulse_res (s : State) : (s.resetPulse).res = s.res := rfl
@[simp] theorem State.resetPulse_init (s : State) : (s.resetPulse).init = s.init := rfl
@[simp] theorem State.resetPulse_tx (s : State) : (s.resetPulse).tx = s.tx ++ [.pulse] := rfl
@[simp] theorem State.resetPulse_rom (s : State) : (s.resetPulse).rom = s.rom := rfl
@[simp] theorem State.resetPulse_blob0 (s : State) : (s.resetPulse).blob0 = s.blob0 := rfl
@[simp] theorem State.resetPulse_blob1 (s : State) : (s.resetPulse).blob1 = s.blob1 := rfl
@[simp] theorem State.resetPulse_inbox (s : State) : (s.resetPulse).inbox = s.inbox := rfl

@[simp] theorem State.setRes_rb (s : State) (v : Half) : (s.setRes v).rb = s.rb := rfl
@[simp] theorem State.setRes_ib (s : State) (v : Half) : (s.setRes v).ib = s.ib := rfl
@[simp] theorem State.setRes_res (s : State) (v : Half) : (s.setRes v).res = v := rfl
@[simp] theorem State.setRes_init (s : State) (v : Half) : (s.setRes v).init = s.init := rfl
@[simp] theorem State.setRes_tx (s : State) (v : Half) : (s.setRes v).tx = s.tx := rfl
@[simp] theorem State.setRes_rom (s : State) (v : Half) : (s.setRes v).rom = s.rom := rfl
@[simp] theorem State.setRes_blob0 (s : State) (v : Half) : (s.setRes v).blob0 = s.blob0 := rfl
@[simp] theorem State.setRes_blob1 (s : State) (v : Half) : (s.setRes v).blob1 = s.blob1 := rfl
@[simp] theorem State.setRes_inbox (s : State) (v : Half) : (s.setRes v).inbox = s.inbox := rfl

@[simp] theorem State.setIB_rb (s : State) (v : Instrument) : (s.setIB v).rb = s.rb := rfl
@[simp] theorem State.setIB_ib (s : State) (v : Instrument) : (s.setIB v).ib = v := rfl
@[simp] theorem State.setIB_res (s : State) (v : Instrument) : (s.setIB v).res = s.res := rfl
@[simp] theorem State.setIB_init (s : State) (v : Instrument) : (s.setIB v).init = s.init := rfl
@[simp] theorem State.setIB_tx (s : State) (v : Instrument) : (s.setIB v).tx = s.tx := rfl
@[simp] theorem State.setIB_rom (s : State) (v : Instrument) : (s.setIB v).rom = s.rom := rfl
@[simp] theorem State.setIB_blob0 (s : State) (v : Instrument) : (s.setIB v).blob0 = s.blob0 := rfl
@[simp] theorem State.setIB_blob1 (s : State) (v : Instrument) : (s.setIB v).blob1 = s.blob1 := rfl
@[simp] theorem State.setIB_inbox (s : State) (v : Instrument) : (s.setIB v).inbox = s.inbox := rfl

@[simp] theorem State.deliver_rb (s : State) (w : Word) : (s.deliver w).rb = s.rb := rfl
@[simp] theorem State.deliver_ib (s : State) (w : Word) : (s.deliver w).ib = s.ib := rfl
@[simp] theorem State.deliver_res (s : State) (w : Word) : (s.deliver w).res = s.res := rfl
@[simp] theorem State.deliver_init (s : State) (w : Word) : (s.deliver w).init = s.init := rfl
@[simp] theorem State.deliver_tx (s : State) (w : Word) : (s.deliver w).tx = s.tx := rfl
@[simp] theorem State.deliver_rom (s : State) (w : Word) : (s.deliver w).rom = s.rom := rfl
@[simp] theorem State.deliver_blob0 (s : State) (w : Word) : (s.deliver w).blob0 = s.blob0 := rfl
@[simp] theorem State.deliver_blob1 (s : State) (w : Word) : (s.deliver w).blob1 = s.blob1 := rfl
@[simp] theorem State.deliver_inbox (s : State) (w : Word) : (s.deliver w).inbox = .command w :: s.inbox := rfl

@[simp] theorem State.setBlobByte_rb (s : State) (sp : BitVec 1) (a : Wide) (v : Byte) :
    (s.setBlobByte sp a v).rb = s.rb := by
  unfold State.setBlobByte; split <;> rfl
@[simp] theorem State.setBlobByte_ib (s : State) (sp : BitVec 1) (a : Wide) (v : Byte) :
    (s.setBlobByte sp a v).ib = s.ib := by
  unfold State.setBlobByte; split <;> rfl
@[simp] theorem State.setBlobByte_res (s : State) (sp : BitVec 1) (a : Wide) (v : Byte) :
    (s.setBlobByte sp a v).res = s.res := by
  unfold State.setBlobByte; split <;> rfl
@[simp] theorem State.setBlobByte_init (s : State) (sp : BitVec 1) (a : Wide) (v : Byte) :
    (s.setBlobByte sp a v).init = s.init := by
  unfold State.setBlobByte; split <;> rfl
@[simp] theorem State.setBlobByte_tx (s : State) (sp : BitVec 1) (a : Wide) (v : Byte) :
    (s.setBlobByte sp a v).tx = s.tx := by
  unfold State.setBlobByte; split <;> rfl
@[simp] theorem State.setBlobByte_rom (s : State) (sp : BitVec 1) (a : Wide) (v : Byte) :
    (s.setBlobByte sp a v).rom = s.rom := by
  unfold State.setBlobByte; split <;> rfl
@[simp] theorem State.setBlobByte_blob0 (s : State) (sp : BitVec 1) (a : Wide) (v : Byte) :
    (s.setBlobByte sp a v).blob0 = if sp = 0 then Memory.write blobUnlisted s.blob0 a.toNat v else s.blob0 := by
  unfold State.setBlobByte; split <;> rfl
@[simp] theorem State.setBlobByte_blob1 (s : State) (sp : BitVec 1) (a : Wide) (v : Byte) :
    (s.setBlobByte sp a v).blob1 = if sp = 0 then s.blob1 else Memory.write blobUnlisted s.blob1 a.toNat v := by
  unfold State.setBlobByte; split <;> rfl
@[simp] theorem State.setBlobByte_inbox (s : State) (sp : BitVec 1) (a : Wide) (v : Byte) :
    (s.setBlobByte sp a v).inbox = s.inbox := by
  unfold State.setBlobByte; split <;> rfl

@[simp] theorem State.setField_rb (s : State) (f : BitRange) (addr x : Byte) :
    (s.setField f addr x).rb = Memory.write rbUnlisted s.rb addr.toNat (f.put (s.reg addr) x) := rfl
@[simp] theorem State.setField_ib (s : State) (f : BitRange) (addr x : Byte) :
    (s.setField f addr x).ib = s.ib := rfl
@[simp] theorem State.setField_res (s : State) (f : BitRange) (addr x : Byte) :
    (s.setField f addr x).res = addr.setWidth 16 := rfl
@[simp] theorem State.setField_init (s : State) (f : BitRange) (addr x : Byte) :
    (s.setField f addr x).init = s.init := rfl
@[simp] theorem State.setField_tx (s : State) (f : BitRange) (addr x : Byte) :
    (s.setField f addr x).tx = s.tx ++ [.write addr (f.put (s.reg addr) x)] := rfl
@[simp] theorem State.setField_rom (s : State) (f : BitRange) (addr x : Byte) :
    (s.setField f addr x).rom = s.rom := rfl
@[simp] theorem State.setField_blob0 (s : State) (f : BitRange) (addr x : Byte) :
    (s.setField f addr x).blob0 = s.blob0 := rfl
@[simp] theorem State.setField_blob1 (s : State) (f : BitRange) (addr x : Byte) :
    (s.setField f addr x).blob1 = s.blob1 := rfl
@[simp] theorem State.setField_inbox (s : State) (f : BitRange) (addr x : Byte) :
    (s.setField f addr x).inbox = s.inbox := rfl

@[simp] theorem State.getField_rb (s : State) (f : BitRange) (addr : Byte) : (s.getField f addr).rb = s.rb := rfl
@[simp] theorem State.getField_ib (s : State) (f : BitRange) (addr : Byte) : (s.getField f addr).ib = s.ib := rfl
@[simp] theorem State.getField_res (s : State) (f : BitRange) (addr : Byte) : (s.getField f addr).res = (f.get (s.reg addr)).setWidth 16 := rfl
@[simp] theorem State.getField_init (s : State) (f : BitRange) (addr : Byte) : (s.getField f addr).init = s.init := rfl
@[simp] theorem State.getField_tx (s : State) (f : BitRange) (addr : Byte) : (s.getField f addr).tx = s.tx := rfl
@[simp] theorem State.getField_rom (s : State) (f : BitRange) (addr : Byte) : (s.getField f addr).rom = s.rom := rfl
@[simp] theorem State.getField_blob0 (s : State) (f : BitRange) (addr : Byte) : (s.getField f addr).blob0 = s.blob0 := rfl
@[simp] theorem State.getField_blob1 (s : State) (f : BitRange) (addr : Byte) : (s.getField f addr).blob1 = s.blob1 := rfl
@[simp] theorem State.getField_inbox (s : State) (f : BitRange) (addr : Byte) : (s.getField f addr).inbox = s.inbox := rfl

/-- A state is its fields. -/
theorem State.ext_fields (s t : State) (h1 : s.rb = t.rb) (h2 : s.ib = t.ib) (h3 : s.res = t.res) (h4 : s.init = t.init)
    (h5 : s.tx = t.tx) (h6 : s.rom = t.rom) (h7 : s.blob0 = t.blob0) (h8 : s.blob1 = t.blob1)
    (h9 : s.inbox = t.inbox) : s = t := by
  cases s; cases t; simp_all

end Sys2Proof.Machine
end

