-- ==== Sys2Proof/Laws/Ops.lean ====
section
/-! SUPPORT. What each shared operation does, said once: register reads after writes, the check of INIT, the lists of
writes, and the shape of every command's next state. -/
namespace Sys2Proof.Machine

@[simp] theorem State.reg_setRes (s : State) (v : Half) (r : Byte) : (s.setRes v).reg r = s.reg r := rfl
@[simp] theorem State.reg_setIB (s : State) (v : Instrument) (r : Byte) : (s.setIB v).reg r = s.reg r := rfl
@[simp] theorem State.reg_resetPulse (s : State) (r : Byte) : s.resetPulse.reg r = s.reg r := rfl
@[simp] theorem State.reg_deliver (s : State) (w : Word) (r : Byte) : (s.deliver w).reg r = s.reg r := rfl

/-- `RB[r]` after `Wr(r, v)` is `v`. -/
@[simp] theorem State.reg_wr_self (s : State) (r v : Byte) : (s.wr r v).reg r = v :=
  Memory.find_write_self 0 v s.rb r.toNat

/-- `Wr(r, v)` leaves every other register as it was. -/
theorem State.reg_wr_other (s : State) (r v q : Byte) (h : q ≠ r) : (s.wr r v).reg q = s.reg q := by
  have : q.toNat ≠ r.toNat := fun e => h (BitVec.eq_of_toNat_eq e)
  simp [State.reg, Memory.find_write_other _ _ _ _ _ this]

/-- `RB[q]` after `Wr(r, v)`. -/
theorem State.reg_wr (s : State) (r v q : Byte) : (s.wr r v).reg q = if q = r then v else s.reg q := by
  split
  · subst_vars; simp
  · exact State.reg_wr_other s r v q ‹_›

theorem State.wr_memWf (s : State) (r v : Byte) (h : s.MemWf) : (s.wr r v).MemWf :=
  ⟨Memory.write_wf _ _ _ _ _ r.isLt h.1, h.2⟩

/-- A command that completes has INIT = 1 and leaves its effect. -/
theorem afterReset_next (i : Instr) (s t u : State) : afterReset i s t = .next u ↔ s.init = true ∧ u = t := by
  unfold afterReset
  split
  · rename_i h; simpa [h] using eq_comm
  · rename_i h; simp [h]

@[simp] theorem afterReset_of_init (i : Instr) (s t : State) (h : s.init = true) : afterReset i s t = .next t := by
  simp [afterReset, h]

@[simp] theorem afterReset_of_not_init (i : Instr) (s t : State) (h : s.init = false) :
    afterReset i s t = .fault (.notReset (encode i)) := by
  simp [afterReset, h]

/-- A recorded outcome is a next state exactly where the outcome is. -/
@[simp] theorem recordWord_next (w : Word) (o : Result) (t : State) : recordWord w o = .next t ↔ o = .next t := by
  unfold recordWord; split <;> simp

/-! Lists of writes. -/

@[simp] theorem State.writes_nil (s : State) : s.writes [] = s := rfl
@[simp] theorem State.writes_cons (s : State) (p : Byte × Byte) (ws : List (Byte × Byte)) :
    s.writes (p :: ws) = (s.wr p.1 p.2).writes ws := rfl

theorem State.writes_append (s : State) (ws vs : List (Byte × Byte)) : s.writes (ws ++ vs) = (s.writes ws).writes vs := by
  simp [State.writes]

/-- What a list of writes leaves in every field but the bank. -/
theorem State.writes_fields (s : State) (ws : List (Byte × Byte)) :
    (s.writes ws).ib = s.ib ∧ (s.writes ws).res = s.res ∧ (s.writes ws).init = s.init ∧
    (s.writes ws).tx = s.tx ++ writeEvents ws ∧ (s.writes ws).rom = s.rom ∧ (s.writes ws).blob0 = s.blob0 ∧
    (s.writes ws).blob1 = s.blob1 ∧ (s.writes ws).inbox = s.inbox := by
  induction ws generalizing s with
  | nil => simp [writeEvents]
  | cons p ws ih => simp [ih, writeEvents]

theorem State.writes_memWf (s : State) (ws : List (Byte × Byte)) (h : s.MemWf) : (s.writes ws).MemWf := by
  induction ws generalizing s with
  | nil => exact h
  | cons p ws ih => exact ih _ (State.wr_memWf s p.1 p.2 h)

/-- A register no write of the list names is as it was. -/
theorem State.reg_writes_other (s : State) (ws : List (Byte × Byte)) (q : Byte) (h : ∀ p ∈ ws, p.1 ≠ q) :
    (s.writes ws).reg q = s.reg q := by
  induction ws generalizing s with
  | nil => rfl
  | cons p ws ih =>
    simp only [List.mem_cons, forall_eq_or_imp] at h
    rw [State.writes_cons, ih _ h.2, State.reg_wr_other _ _ _ _ (Ne.symm h.1)]

theorem lastWrite_append (es fs : List TxEvent) (r : Byte) :
    lastWrite (es ++ fs) r = (lastWrite fs r).or (lastWrite es r) := by
  induction es with
  | nil => simp [lastWrite]
  | cons e es ih => cases e <;> simp [lastWrite, ih, Option.or_assoc]

/-- One write keeps the bank a faithful shadow. -/
theorem State.wr_faithful (s : State) (r v : Byte) (h : s.Faithful) : (s.wr r v).Faithful := by
  intro q
  rw [State.reg_wr, State.wr_tx, lastWrite_append]
  by_cases hq : q = r
  · subst hq; simp [lastWrite]
  · simp [lastWrite, hq, Ne.symm hq, h q]

theorem State.writes_faithful (s : State) (ws : List (Byte × Byte)) (h : s.Faithful) : (s.writes ws).Faithful := by
  induction ws generalizing s with
  | nil => exact h
  | cons p ws ih => exact ih _ (State.wr_faithful s p.1 p.2 h)

/-! RESET. -/

theorem zeroRegs_eq_writes (addrs : List Byte) (s : State) : zeroRegs addrs s = s.writes (addrs.map fun r => (r, 0)) := by
  induction addrs generalizing s with
  | nil => rfl
  | cons r addrs ih => exact ih _

theorem mem_regAddrs (r : Byte) : r ∈ regAddrs := by
  refine List.mem_map.2 ⟨r.toNat, List.mem_range.2 r.isLt, by simp⟩

theorem zeroRegs_reg (addrs : List Byte) (s : State) (q : Byte) :
    (zeroRegs addrs s).reg q = if q ∈ addrs then 0 else s.reg q := by
  induction addrs generalizing s with
  | nil => simp [zeroRegs]
  | cons r addrs ih =>
    show (zeroRegs addrs (s.wr r 0)).reg q = _
    rw [ih, State.reg_wr]
    by_cases h1 : q ∈ addrs <;> by_cases h2 : q = r <;> simp [h1, h2]

theorem zeroRegs_tx (addrs : List Byte) (s : State) :
    (zeroRegs addrs s).tx = s.tx ++ addrs.map fun r => .write r 0 := by
  rw [zeroRegs_eq_writes, (State.writes_fields _ _).2.2.2.1]
  simp [writeEvents, Function.comp_def]

/-- RESET's state field by field, the zeroing of the registers named. -/
theorem resetBlock_eq (s : State) :
    resetBlock s = { zeroRegs regAddrs s.resetPulse with ib := emptyInstrument, res := 0, init := true } := by
  simp only [resetBlock, State.setRes, State.setIB]

/-- RESET leaves every register 0. -/
theorem resetBlock_reg (s : State) (q : Byte) : (resetBlock s).reg q = 0 := by
  have h := zeroRegs_reg regAddrs s.resetPulse q
  rw [if_pos (mem_regAddrs q)] at h
  rw [resetBlock_eq]
  simpa only [State.reg] using h

theorem resetBlock_fields (s : State) :
    (resetBlock s).ib = emptyInstrument ∧ (resetBlock s).res = 0 ∧ (resetBlock s).init = true ∧
    (resetBlock s).tx = s.tx ++ resetEvents ∧ (resetBlock s).rom = s.rom ∧ (resetBlock s).blob0 = s.blob0 ∧
    (resetBlock s).blob1 = s.blob1 ∧ (resetBlock s).inbox = s.inbox := by
  have h := State.writes_fields s.resetPulse (regAddrs.map fun r => (r, 0))
  rw [← zeroRegs_eq_writes] at h
  simp only [State.resetPulse_rom, State.resetPulse_blob0, State.resetPulse_blob1, State.resetPulse_inbox] at h
  obtain ⟨-, -, -, -, h5, h6, h7, h8⟩ := h
  rw [resetBlock_eq]
  refine ⟨by simp only, by simp only, by simp only, ?_, by simp only [h5], by simp only [h6], by simp only [h7],
    by simp only [h8]⟩
  simp only [zeroRegs_tx, State.resetPulse_tx, resetEvents, List.append_assoc, List.singleton_append]

end Sys2Proof.Machine
end

