-- ==== Sys2Proof/Laws/Effects.lean ====
section
/-! SUPPORT. What a command can do, said once: every command but RESET performs a list of register writes and then may set
RES and IB, and touches nothing else. The invariants of the block follow from this one shape. -/
namespace Sys2Proof.Machine

/-- `t` is `s` after some list of writes. -/
def Wrote (s t : State) : Prop := ∃ ws, t = s.writes ws

theorem Wrote.refl (s : State) : Wrote s s := ⟨[], rfl⟩

theorem Wrote.wr {s t : State} (h : Wrote s t) (r v : Byte) : Wrote s (t.wr r v) := by
  obtain ⟨ws, rfl⟩ := h
  exact ⟨ws ++ [(r, v)], by simp [State.writes_append]⟩

theorem writeOp_wrote {s t : State} (h : Wrote s t) (o : Byte) (x : Operator) (v : Half) : Wrote s (writeOp o x v t) :=
  ((((h.wr _ _).wr _ _).wr _ _).wr _ _).wr _ _

theorem writeDrumOp_wrote {s t : State} (h : Wrote s t) (p : Fin 2) (d : Fin 5) (v : Half) :
    Wrote s (writeDrumOp p d v t) := by
  unfold writeDrumOp; split
  · exact h
  · exact writeOp_wrote h _ _ _

theorem writeChannel_wrote (c : Fin 9) (v : Half) (s : State) : Wrote s (writeChannel c v s) :=
  (writeOp_wrote (writeOp_wrote ((Wrote.refl s).wr _ _) _ _ _) _ _ _).wr _ _

theorem setDrumInstrument_wrote (v : Half) (s : State) : Wrote s (setDrumInstrument v s) := by
  unfold setDrumInstrument; split
  · exact Wrote.refl s
  · exact (writeDrumOp_wrote (writeDrumOp_wrote ((Wrote.refl s).wr _ _) _ _ _) _ _ _).wr _ _

theorem drumsClearThenSet_wrote (m : Byte) (s : State) : Wrote s (drumsClearThenSet m s) :=
  ((Wrote.refl s).wr _ _).wr _ _

theorem writeFnum_wrote (c : Fin 9) (f : BitVec 10) (s : State) : Wrote s (writeFnum c f s) :=
  ((Wrote.refl s).wr _ _).wr _ _

theorem playNote_wrote (c : Fin 9) (b : BitVec 3) (f : BitVec 10) (s : State) : Wrote s (playNote c b f s) :=
  (((Wrote.refl s).wr _ _).wr _ _).wr _ _

theorem playDrum_wrote (d : Fin 5) (b : BitVec 3) (f : BitVec 10) (s : State) : Wrote s (playDrum d b f s) :=
  ((((Wrote.refl s).wr _ _).wr _ _).wr _ _).wr _ _

/-- The shape of a command's next state: some writes, then RES and IB. -/
def Shape (s t : State) : Prop := ∃ ws v ib, t = ((s.writes ws).setRes v).setIB ib

theorem Wrote.shape {s t : State} (h : Wrote s t) : Shape s t := by
  obtain ⟨ws, rfl⟩ := h; exact ⟨ws, _, _, rfl⟩

theorem Wrote.setRes_shape {s t : State} (h : Wrote s t) (v : Half) : Shape s (t.setRes v) := by
  obtain ⟨ws, rfl⟩ := h; exact ⟨ws, v, _, rfl⟩

theorem setRes_shape (s : State) (v : Half) : Shape s (s.setRes v) := (Wrote.refl s).setRes_shape v

theorem setIB_shape (s : State) (ib : Instrument) : Shape s (s.setIB ib) := ⟨[], _, ib, rfl⟩

theorem setField_shape (s : State) (f : BitRange) (addr x : Byte) : Shape s (s.setField f addr x) :=
  ((Wrote.refl s).wr _ _).setRes_shape _

/-- What every command answers: RESET its own effect in any state; every other command the fault NotReset while INIT = 0,
and while INIT = 1 a next state of the one shape. -/
theorem exec_cases (i : Instr) (s : State) :
    (i = .reset ∧ exec i s = .next (resetBlock s)) ∨
    (i ≠ .reset ∧ ∃ t, Shape s t ∧ exec i s = afterReset i s t) := by
  cases i with
  | reset => exact .inl ⟨rfl, rfl⟩
  | setreg _ _ => exact .inr ⟨by simp, _, ((Wrote.refl s).wr _ _).shape, rfl⟩
  | getreg _ => exact .inr ⟨by simp, _, setRes_shape _ _, rfl⟩
  | regoff _ _ => exact .inr ⟨by simp, _, setRes_shape _ _, rfl⟩
  | drumoff _ _ => exact .inr ⟨by simp, _, setRes_shape _ _, rfl⟩
  | fblock _ => exact .inr ⟨by simp, _, setRes_shape _ _, rfl⟩
  | ffnum _ _ => exact .inr ⟨by simp, _, setRes_shape _ _, rfl⟩
  | notefnum _ => exact .inr ⟨by simp, _, setRes_shape _ _, rfl⟩
  | settrem _ _ _ => exact .inr ⟨by simp, _, setField_shape _ _ _ _, rfl⟩
  | setvib _ _ _ => exact .inr ⟨by simp, _, setField_shape _ _ _ _, rfl⟩
  | setsush _ _ _ => exact .inr ⟨by simp, _, setField_shape _ _ _ _, rfl⟩
  | setksr _ _ _ => exact .inr ⟨by simp, _, setField_shape _ _ _ _, rfl⟩
  | setmult _ _ _ => exact .inr ⟨by simp, _, setField_shape _ _ _ _, rfl⟩
  | setksl _ _ _ => exact .inr ⟨by simp, _, setField_shape _ _ _ _, rfl⟩
  | setlvl _ _ _ => exact .inr ⟨by simp, _, setField_shape _ _ _ _, rfl⟩
  | setatk _ _ _ => exact .inr ⟨by simp, _, setField_shape _ _ _ _, rfl⟩
  | setdec _ _ _ => exact .inr ⟨by simp, _, setField_shape _ _ _ _, rfl⟩
  | setsusl _ _ _ => exact .inr ⟨by simp, _, setField_shape _ _ _ _, rfl⟩
  | setrel _ _ _ => exact .inr ⟨by simp, _, setField_shape _ _ _ _, rfl⟩
  | setwave _ _ _ => exact .inr ⟨by simp, _, setField_shape _ _ _ _, rfl⟩
  | gettrem _ _ => exact .inr ⟨by simp, _, setRes_shape _ _, rfl⟩
  | getvib _ _ => exact .inr ⟨by simp, _, setRes_shape _ _, rfl⟩
  | getsush _ _ => exact .inr ⟨by simp, _, setRes_shape _ _, rfl⟩
  | getksr _ _ => exact .inr ⟨by simp, _, setRes_shape _ _, rfl⟩
  | getmult _ _ => exact .inr ⟨by simp, _, setRes_shape _ _, rfl⟩
  | getksl _ _ => exact .inr ⟨by simp, _, setRes_shape _ _, rfl⟩
  | getlvl _ _ => exact .inr ⟨by simp, _, setRes_shape _ _, rfl⟩
  | getatk _ _ => exact .inr ⟨by simp, _, setRes_shape _ _, rfl⟩
  | getdec _ _ => exact .inr ⟨by simp, _, setRes_shape _ _, rfl⟩
  | getsusl _ _ => exact .inr ⟨by simp, _, setRes_shape _ _, rfl⟩
  | getrel _ _ => exact .inr ⟨by simp, _, setRes_shape _ _, rfl⟩
  | getwave _ _ => exact .inr ⟨by simp, _, setRes_shape _ _, rfl⟩
  | setfnum _ _ => exact .inr ⟨by simp, _, (writeFnum_wrote _ _ _).setRes_shape _, rfl⟩
  | setblk _ _ => exact .inr ⟨by simp, _, setField_shape _ _ _ _, rfl⟩
  | setkey _ _ => exact .inr ⟨by simp, _, setField_shape _ _ _ _, rfl⟩
  | setfb _ _ => exact .inr ⟨by simp, _, setField_shape _ _ _ _, rfl⟩
  | setsyn _ _ => exact .inr ⟨by simp, _, setField_shape _ _ _ _, rfl⟩
  | getfnum _ => exact .inr ⟨by simp, _, setRes_shape _ _, rfl⟩
  | getblk _ => exact .inr ⟨by simp, _, setRes_shape _ _, rfl⟩
  | getkey _ => exact .inr ⟨by simp, _, setRes_shape _ _, rfl⟩
  | getfb _ => exact .inr ⟨by simp, _, setRes_shape _ _, rfl⟩
  | getsyn _ => exact .inr ⟨by simp, _, setRes_shape _ _, rfl⟩
  | setwse _ => exact .inr ⟨by simp, _, setField_shape _ _ _ _, rfl⟩
  | getwse => exact .inr ⟨by simp, _, setRes_shape _ _, rfl⟩
  | setperc _ => exact .inr ⟨by simp, _, setField_shape _ _ _ _, rfl⟩
  | getperc => exact .inr ⟨by simp, _, setRes_shape _ _, rfl⟩
  | setdrums _ => exact .inr ⟨by simp, _, (drumsClearThenSet_wrote _ _).setRes_shape _, rfl⟩
  | setdrums5 _ _ _ _ _ => exact .inr ⟨by simp, _, (drumsClearThenSet_wrote _ _).setRes_shape _, rfl⟩
  | getdrums => exact .inr ⟨by simp, _, setRes_shape _ _, rfl⟩
  | instCreate => exact .inr ⟨by simp, _, setIB_shape _ _, rfl⟩
  | instLoad _ _ => exact .inr ⟨by simp, _, setIB_shape _ _, rfl⟩
  | instGet _ => exact .inr ⟨by simp, _, setIB_shape _ _, rfl⟩
  | instGetDrum _ => exact .inr ⟨by simp, _, setIB_shape _ _, rfl⟩
  | instSet _ _ => exact .inr ⟨by simp, _, (writeChannel_wrote _ _ _).shape, rfl⟩
  | instSetDrum _ => exact .inr ⟨by simp, _, (setDrumInstrument_wrote _ _).shape, rfl⟩
  | playnote _ _ _ => exact .inr ⟨by simp, _, (playNote_wrote _ _ _ _).shape, rfl⟩
  | playdrum _ _ _ => exact .inr ⟨by simp, _, (playDrum_wrote _ _ _ _).shape, rfl⟩

/-- A command whose meaning is the check of INIT over `t` has effect `t`. -/
theorem effect_of_afterReset {i : Instr} {s t u : State} (h : exec i s = afterReset i s t) (e : t = u) : Effect i s u := by
  subst e
  exact ⟨fun hi => by rw [h, afterReset_of_init i s t hi], fun hi => ⟨_, by rw [h, afterReset_of_not_init i s t hi]⟩⟩

/-- A command that completes has INIT = 1, unless it is RESET. -/
theorem exec_next_init {i : Instr} {s t : State} (hi : i ≠ .reset) (h : exec i s = .next t) : s.init = true := by
  rcases exec_cases i s with ⟨h1, -⟩ | ⟨-, u, -, hu⟩
  · exact absurd h1 hi
  · rw [hu] at h; exact ((afterReset_next i s u t).1 h).1

/-- What a command's next state keeps and how TX grows. -/
theorem Shape.fields {s t : State} (h : Shape s t) :
    ∃ ws, t.tx = s.tx ++ writeEvents ws ∧ t.rb = (s.writes ws).rb ∧ t.init = s.init ∧ t.rom = s.rom ∧
      t.blob0 = s.blob0 ∧ t.blob1 = s.blob1 ∧ t.inbox = s.inbox := by
  obtain ⟨ws, v, ib, rfl⟩ := h
  have h := State.writes_fields s ws
  exact ⟨ws, by simp [h]⟩

theorem resetBlock_memWf (s : State) (h : s.MemWf) : (resetBlock s).MemWf := by
  have h' := State.writes_memWf s.resetPulse (regAddrs.map fun r => (r, 0)) h
  rw [← zeroRegs_eq_writes] at h'
  rw [resetBlock_eq]
  generalize regAddrs = l at h' ⊢
  exact h'

theorem Shape.memWf {s t : State} (h : Shape s t) (hs : s.MemWf) : t.MemWf := by
  obtain ⟨ws, v, ib, rfl⟩ := h
  exact State.writes_memWf s ws hs

theorem Shape.faithful {s t : State} (h : Shape s t) (hs : s.Faithful) : t.Faithful := by
  obtain ⟨ws, v, ib, rfl⟩ := h
  exact State.writes_faithful s ws hs

/-- What a step answers, by the oldest input. -/
theorem step_cases (s : State) :
    (s.inbox = [] ∧ step s = .next s) ∨
    (∃ w rest, s.inbox = .command w :: rest ∧ step s = runWord w { s with inbox := rest }) ∨
    (∃ v rest, s.inbox = .setInstrument v :: rest ∧ step s = .next { s with inbox := rest, ib := v }) ∨
    (∃ sp a v rest, s.inbox = .setBlobByte sp a v :: rest ∧
      step s = .next ({ s with inbox := rest }.setBlobByte sp a v)) := by
  unfold step State.takeInput
  rcases h : s.inbox with _ | ⟨x, rest⟩
  · exact .inl ⟨rfl, rfl⟩
  · cases x with
    | command w => exact .inr (.inl ⟨w, rest, rfl, rfl⟩)
    | setInstrument v => exact .inr (.inr (.inl ⟨v, rest, rfl, rfl⟩))
    | setBlobByte sp a v => exact .inr (.inr (.inr ⟨sp, a, v, rest, rfl, rfl⟩))

/-- A command word completes exactly where it decodes and its command completes. -/
theorem runWord_next (w : Word) (s t : State) :
    runWord w s = .next t ↔ ∃ i, decode w = some i ∧ exec i s = .next t := by
  unfold runWord
  rcases decode w with _ | i
  · simp [refuseWord]
  · simp

/-- What a next state of a step can be: RESET's effect or one command's shape on the state without its word, the host's
write of IB, the platform's change of a blob byte, or the state held. -/
theorem step_next_cases {s t : State} (h : step s = .next t) :
    (∃ u w rest, s.inbox = .command w :: rest ∧ u = { s with inbox := rest } ∧
      ((decode w = some .reset ∧ t = resetBlock u) ∨ (s.init = true ∧ Shape u t))) ∨
    (∃ v rest, t = { s with inbox := rest, ib := v }) ∨
    (∃ sp a v rest, t = { s with inbox := rest }.setBlobByte sp a v) ∨ t = s := by
  rcases step_cases s with ⟨-, h1⟩ | ⟨w, rest, h0, h1⟩ | ⟨v, rest, -, h1⟩ | ⟨sp, a, v, rest, -, h1⟩
  · rw [h] at h1; simp at h1; simp [h1]
  · refine .inl ⟨_, w, rest, h0, rfl, ?_⟩
    rw [h] at h1
    obtain ⟨i, hi, he⟩ := (runWord_next w _ t).1 h1.symm
    rcases exec_cases i { s with inbox := rest } with ⟨h2, h3⟩ | ⟨h2, u, hsh, h3⟩
    · refine .inl ⟨h2 ▸ hi, ?_⟩
      rw [h3] at he; simpa [eq_comm] using he
    · rw [h3, afterReset_next] at he
      exact .inr ⟨he.1, he.2 ▸ hsh⟩
  · rw [h] at h1; simp at h1; exact .inr (.inl ⟨v, rest, h1⟩)
  · rw [h] at h1; simp at h1; exact .inr (.inr (.inl ⟨sp, a, v, rest, h1⟩))

end Sys2Proof.Machine
end

