-- ==== Sys2Proof/Laws/Encoding.lean ====
section
/-! SUPPORT. The fields of an assembled command word, read back. -/
namespace Sys2Proof

/-- An assembled word as a number: its fields side by side. -/
theorem assemble_toNat (op a b c : Byte) (d : Wide) :
    (assemble op a b c d).toNat =
      op.toNat * 2 ^ 56 + a.toNat * 2 ^ 48 + b.toNat * 2 ^ 40 + c.toNat * 2 ^ 32 + d.toNat := by
  have hop := op.isLt
  have ha := a.isLt
  have hb := b.isLt
  have hc := c.isLt
  have hd := d.isLt
  have e2 : op.toNat <<< 56 ||| a.toNat <<< 48 = op.toNat * 2 ^ 56 + a.toNat * 2 ^ 48 := by
    rw [Nat.shiftLeft_eq a.toNat, ← Nat.shiftLeft_add_eq_or_of_lt (by omega), Nat.shiftLeft_eq]
  have r1 : op.toNat * 2 ^ 56 + a.toNat * 2 ^ 48 = (op.toNat * 2 ^ 8 + a.toNat) <<< 48 := by
    rw [Nat.shiftLeft_eq]; omega
  have r2 : (op.toNat * 2 ^ 8 + a.toNat) <<< 48 + b.toNat <<< 40 =
      (op.toNat * 2 ^ 16 + a.toNat * 2 ^ 8 + b.toNat) <<< 40 := by
    simp only [Nat.shiftLeft_eq]; ring
  have r3 : (op.toNat * 2 ^ 16 + a.toNat * 2 ^ 8 + b.toNat) <<< 40 + c.toNat <<< 32 =
      (op.toNat * 2 ^ 24 + a.toNat * 2 ^ 16 + b.toNat * 2 ^ 8 + c.toNat) <<< 32 := by
    simp only [Nat.shiftLeft_eq]; ring
  simp only [assemble, BitVec.toNat_or, BitVec.toNat_shiftLeft, BitVec.toNat_setWidth]
  rw [Nat.mod_eq_of_lt (a := op.toNat) (by omega), Nat.mod_eq_of_lt (a := a.toNat) (by omega),
    Nat.mod_eq_of_lt (a := b.toNat) (by omega), Nat.mod_eq_of_lt (a := c.toNat) (by omega),
    Nat.mod_eq_of_lt (a := d.toNat) (by omega),
    Nat.mod_eq_of_lt (a := op.toNat <<< 56) (by rw [Nat.shiftLeft_eq]; omega),
    Nat.mod_eq_of_lt (a := a.toNat <<< 48) (by rw [Nat.shiftLeft_eq]; omega),
    Nat.mod_eq_of_lt (a := b.toNat <<< 40) (by rw [Nat.shiftLeft_eq]; omega),
    Nat.mod_eq_of_lt (a := c.toNat <<< 32) (by rw [Nat.shiftLeft_eq]; omega),
    e2, r1, ← Nat.shiftLeft_add_eq_or_of_lt (by rw [Nat.shiftLeft_eq]; omega), r2,
    ← Nat.shiftLeft_add_eq_or_of_lt (by rw [Nat.shiftLeft_eq]; omega), r3,
    ← Nat.shiftLeft_add_eq_or_of_lt hd]
  simp only [Nat.shiftLeft_eq]
  ring

@[simp] theorem opField_assemble (op a b c : Byte) (d : Wide) : opField (assemble op a b c d) = op := by
  apply BitVec.eq_of_toNat_eq
  simp only [opField, BitVec.extractLsb'_toNat, assemble_toNat, Nat.shiftRight_eq_div_pow]
  omega

@[simp] theorem aField_assemble (op a b c : Byte) (d : Wide) : aField (assemble op a b c d) = a := by
  apply BitVec.eq_of_toNat_eq
  simp only [aField, BitVec.extractLsb'_toNat, assemble_toNat, Nat.shiftRight_eq_div_pow]
  omega

@[simp] theorem bField_assemble (op a b c : Byte) (d : Wide) : bField (assemble op a b c d) = b := by
  apply BitVec.eq_of_toNat_eq
  simp only [bField, BitVec.extractLsb'_toNat, assemble_toNat, Nat.shiftRight_eq_div_pow]
  omega

@[simp] theorem cField_assemble (op a b c : Byte) (d : Wide) : cField (assemble op a b c d) = c := by
  apply BitVec.eq_of_toNat_eq
  simp only [cField, BitVec.extractLsb'_toNat, assemble_toNat, Nat.shiftRight_eq_div_pow]
  omega

@[simp] theorem dField_assemble (op a b c : Byte) (d : Wide) : dField (assemble op a b c d) = d := by
  apply BitVec.eq_of_toNat_eq
  simp only [dField, BitVec.extractLsb'_toNat, assemble_toNat, Nat.shiftRight_eq_div_pow]
  omega

/-- The opcode of an encoded instruction stands in its word. -/
theorem opField_encode (i : Instr) : opField (encode i) = i.opcode := by
  cases i <;> simp only [encode, Instr.opcode, opField_assemble]

/-! The narrower readings of single commands (R84-R87). -/

theorem assemble_low_half (op a b c : Byte) (d : Wide) : (assemble op a b c d).extractLsb' 0 16 = d.setWidth 16 := by
  apply BitVec.eq_of_toNat_eq
  simp only [BitVec.extractLsb'_toNat, assemble_toNat, Nat.shiftRight_eq_div_pow, BitVec.toNat_setWidth]
  omega

theorem assemble_bit_48 (op a b c : Byte) (d : Wide) : (assemble op a b c d).extractLsb' 48 1 = a.setWidth 1 := by
  apply BitVec.eq_of_toNat_eq
  simp only [BitVec.extractLsb'_toNat, assemble_toNat, Nat.shiftRight_eq_div_pow, BitVec.toNat_setWidth]
  omega

theorem assemble_byte_24 (op a b c : Byte) (d : Wide) : (assemble op a b c d).extractLsb' 24 8 = d.extractLsb' 24 8 := by
  apply BitVec.eq_of_toNat_eq
  simp only [BitVec.extractLsb'_toNat, assemble_toNat, Nat.shiftRight_eq_div_pow]
  omega

theorem assemble_byte_16 (op a b c : Byte) (d : Wide) : (assemble op a b c d).extractLsb' 16 8 = d.extractLsb' 16 8 := by
  apply BitVec.eq_of_toNat_eq
  simp only [BitVec.extractLsb'_toNat, assemble_toNat, Nat.shiftRight_eq_div_pow]
  omega

/-- SETDRUMS5's two booleans in `D[31:24]` and `D[23:16]`, read back. -/
theorem drums5_fields (x y : Byte) :
    ((x.setWidth 32 <<< 24) ||| (y.setWidth 32 <<< 16) : Wide).extractLsb' 24 8 = x ∧
    ((x.setWidth 32 <<< 24) ||| (y.setWidth 32 <<< 16) : Wide).extractLsb' 16 8 = y := by
  have hx := x.isLt
  have hy := y.isLt
  have h : ((x.setWidth 32 <<< 24) ||| (y.setWidth 32 <<< 16) : Wide).toNat = x.toNat * 2 ^ 24 + y.toNat * 2 ^ 16 := by
    simp only [BitVec.toNat_or, BitVec.toNat_shiftLeft, BitVec.toNat_setWidth]
    rw [Nat.mod_eq_of_lt (a := x.toNat) (by omega), Nat.mod_eq_of_lt (a := y.toNat) (by omega),
      Nat.mod_eq_of_lt (a := x.toNat <<< 24) (by rw [Nat.shiftLeft_eq]; omega),
      Nat.mod_eq_of_lt (a := y.toNat <<< 16) (by rw [Nat.shiftLeft_eq]; omega),
      ← Nat.shiftLeft_add_eq_or_of_lt (by rw [Nat.shiftLeft_eq]; omega)]
    simp only [Nat.shiftLeft_eq]
  constructor <;> apply BitVec.eq_of_toNat_eq <;>
    simp only [BitVec.extractLsb'_toNat, h, Nat.shiftRight_eq_div_pow] <;> omega

/-- An assembled word is a masked word where each of its fields is the masked word's. -/
theorem assemble_eq_masked (w m : Word) (op a b c : Byte) (d : Wide) (h1 : op = opField (w &&& m))
    (h2 : a = aField (w &&& m)) (h3 : b = bField (w &&& m)) (h4 : c = cField (w &&& m)) (h5 : d = dField (w &&& m)) :
    assemble op a b c d = w &&& m := by
  subst h1 h2 h3 h4 h5
  generalize w &&& m = w
  apply BitVec.eq_of_toNat_eq
  rw [assemble_toNat]
  have := w.isLt
  simp only [opField, aField, bField, cField, dField, BitVec.extractLsb'_toNat, Nat.shiftRight_eq_div_pow]
  omega

theorem extractLsb'_and_word (w m : Word) (s l : Nat) :
    (w &&& m).extractLsb' s l = w.extractLsb' s l &&& m.extractLsb' s l := by
  ext i hi; simp

/-- A bit vector with a byte joined below it, as a number. -/
theorem append_byte_toNat {n : Nat} (x : BitVec n) (y : Byte) : (x ++ y).toNat = x.toNat * 256 + y.toNat := by
  rw [BitVec.toNat_append, ← Nat.shiftLeft_add_eq_or_of_lt y.isLt, Nat.shiftLeft_eq]

/-- Bytes laid out most significant first and joined again are the word. -/
theorem wordOfBytes_bytesOfWord (w : Word) :
    wordOfBytes (w.extractLsb' 56 8) (w.extractLsb' 48 8) (w.extractLsb' 40 8) (w.extractLsb' 32 8)
      (w.extractLsb' 24 8) (w.extractLsb' 16 8) (w.extractLsb' 8 8) (w.extractLsb' 0 8) = w := by
  have := w.isLt
  apply BitVec.eq_of_toNat_eq
  simp only [wordOfBytes, append_byte_toNat, BitVec.extractLsb'_toNat, Nat.shiftRight_eq_div_pow]
  omega

end Sys2Proof
end

