-- ==== Sys2Proof/Laws/Fields.lean ====
section
/-! SUPPORT. Reading and replacing a field of any layout; the fields of the default layout with their masks written out
(10_state.md R27-R36); and a setter's state by the value it writes. -/
namespace Sys2Proof.Machine

theorem boolOf_setWidth (x : Byte) : (boolOf x).setWidth 8 = bit x := by unfold boolOf bit; split <;> rfl

theorem bit_and_one (x : Byte) : bit x &&& 0x01 = bit x := by unfold bit; split <;> rfl

/-- A setter whose new register value is `v` is the write of `v` with the address in RES. -/
theorem setField_eq {s : State} {f : BitRange} {addr x v : Byte} (h : f.put (s.reg addr) x = v) :
    s.setField f addr x = { s.wr addr v with res := addr.setWidth 16 } := by subst h; rfl

/-! Any layout. -/

/-- The mask of the width, bit by bit. -/
theorem BitRange.max_bit (f : BitRange) (i : Nat) : f.max.getLsbD i = (decide (i < 8) && decide (i < f.w)) := by
  simp [BitRange.max, BitVec.getLsbD_ofNat, Nat.testBit_two_pow_sub_one]

/-- A field of the register, bit by bit. -/
theorem BitRange.get_bit (f : BitRange) (v : Byte) (i : Nat) :
    (f.get v).getLsbD i = (v.getLsbD (f.sh + i) && decide (i < 8) && decide (i < f.w)) := by
  simp [BitRange.get, BitRange.max_bit, Bool.and_assoc]

/-- A register with a field replaced, bit by bit. -/
theorem BitRange.put_bit (f : BitRange) (v x : Byte) (i : Nat) :
    (f.put v x).getLsbD i = if f.sh ≤ i ∧ i < f.sh + f.w then decide (i < 8) && x.getLsbD (i - f.sh) else v.getLsbD i := by
  simp only [BitRange.put, BitRange.clear, BitRange.place, BitVec.getLsbD_or, BitVec.getLsbD_and, BitVec.getLsbD_not,
    BitVec.getLsbD_shiftLeft, BitRange.max_bit]
  by_cases h : i < 8
  · have h' : i - f.sh < 8 := by omega
    by_cases h1 : f.sh ≤ i
    · have h1' : ¬ i < f.sh := by omega
      by_cases h2 : i < f.sh + f.w
      · have h2' : i - f.sh < f.w := by omega
        simp [h, h', h1, h1', h2, h2']
      · have h2' : ¬ i - f.sh < f.w := by omega
        simp [h, h', h1, h1', h2, h2']
    · have h1' : i < f.sh := by omega
      simp [h, h1, h1']
  · simp [h, BitVec.getLsbD_of_ge v i (by omega)]

/-- A field that lies in its register reads back what was put. -/
theorem BitRange.get_put (f : BitRange) (v x : Byte) (h : f.sh + f.w ≤ 8) : f.get (f.put v x) = x &&& f.max := by
  apply BitVec.eq_of_getLsbD_eq
  intro i hi
  rw [BitRange.get_bit, BitRange.put_bit, BitVec.getLsbD_and, BitRange.max_bit]
  by_cases hw : i < f.w
  · simp [hi, hw, show f.sh + i < 8 by omega, show f.sh + i < f.sh + f.w by omega]
  · simp [hw]

/-- A field apart from the one put reads as before. -/
theorem BitRange.get_put_apart (f g : BitRange) (v x : Byte) (h : f.apart g) : g.get (f.put v x) = g.get v := by
  apply BitVec.eq_of_getLsbD_eq
  intro i hi
  rw [BitRange.get_bit, BitRange.get_bit, BitRange.put_bit]
  by_cases hw : i < g.w
  · rw [if_neg]
    rcases h with h | h <;> omega
  · simp [hw]

/-- A field of the register as a number. -/
theorem BitRange.get_eq_number (f : BitRange) (v : Byte) :
    (f.get v).setWidth 16 = BitVec.ofNat 16 (v.toNat / 2 ^ f.sh % 2 ^ f.w) := by
  apply BitVec.eq_of_getLsbD_eq
  intro i hi
  rw [BitVec.getLsbD_setWidth, BitRange.get_bit, BitVec.getLsbD_ofNat, Nat.testBit_mod_two_pow, Nat.testBit_div_two_pow]
  by_cases h : i < 8
  · simp [hi, h, BitVec.getLsbD, Nat.add_comm, Bool.and_comm]
  · have : v.toNat.testBit (i + f.sh) = false := BitVec.getLsbD_of_ge v _ (by omega)
    simp [h, this]

/-- The value a setter's operand gives the field, its mask written as `max`. -/
theorem BitRange.input_eq (f : BitRange) (c : Byte) : f.input c = if f.w = 1 then bit c else c &&& f.max := by
  unfold BitRange.input; rw [boolOf_setWidth]

/-- That value fits the field. -/
theorem BitRange.input_and_max (f : BitRange) (c : Byte) : f.input c &&& f.max = f.input c := by
  rw [BitRange.input_eq]; split
  · rename_i h
    rw [BitRange.max, h]; exact bit_and_one c
  · rw [BitVec.and_assoc, BitVec.and_self]

/-- The current block as a number. -/
theorem State.currentBlock_val (s : State) (c : Fin 9) : (s.currentBlock c).val =
    (s.reg (chAddr 0xB0 c)).toNat / 2 ^ s.rom.fields.blk.sh % 2 ^ s.rom.fields.blk.w % 8 := by
  have h := congrArg BitVec.toNat (s.rom.fields.blk.get_eq_number (s.reg (chAddr 0xB0 c)))
  rw [BitVec.toNat_setWidth, BitVec.toNat_ofNat] at h
  have hr := (s.reg (chAddr 0xB0 c)).isLt
  have hb := (s.rom.fields.blk.get (s.reg (chAddr 0xB0 c))).isLt
  have hd := Nat.div_le_self (s.reg (chAddr 0xB0 c)).toNat (2 ^ s.rom.fields.blk.sh)
  have hm := Nat.mod_le ((s.reg (chAddr 0xB0 c)).toNat / 2 ^ s.rom.fields.blk.sh) (2 ^ s.rom.fields.blk.w)
  rw [Nat.mod_eq_of_lt (by omega), Nat.mod_eq_of_lt (by omega)] at h
  rw [← h]
  exact BitVec.toNat_setWidth _ _

/-- The step of the block that is current. -/
theorem State.fstep_eq {s : State} {c : Fin 9} {b : Fin 8} (h : s.currentBlock c = b) : s.fstep c = s.rom.blkstep[b] := by
  subst h; rfl

/-- The mask of a field of the pair, bit by bit. -/
theorem BitRange.pairMax_bit (f : BitRange) (i : Nat) : f.pairMax.getLsbD i = (decide (i < 16) && decide (i < f.w)) := by
  simp [BitRange.pairMax, BitVec.getLsbD_ofNat, Nat.testBit_two_pow_sub_one]

/-- The pair with its field replaced, bit by bit. -/
theorem BitRange.pairPut_bit (f : BitRange) (hi lo : Byte) (x : Half) (i : Nat) : (f.pairPut hi lo x).getLsbD i =
    if f.sh ≤ i ∧ i < f.sh + f.w then decide (i < 16) && x.getLsbD (i - f.sh) else (hi ++ lo).getLsbD i := by
  simp only [BitRange.pairPut, BitVec.getLsbD_or, BitVec.getLsbD_and, BitVec.getLsbD_not, BitVec.getLsbD_shiftLeft,
    BitRange.pairMax_bit]
  by_cases h : i < 16
  · have h' : i - f.sh < 16 := by omega
    by_cases h1 : f.sh ≤ i
    · have h1' : ¬ i < f.sh := by omega
      by_cases h2 : i < f.sh + f.w
      · have h2' : i - f.sh < f.w := by omega
        simp [h, h', h1, h1', h2, h2']
      · have h2' : ¬ i - f.sh < f.w := by omega
        simp [h, h', h1, h1', h2, h2']
    · have h1' : i < f.sh := by omega
      simp [h, h1, h1']
  · simp [h, BitVec.getLsbD_of_ge (hi ++ lo) i (by omega)]

/-- The low register of the pair with its field replaced, bit by bit. -/
theorem BitRange.putLow_bit (f : BitRange) (lo : Byte) (x : BitVec 10) (i : Nat) (h : i < 8) : (f.putLow lo x).getLsbD i =
    if f.sh ≤ i ∧ i < f.sh + f.w then x.getLsbD (i - f.sh) else lo.getLsbD i := by
  simp only [BitRange.putLow, BitVec.getLsbD_extractLsb', BitRange.pairPut_bit, BitVec.getLsbD_append,
    BitVec.getLsbD_setWidth, Nat.zero_add, h, show i < 16 by omega, show i - f.sh < 16 by omega]
  simp

/-- The high register of the pair with its field replaced, bit by bit. -/
theorem BitRange.putHigh_bit (f : BitRange) (hi : Byte) (x : BitVec 10) (i : Nat) (h : i < 8) : (f.putHigh hi x).getLsbD i =
    if f.sh ≤ 8 + i ∧ 8 + i < f.sh + f.w then x.getLsbD (8 + i - f.sh) else hi.getLsbD i := by
  simp only [BitRange.putHigh, BitVec.getLsbD_extractLsb', BitRange.pairPut_bit, BitVec.getLsbD_append,
    BitVec.getLsbD_setWidth, h, show 8 + i < 16 by omega, show 8 + i - f.sh < 16 by omega,
    show ¬ 8 + i < 8 by omega, show 8 + i - 8 = i by omega]
  simp

/-- The field of the pair, bit by bit. -/
theorem BitRange.pairGet_bit (f : BitRange) (hi lo : Byte) (i : Nat) : (f.pairGet hi lo).getLsbD i =
    ((if f.sh + i < 8 then lo.getLsbD (f.sh + i) else hi.getLsbD (f.sh + i - 8)) && decide (i < 16) && decide (i < f.w)) := by
  rw [BitRange.pairGet, BitVec.getLsbD_and, BitVec.getLsbD_ushiftRight, BitRange.pairMax_bit, BitVec.getLsbD_append]
  by_cases h : f.sh + i < 8 <;> simp [h, Bool.and_assoc]

/-- The F-number reads back from the two registers that were written with it. -/
theorem BitRange.pairGet_put (f : BitRange) (hi lo : Byte) (x : BitVec 10) (hw : f.w = 10) (h : f.sh + 10 ≤ 16) :
    f.pairGet (f.putHigh hi x) (f.putLow lo x) = x.setWidth 16 := by
  apply BitVec.eq_of_getLsbD_eq
  intro i h16
  rw [BitRange.pairGet_bit, BitVec.getLsbD_setWidth]
  by_cases h10 : i < 10
  · by_cases h8 : f.sh + i < 8
    · rw [if_pos h8, BitRange.putLow_bit f lo x _ h8, if_pos (by omega)]
      simp [h16, hw, h10]
    · rw [if_neg h8, BitRange.putHigh_bit f hi x _ (by omega), if_pos (by omega)]
      simp [h16, hw, h10, show 8 + (f.sh + i - 8) - f.sh = i by omega]
  · simp [hw, h10, BitVec.getLsbD_of_ge x i (by omega)]

/-! The default layout. -/

theorem FieldMap.trem_put (v x : Byte) :
    fieldMapDefault.trem.put v x = (v &&& (0x7F : Byte)) ||| ((x &&& (0x01 : Byte)) <<< 7) := by
  simp [BitRange.put, BitRange.clear, BitRange.place, BitRange.max, fieldMapDefault]
theorem FieldMap.trem_get (v : Byte) : fieldMapDefault.trem.get v = (v >>> 7) &&& (0x01 : Byte) := by
  simp [BitRange.get, BitRange.max, fieldMapDefault]
theorem FieldMap.vib_put (v x : Byte) :
    fieldMapDefault.vib.put v x = (v &&& (0xBF : Byte)) ||| ((x &&& (0x01 : Byte)) <<< 6) := by
  simp [BitRange.put, BitRange.clear, BitRange.place, BitRange.max, fieldMapDefault]
theorem FieldMap.vib_get (v : Byte) : fieldMapDefault.vib.get v = (v >>> 6) &&& (0x01 : Byte) := by
  simp [BitRange.get, BitRange.max, fieldMapDefault]
theorem FieldMap.sush_put (v x : Byte) :
    fieldMapDefault.sush.put v x = (v &&& (0xDF : Byte)) ||| ((x &&& (0x01 : Byte)) <<< 5) := by
  simp [BitRange.put, BitRange.clear, BitRange.place, BitRange.max, fieldMapDefault]
theorem FieldMap.sush_get (v : Byte) : fieldMapDefault.sush.get v = (v >>> 5) &&& (0x01 : Byte) := by
  simp [BitRange.get, BitRange.max, fieldMapDefault]
theorem FieldMap.ksr_put (v x : Byte) :
    fieldMapDefault.ksr.put v x = (v &&& (0xEF : Byte)) ||| ((x &&& (0x01 : Byte)) <<< 4) := by
  simp [BitRange.put, BitRange.clear, BitRange.place, BitRange.max, fieldMapDefault]
theorem FieldMap.ksr_get (v : Byte) : fieldMapDefault.ksr.get v = (v >>> 4) &&& (0x01 : Byte) := by
  simp [BitRange.get, BitRange.max, fieldMapDefault]
theorem FieldMap.mult_put (v x : Byte) :
    fieldMapDefault.mult.put v x = (v &&& (0xF0 : Byte)) ||| (x &&& (0x0F : Byte)) := by
  simp [BitRange.put, BitRange.clear, BitRange.place, BitRange.max, fieldMapDefault]
theorem FieldMap.mult_get (v : Byte) : fieldMapDefault.mult.get v = v &&& (0x0F : Byte) := by
  simp [BitRange.get, BitRange.max, fieldMapDefault]
theorem FieldMap.ksl_put (v x : Byte) :
    fieldMapDefault.ksl.put v x = (v &&& (0x3F : Byte)) ||| ((x &&& (0x03 : Byte)) <<< 6) := by
  simp [BitRange.put, BitRange.clear, BitRange.place, BitRange.max, fieldMapDefault]
theorem FieldMap.ksl_get (v : Byte) : fieldMapDefault.ksl.get v = (v >>> 6) &&& (0x03 : Byte) := by
  simp [BitRange.get, BitRange.max, fieldMapDefault]
theorem FieldMap.lvl_put (v x : Byte) :
    fieldMapDefault.lvl.put v x = (v &&& (0xC0 : Byte)) ||| (x &&& (0x3F : Byte)) := by
  simp [BitRange.put, BitRange.clear, BitRange.place, BitRange.max, fieldMapDefault]
theorem FieldMap.lvl_get (v : Byte) : fieldMapDefault.lvl.get v = v &&& (0x3F : Byte) := by
  simp [BitRange.get, BitRange.max, fieldMapDefault]
theorem FieldMap.atk_put (v x : Byte) :
    fieldMapDefault.atk.put v x = (v &&& (0x0F : Byte)) ||| ((x &&& (0x0F : Byte)) <<< 4) := by
  simp [BitRange.put, BitRange.clear, BitRange.place, BitRange.max, fieldMapDefault]
theorem FieldMap.atk_get (v : Byte) : fieldMapDefault.atk.get v = (v >>> 4) &&& (0x0F : Byte) := by
  simp [BitRange.get, BitRange.max, fieldMapDefault]
theorem FieldMap.dec_put (v x : Byte) :
    fieldMapDefault.dec.put v x = (v &&& (0xF0 : Byte)) ||| (x &&& (0x0F : Byte)) := by
  simp [BitRange.put, BitRange.clear, BitRange.place, BitRange.max, fieldMapDefault]
theorem FieldMap.dec_get (v : Byte) : fieldMapDefault.dec.get v = v &&& (0x0F : Byte) := by
  simp [BitRange.get, BitRange.max, fieldMapDefault]
theorem FieldMap.susl_put (v x : Byte) :
    fieldMapDefault.susl.put v x = (v &&& (0x0F : Byte)) ||| ((x &&& (0x0F : Byte)) <<< 4) := by
  simp [BitRange.put, BitRange.clear, BitRange.place, BitRange.max, fieldMapDefault]
theorem FieldMap.susl_get (v : Byte) : fieldMapDefault.susl.get v = (v >>> 4) &&& (0x0F : Byte) := by
  simp [BitRange.get, BitRange.max, fieldMapDefault]
theorem FieldMap.rel_put (v x : Byte) :
    fieldMapDefault.rel.put v x = (v &&& (0xF0 : Byte)) ||| (x &&& (0x0F : Byte)) := by
  simp [BitRange.put, BitRange.clear, BitRange.place, BitRange.max, fieldMapDefault]
theorem FieldMap.rel_get (v : Byte) : fieldMapDefault.rel.get v = v &&& (0x0F : Byte) := by
  simp [BitRange.get, BitRange.max, fieldMapDefault]
theorem FieldMap.wave_put (v x : Byte) :
    fieldMapDefault.wave.put v x = (v &&& (0xFC : Byte)) ||| (x &&& (0x03 : Byte)) := by
  simp [BitRange.put, BitRange.clear, BitRange.place, BitRange.max, fieldMapDefault]
theorem FieldMap.wave_get (v : Byte) : fieldMapDefault.wave.get v = v &&& (0x03 : Byte) := by
  simp [BitRange.get, BitRange.max, fieldMapDefault]
theorem FieldMap.blk_put (v x : Byte) :
    fieldMapDefault.blk.put v x = (v &&& (0xE3 : Byte)) ||| ((x &&& (0x07 : Byte)) <<< 2) := by
  simp [BitRange.put, BitRange.clear, BitRange.place, BitRange.max, fieldMapDefault]
theorem FieldMap.blk_get (v : Byte) : fieldMapDefault.blk.get v = (v >>> 2) &&& (0x07 : Byte) := by
  simp [BitRange.get, BitRange.max, fieldMapDefault]
theorem FieldMap.key_put (v x : Byte) :
    fieldMapDefault.key.put v x = (v &&& (0xDF : Byte)) ||| ((x &&& (0x01 : Byte)) <<< 5) := by
  simp [BitRange.put, BitRange.clear, BitRange.place, BitRange.max, fieldMapDefault]
theorem FieldMap.key_get (v : Byte) : fieldMapDefault.key.get v = (v >>> 5) &&& (0x01 : Byte) := by
  simp [BitRange.get, BitRange.max, fieldMapDefault]
theorem FieldMap.fb_put (v x : Byte) :
    fieldMapDefault.fb.put v x = (v &&& (0xF1 : Byte)) ||| ((x &&& (0x07 : Byte)) <<< 1) := by
  simp [BitRange.put, BitRange.clear, BitRange.place, BitRange.max, fieldMapDefault]
theorem FieldMap.fb_get (v : Byte) : fieldMapDefault.fb.get v = (v >>> 1) &&& (0x07 : Byte) := by
  simp [BitRange.get, BitRange.max, fieldMapDefault]
theorem FieldMap.syn_put (v x : Byte) :
    fieldMapDefault.syn.put v x = (v &&& (0xFE : Byte)) ||| (x &&& (0x01 : Byte)) := by
  simp [BitRange.put, BitRange.clear, BitRange.place, BitRange.max, fieldMapDefault]
theorem FieldMap.syn_get (v : Byte) : fieldMapDefault.syn.get v = v &&& (0x01 : Byte) := by
  simp [BitRange.get, BitRange.max, fieldMapDefault]
theorem FieldMap.wse_put (v x : Byte) :
    fieldMapDefault.wse.put v x = (v &&& (0xDF : Byte)) ||| ((x &&& (0x01 : Byte)) <<< 5) := by
  simp [BitRange.put, BitRange.clear, BitRange.place, BitRange.max, fieldMapDefault]
theorem FieldMap.wse_get (v : Byte) : fieldMapDefault.wse.get v = (v >>> 5) &&& (0x01 : Byte) := by
  simp [BitRange.get, BitRange.max, fieldMapDefault]
theorem FieldMap.perc_put (v x : Byte) :
    fieldMapDefault.perc.put v x = (v &&& (0xDF : Byte)) ||| ((x &&& (0x01 : Byte)) <<< 5) := by
  simp [BitRange.put, BitRange.clear, BitRange.place, BitRange.max, fieldMapDefault]
theorem FieldMap.perc_get (v : Byte) : fieldMapDefault.perc.get v = (v >>> 5) &&& (0x01 : Byte) := by
  simp [BitRange.get, BitRange.max, fieldMapDefault]
theorem FieldMap.drums_put (v x : Byte) :
    fieldMapDefault.drums.put v x = (v &&& (0xE0 : Byte)) ||| (x &&& (0x1F : Byte)) := by
  simp [BitRange.put, BitRange.clear, BitRange.place, BitRange.max, fieldMapDefault]
theorem FieldMap.drums_get (v : Byte) : fieldMapDefault.drums.get v = v &&& (0x1F : Byte) := by
  simp [BitRange.get, BitRange.max, fieldMapDefault]
theorem FieldMap.trem_input (c : Byte) : fieldMapDefault.trem.input c = bit c := by
  simp [BitRange.input, fieldMapDefault, boolOf_setWidth]
theorem FieldMap.vib_input (c : Byte) : fieldMapDefault.vib.input c = bit c := by
  simp [BitRange.input, fieldMapDefault, boolOf_setWidth]
theorem FieldMap.sush_input (c : Byte) : fieldMapDefault.sush.input c = bit c := by
  simp [BitRange.input, fieldMapDefault, boolOf_setWidth]
theorem FieldMap.ksr_input (c : Byte) : fieldMapDefault.ksr.input c = bit c := by
  simp [BitRange.input, fieldMapDefault, boolOf_setWidth]
theorem FieldMap.mult_input (c : Byte) : fieldMapDefault.mult.input c = c &&& (0x0F : Byte) := by
  simp [BitRange.input, BitRange.max, fieldMapDefault]
theorem FieldMap.ksl_input (c : Byte) : fieldMapDefault.ksl.input c = c &&& (0x03 : Byte) := by
  simp [BitRange.input, BitRange.max, fieldMapDefault]
theorem FieldMap.lvl_input (c : Byte) : fieldMapDefault.lvl.input c = c &&& (0x3F : Byte) := by
  simp [BitRange.input, BitRange.max, fieldMapDefault]
theorem FieldMap.atk_input (c : Byte) : fieldMapDefault.atk.input c = c &&& (0x0F : Byte) := by
  simp [BitRange.input, BitRange.max, fieldMapDefault]
theorem FieldMap.dec_input (c : Byte) : fieldMapDefault.dec.input c = c &&& (0x0F : Byte) := by
  simp [BitRange.input, BitRange.max, fieldMapDefault]
theorem FieldMap.susl_input (c : Byte) : fieldMapDefault.susl.input c = c &&& (0x0F : Byte) := by
  simp [BitRange.input, BitRange.max, fieldMapDefault]
theorem FieldMap.rel_input (c : Byte) : fieldMapDefault.rel.input c = c &&& (0x0F : Byte) := by
  simp [BitRange.input, BitRange.max, fieldMapDefault]
theorem FieldMap.wave_input (c : Byte) : fieldMapDefault.wave.input c = c &&& (0x03 : Byte) := by
  simp [BitRange.input, BitRange.max, fieldMapDefault]

/-- The low register of the F-number, whole (R33). -/
theorem FieldMap.fnum_putLow (lo : Byte) (f : BitVec 10) :
    fieldMapDefault.fnum.putLow lo f = BitVec.ofNat 8 (f.toNat % 256) := by
  apply BitVec.eq_of_getLsbD_eq
  intro i hi
  rw [BitRange.putLow_bit _ _ _ _ hi, if_pos (by simp [fieldMapDefault]; omega), BitVec.getLsbD_ofNat,
    show (256 : Nat) = 2 ^ 8 from rfl, Nat.testBit_mod_two_pow]
  simp [fieldMapDefault, hi, BitVec.getLsbD]

/-- The high register of the F-number, its bits 7:2 kept (R34). -/
theorem FieldMap.fnum_putHigh (v : Byte) (f : BitVec 10) :
    fieldMapDefault.fnum.putHigh v f = (v &&& (0xFC : Byte)) ||| BitVec.ofNat 8 (f.toNat / 256) := by
  apply BitVec.eq_of_getLsbD_eq
  intro i hi
  rw [BitRange.putHigh_bit _ _ _ _ hi, BitVec.getLsbD_or, BitVec.getLsbD_and, BitVec.getLsbD_ofNat,
    show (256 : Nat) = 2 ^ 8 from rfl, Nat.testBit_div_two_pow]
  have h0 : ∀ j, 10 ≤ j → f.toNat.testBit j = false := fun j hj => BitVec.getLsbD_of_ge f j hj
  have hm : ∀ j, j < 8 → (0xFC : Byte).getLsbD j = decide (2 ≤ j) := by decide
  rw [hm i hi]
  interval_cases i <;> simp [fieldMapDefault, BitVec.getLsbD, h0]

/-- The F-number of the pair (R201). -/
theorem FieldMap.fnum_pairGet (hi lo : Byte) :
    fieldMapDefault.fnum.pairGet hi lo = BitVec.ofNat 16 (hi.toNat % 4 * 256 + lo.toNat) := by
  simp only [BitRange.pairGet, BitRange.pairMax, fieldMapDefault]
  apply BitVec.eq_of_toNat_eq
  have := lo.isLt
  have := hi.isLt
  have h : (hi ++ lo).toNat = hi.toNat * 256 + lo.toNat := by
    rw [BitVec.toNat_append, ← Nat.shiftLeft_add_eq_or_of_lt lo.isLt, Nat.shiftLeft_eq]
  rw [BitVec.toNat_and, show BitVec.toNat (BitVec.ofNat 16 (2 ^ 10 - 1)) = 2 ^ 10 - 1 from rfl, Nat.and_two_pow_sub_one_eq_mod]
  simp only [BitVec.ushiftRight_zero, h, BitVec.toNat_ofNat]
  omega

theorem exec_setter (f : OpField) (a b c : Byte) (s : State) : exec (f.setter a b c) s =
    afterReset (f.setter a b c) s (setOperatorField f.base (f.range s.rom.fields) a b c s) := by cases f <;> rfl

theorem exec_getter (f : OpField) (a b : Byte) (s : State) : exec (f.getter a b) s =
    afterReset (f.getter a b) s (getOperatorField f.base (f.range s.rom.fields) a b s) := by cases f <;> rfl

end Sys2Proof.Machine
end

