-- ==== Sys2Proof/Laws/PerInstr.lean ====
section
/-! SUPPORT. What holds of every instruction as syntax, one lemma per constructor. Family EncodedWord: the word `encode`
gives an instruction carries its opcode (30_encoding.md R88) and is well formed, every bit the command does not read 0
(R90, R94). -/
namespace Sys2Proof.Laws.EncodedWord
open Sys2Proof

/-- The encoded word carries the instruction's opcode and is well formed. -/
def Statement (i : Instr) : Prop := opField (encode i) = i.opcode ∧ Word.wellFormed (encode i) = true

/-- An assembled word is well formed where its opcode is assigned and its operands stand within the mask its command reads. -/
theorem wellFormed_assemble {op a b c : Byte} {d : Wide} {m : Word} (hs : (opcodeFormat op).isSome = true)
    (hm : readMask op = m) (h1 : op = op &&& m.extractLsb' 56 8) (h2 : a = a &&& m.extractLsb' 48 8)
    (h3 : b = b &&& m.extractLsb' 40 8) (h4 : c = c &&& m.extractLsb' 32 8) (h5 : d = d &&& m.extractLsb' 0 32) :
    Word.wellFormed (assemble op a b c d) = true := by
  have e : assemble op a b c d = assemble op a b c d &&& m := by
    apply assemble_eq_masked
    · rw [opField, extractLsb'_and_word, ← opField, opField_assemble]; exact h1
    · rw [aField, extractLsb'_and_word, ← aField, aField_assemble]; exact h2
    · rw [bField, extractLsb'_and_word, ← bField, bField_assemble]; exact h3
    · rw [cField, extractLsb'_and_word, ← cField, cField_assemble]; exact h4
    · rw [dField, extractLsb'_and_word, ← dField, dField_assemble]; exact h5
  have z : assemble op a b c d &&& ~~~m = 0 := by
    rw [e, BitVec.and_assoc]
    have : m &&& ~~~m = 0 := by ext i hi; simp
    rw [this]; exact BitVec.and_zero
  simp [Word.wellFormed, Word.opAssigned, Word.unreadZero, opField_assemble, hs, hm, z]

theorem byte_all (x : Byte) : x = x &&& 0xFF#8 := by rw [show 0xFF#8 = BitVec.allOnes 8 from rfl, BitVec.and_allOnes]
theorem wide_all (x : Wide) : x = x &&& 0xFFFFFFFF#32 := by
  rw [show 0xFFFFFFFF#32 = BitVec.allOnes 32 from rfl, BitVec.and_allOnes]

/-- An operand of sixteen bits stands in `D[15:0]`. -/
theorem half_low (x : Half) : x.setWidth 32 = x.setWidth 32 &&& 0xFFFF#32 := by
  apply BitVec.eq_of_toNat_eq
  rw [BitVec.toNat_and, show (0xFFFF#32).toNat = 2 ^ 16 - 1 from rfl, Nat.and_two_pow_sub_one_eq_mod]
  simp only [BitVec.toNat_setWidth]
  omega

/-- A blob source space stands in `A[0]`. -/
theorem space_low : ∀ x : BitVec 1, x.setWidth 8 = x.setWidth 8 &&& 1#8 := by decide

/-- SETDRUMS5's last two booleans stand in `D[31:16]`. -/
theorem drums5_high (x y : Byte) : ((x.setWidth 32 <<< 24) ||| (y.setWidth 32 <<< 16) : Wide) =
    ((x.setWidth 32 <<< 24) ||| (y.setWidth 32 <<< 16)) &&& 0xFFFF0000#32 := by
  ext i hi; interval_cases i <;> simp

theorem reset : Statement .reset :=
  ⟨opField_encode _, wellFormed_assemble rfl rfl rfl rfl rfl rfl rfl⟩
theorem setreg (a : Byte) (b : Byte) : Statement (.setreg a b) :=
  ⟨opField_encode _, wellFormed_assemble rfl rfl rfl (byte_all _) (byte_all _) rfl rfl⟩
theorem getreg (a : Byte) : Statement (.getreg a) :=
  ⟨opField_encode _, wellFormed_assemble rfl rfl rfl (byte_all _) rfl rfl rfl⟩
theorem regoff (a : Byte) (b : Byte) : Statement (.regoff a b) :=
  ⟨opField_encode _, wellFormed_assemble rfl rfl rfl (byte_all _) (byte_all _) rfl rfl⟩
theorem drumoff (a : Byte) (b : Byte) : Statement (.drumoff a b) :=
  ⟨opField_encode _, wellFormed_assemble rfl rfl rfl (byte_all _) (byte_all _) rfl rfl⟩
theorem fblock (d : Wide) : Statement (.fblock d) :=
  ⟨opField_encode _, wellFormed_assemble rfl rfl rfl rfl rfl rfl (wide_all _)⟩
theorem ffnum (a : Byte) (d : Wide) : Statement (.ffnum a d) :=
  ⟨opField_encode _, wellFormed_assemble rfl rfl rfl (byte_all _) rfl rfl (wide_all _)⟩
theorem notefnum (a : Byte) : Statement (.notefnum a) :=
  ⟨opField_encode _, wellFormed_assemble rfl rfl rfl (byte_all _) rfl rfl rfl⟩
theorem settrem (a : Byte) (b : Byte) (c : Byte) : Statement (.settrem a b c) :=
  ⟨opField_encode _, wellFormed_assemble rfl rfl rfl (byte_all _) (byte_all _) (byte_all _) rfl⟩
theorem setvib (a : Byte) (b : Byte) (c : Byte) : Statement (.setvib a b c) :=
  ⟨opField_encode _, wellFormed_assemble rfl rfl rfl (byte_all _) (byte_all _) (byte_all _) rfl⟩
theorem setsush (a : Byte) (b : Byte) (c : Byte) : Statement (.setsush a b c) :=
  ⟨opField_encode _, wellFormed_assemble rfl rfl rfl (byte_all _) (byte_all _) (byte_all _) rfl⟩
theorem setksr (a : Byte) (b : Byte) (c : Byte) : Statement (.setksr a b c) :=
  ⟨opField_encode _, wellFormed_assemble rfl rfl rfl (byte_all _) (byte_all _) (byte_all _) rfl⟩
theorem setmult (a : Byte) (b : Byte) (c : Byte) : Statement (.setmult a b c) :=
  ⟨opField_encode _, wellFormed_assemble rfl rfl rfl (byte_all _) (byte_all _) (byte_all _) rfl⟩
theorem setksl (a : Byte) (b : Byte) (c : Byte) : Statement (.setksl a b c) :=
  ⟨opField_encode _, wellFormed_assemble rfl rfl rfl (byte_all _) (byte_all _) (byte_all _) rfl⟩
theorem setlvl (a : Byte) (b : Byte) (c : Byte) : Statement (.setlvl a b c) :=
  ⟨opField_encode _, wellFormed_assemble rfl rfl rfl (byte_all _) (byte_all _) (byte_all _) rfl⟩
theorem setatk (a : Byte) (b : Byte) (c : Byte) : Statement (.setatk a b c) :=
  ⟨opField_encode _, wellFormed_assemble rfl rfl rfl (byte_all _) (byte_all _) (byte_all _) rfl⟩
theorem setdec (a : Byte) (b : Byte) (c : Byte) : Statement (.setdec a b c) :=
  ⟨opField_encode _, wellFormed_assemble rfl rfl rfl (byte_all _) (byte_all _) (byte_all _) rfl⟩
theorem setsusl (a : Byte) (b : Byte) (c : Byte) : Statement (.setsusl a b c) :=
  ⟨opField_encode _, wellFormed_assemble rfl rfl rfl (byte_all _) (byte_all _) (byte_all _) rfl⟩
theorem setrel (a : Byte) (b : Byte) (c : Byte) : Statement (.setrel a b c) :=
  ⟨opField_encode _, wellFormed_assemble rfl rfl rfl (byte_all _) (byte_all _) (byte_all _) rfl⟩
theorem setwave (a : Byte) (b : Byte) (c : Byte) : Statement (.setwave a b c) :=
  ⟨opField_encode _, wellFormed_assemble rfl rfl rfl (byte_all _) (byte_all _) (byte_all _) rfl⟩
theorem gettrem (a : Byte) (b : Byte) : Statement (.gettrem a b) :=
  ⟨opField_encode _, wellFormed_assemble rfl rfl rfl (byte_all _) (byte_all _) rfl rfl⟩
theorem getvib (a : Byte) (b : Byte) : Statement (.getvib a b) :=
  ⟨opField_encode _, wellFormed_assemble rfl rfl rfl (byte_all _) (byte_all _) rfl rfl⟩
theorem getsush (a : Byte) (b : Byte) : Statement (.getsush a b) :=
  ⟨opField_encode _, wellFormed_assemble rfl rfl rfl (byte_all _) (byte_all _) rfl rfl⟩
theorem getksr (a : Byte) (b : Byte) : Statement (.getksr a b) :=
  ⟨opField_encode _, wellFormed_assemble rfl rfl rfl (byte_all _) (byte_all _) rfl rfl⟩
theorem getmult (a : Byte) (b : Byte) : Statement (.getmult a b) :=
  ⟨opField_encode _, wellFormed_assemble rfl rfl rfl (byte_all _) (byte_all _) rfl rfl⟩
theorem getksl (a : Byte) (b : Byte) : Statement (.getksl a b) :=
  ⟨opField_encode _, wellFormed_assemble rfl rfl rfl (byte_all _) (byte_all _) rfl rfl⟩
theorem getlvl (a : Byte) (b : Byte) : Statement (.getlvl a b) :=
  ⟨opField_encode _, wellFormed_assemble rfl rfl rfl (byte_all _) (byte_all _) rfl rfl⟩
theorem getatk (a : Byte) (b : Byte) : Statement (.getatk a b) :=
  ⟨opField_encode _, wellFormed_assemble rfl rfl rfl (byte_all _) (byte_all _) rfl rfl⟩
theorem getdec (a : Byte) (b : Byte) : Statement (.getdec a b) :=
  ⟨opField_encode _, wellFormed_assemble rfl rfl rfl (byte_all _) (byte_all _) rfl rfl⟩
theorem getsusl (a : Byte) (b : Byte) : Statement (.getsusl a b) :=
  ⟨opField_encode _, wellFormed_assemble rfl rfl rfl (byte_all _) (byte_all _) rfl rfl⟩
theorem getrel (a : Byte) (b : Byte) : Statement (.getrel a b) :=
  ⟨opField_encode _, wellFormed_assemble rfl rfl rfl (byte_all _) (byte_all _) rfl rfl⟩
theorem getwave (a : Byte) (b : Byte) : Statement (.getwave a b) :=
  ⟨opField_encode _, wellFormed_assemble rfl rfl rfl (byte_all _) (byte_all _) rfl rfl⟩
theorem setfnum (a : Byte) (f : Half) : Statement (.setfnum a f) :=
  ⟨opField_encode _, wellFormed_assemble rfl rfl rfl (byte_all _) rfl rfl (half_low _)⟩
theorem setblk (a : Byte) (b : Byte) : Statement (.setblk a b) :=
  ⟨opField_encode _, wellFormed_assemble rfl rfl rfl (byte_all _) (byte_all _) rfl rfl⟩
theorem setkey (a : Byte) (b : Byte) : Statement (.setkey a b) :=
  ⟨opField_encode _, wellFormed_assemble rfl rfl rfl (byte_all _) (byte_all _) rfl rfl⟩
theorem setfb (a : Byte) (b : Byte) : Statement (.setfb a b) :=
  ⟨opField_encode _, wellFormed_assemble rfl rfl rfl (byte_all _) (byte_all _) rfl rfl⟩
theorem setsyn (a : Byte) (b : Byte) : Statement (.setsyn a b) :=
  ⟨opField_encode _, wellFormed_assemble rfl rfl rfl (byte_all _) (byte_all _) rfl rfl⟩
theorem getfnum (a : Byte) : Statement (.getfnum a) :=
  ⟨opField_encode _, wellFormed_assemble rfl rfl rfl (byte_all _) rfl rfl rfl⟩
theorem getblk (a : Byte) : Statement (.getblk a) :=
  ⟨opField_encode _, wellFormed_assemble rfl rfl rfl (byte_all _) rfl rfl rfl⟩
theorem getkey (a : Byte) : Statement (.getkey a) :=
  ⟨opField_encode _, wellFormed_assemble rfl rfl rfl (byte_all _) rfl rfl rfl⟩
theorem getfb (a : Byte) : Statement (.getfb a) :=
  ⟨opField_encode _, wellFormed_assemble rfl rfl rfl (byte_all _) rfl rfl rfl⟩
theorem getsyn (a : Byte) : Statement (.getsyn a) :=
  ⟨opField_encode _, wellFormed_assemble rfl rfl rfl (byte_all _) rfl rfl rfl⟩
theorem setwse (a : Byte) : Statement (.setwse a) :=
  ⟨opField_encode _, wellFormed_assemble rfl rfl rfl (byte_all _) rfl rfl rfl⟩
theorem getwse : Statement .getwse :=
  ⟨opField_encode _, wellFormed_assemble rfl rfl rfl rfl rfl rfl rfl⟩
theorem setperc (a : Byte) : Statement (.setperc a) :=
  ⟨opField_encode _, wellFormed_assemble rfl rfl rfl (byte_all _) rfl rfl rfl⟩
theorem getperc : Statement .getperc :=
  ⟨opField_encode _, wellFormed_assemble rfl rfl rfl rfl rfl rfl rfl⟩
theorem setdrums (a : Byte) : Statement (.setdrums a) :=
  ⟨opField_encode _, wellFormed_assemble rfl rfl rfl (byte_all _) rfl rfl rfl⟩
theorem setdrums5 (bass : Byte) (snare : Byte) (tom : Byte) (cymbal : Byte) (hihat : Byte) : Statement (.setdrums5 bass snare tom cymbal hihat) :=
  ⟨opField_encode _, wellFormed_assemble rfl rfl rfl (byte_all _) (byte_all _) (byte_all _) (drums5_high _ _)⟩
theorem getdrums : Statement .getdrums :=
  ⟨opField_encode _, wellFormed_assemble rfl rfl rfl rfl rfl rfl rfl⟩
theorem instCreate : Statement .instCreate :=
  ⟨opField_encode _, wellFormed_assemble rfl rfl rfl rfl rfl rfl rfl⟩
theorem instLoad (sp : BitVec 1) (base : Wide) : Statement (.instLoad sp base) :=
  ⟨opField_encode _, wellFormed_assemble rfl rfl rfl (space_low _) rfl rfl (wide_all _)⟩
theorem instGet (a : Byte) : Statement (.instGet a) :=
  ⟨opField_encode _, wellFormed_assemble rfl rfl rfl (byte_all _) rfl rfl rfl⟩
theorem instGetDrum (a : Byte) : Statement (.instGetDrum a) :=
  ⟨opField_encode _, wellFormed_assemble rfl rfl rfl (byte_all _) rfl rfl rfl⟩
theorem instSet (a : Byte) (vol : Half) : Statement (.instSet a vol) :=
  ⟨opField_encode _, wellFormed_assemble rfl rfl rfl (byte_all _) rfl rfl (half_low _)⟩
theorem instSetDrum (vol : Half) : Statement (.instSetDrum vol) :=
  ⟨opField_encode _, wellFormed_assemble rfl rfl rfl rfl rfl rfl (half_low _)⟩
theorem playnote (a : Byte) (b : Byte) (c : Byte) : Statement (.playnote a b c) :=
  ⟨opField_encode _, wellFormed_assemble rfl rfl rfl (byte_all _) (byte_all _) (byte_all _) rfl⟩
theorem playdrum (a : Byte) (b : Byte) (c : Byte) : Statement (.playdrum a b c) :=
  ⟨opField_encode _, wellFormed_assemble rfl rfl rfl (byte_all _) (byte_all _) (byte_all _) rfl⟩

end Sys2Proof.Laws.EncodedWord
end

