-- ==== Sys2Proof/Tests/Slice0.lean ====
section
/-! SUPPORT. Small tests of the model and witnesses of the statements' hypotheses. The expected values are those of
95_test_vectors.md (each test's name ends in its vector's id) or worked out from the rule its comment names. -/
namespace Sys2Proof.Tests
open Sys2Proof Sys2Proof.Machine

/-- Bytes listed one after another from address `a` on. -/
def bytesAt (bs : List Byte) (a : Nat) : Memory :=
  match bs with
  | [] => []
  | b :: rest => (a, b) :: bytesAt rest (a + 1)

/-- The instruments MEL, BAS and SNR of 95_test_vectors.md section 2.7. -/
def mel : Instrument := ⟨⟨1, 1, 1, 0, 3, 1, 26, 11, 2, 5, 0, 1⟩, ⟨0, 0, 1, 1, 1, 0, 0, 11, 1, 15, 5, 2⟩, 5, 1, .melodic⟩
def bas : Instrument := ⟨⟨0, 0, 0, 0, 1, 0, 16, 15, 0, 7, 7, 0⟩, ⟨0, 0, 0, 0, 1, 0, 0, 15, 0, 7, 7, 0⟩, 7, 0, .bass⟩
def snr : Instrument := ⟨⟨0, 0, 0, 0, 0, 0, 0, 0, 0, 0, 0, 0⟩, ⟨0, 0, 0, 0, 1, 0, 12, 13, 8, 6, 8, 2⟩, 7, 1, .snare⟩

/-- A small state after RESET: the listed registers, the instrument, no event yet, and the blobs MEL (space 0, 0x100) and
IGN (space 1, 0x40) of 95_test_vectors.md section 2.7. -/
def small (rb : Memory) (ib : Instrument) : State :=
  { State.reset with
    rb := rb, ib := ib, tx := []
    blob0 := bytesAt [0x00, 0xE3, 0x5A, 0xB2, 0x50, 0x01, 0x0B, 0x31, 0x00, 0xB1, 0xF5, 0x02] 0x100
    blob1 := bytesAt [0x0B, 0xFF, 0xFF, 0xFF, 0xFF, 0xFF, 0xFF, 0x00, 0x00, 0x00, 0x00, 0xFC] 0x40 }

/-- What a step that executes the word `w` leaves in TX, RES and IB. -/
def answer (s : State) (w : Word) : Option (List TxEvent × Half × Instrument) :=
  match step (s.deliver w) with
  | .next t => some (t.tx, t.res, t.ib)
  | .fault _ => none
  | .refused _ => none

/-! ## Well-formed words: one ill-formed word for each check -/

/-- R89: opcode 0x04 is unassigned; every operand bit is 0. -/
theorem test_wf_unassigned : Word.wellFormed 0x0400000000000000 = false ∧ Word.unreadZero 0x0400000000000000 = true := by
  decide
/-- R90: GETWSE reads no operand, so a word with operand bits set is not what an assembler writes, though it decodes. -/
theorem test_wf_unread : Word.wellFormed 0x41FFFFFFFFFFFFFF = false ∧ Word.opAssigned 0x41FFFFFFFFFFFFFF = true := by
  decide
/-- R84-R87: the narrower readings: D[31:16] of SETFNUM, A[1] of INST_LOAD, D[15:0] of SETDRUMS5. -/
theorem test_wf_narrow : Word.wellFormed 0x3002000000010000 = false ∧ Word.wellFormed 0x5102000000000000 = false ∧
    Word.wellFormed 0x4500000000000001 = false ∧ Word.wellFormed 0x5401000000010000 = false := by decide
theorem test_wf_good : Word.wellFormed 0x1600011000000000 = true ∧ Word.wellFormed 0x300200000000FFFF = true ∧
    Word.wellFormed 0x510100FFFFFFFFFF = false ∧ Word.wellFormed 0x51010000FFFFFFFF = true := by decide

/-! ## Decoding: the word of every command, written out from R80, R81, R88 with A = 0x12, B = 0x34, C = 0x56 and
D = 0x789ABCDE where it reads them (INST_LOAD reads bit 0 of A alone; SETDRUMS5 reads 0x78 and 0x9A of D; SETFNUM, INST_SET
and INST_SET_DRUM read 0xBCDE of D) -/

theorem test_decode_register_store :
    decode 0x01123456789ABCDE = some .reset ∧ decode 0x02123456789ABCDE = some (.setreg 0x12 0x34) ∧
    decode 0x03123456789ABCDE = some (.getreg 0x12) := by decide
theorem test_decode_address_mapping :
    decode 0x08123456789ABCDE = some (.regoff 0x12 0x34) ∧ decode 0x09123456789ABCDE = some (.drumoff 0x12 0x34) ∧
    decode 0x0A123456789ABCDE = some (.fblock 0x789ABCDE) ∧
    decode 0x0B123456789ABCDE = some (.ffnum 0x12 0x789ABCDE) ∧ decode 0x0C123456789ABCDE = some (.notefnum 0x12) := by decide
theorem test_decode_operator_setters :
    decode 0x10123456789ABCDE = some (.settrem 0x12 0x34 0x56) ∧
    decode 0x11123456789ABCDE = some (.setvib 0x12 0x34 0x56) ∧
    decode 0x12123456789ABCDE = some (.setsush 0x12 0x34 0x56) ∧
    decode 0x13123456789ABCDE = some (.setksr 0x12 0x34 0x56) ∧
    decode 0x14123456789ABCDE = some (.setmult 0x12 0x34 0x56) ∧
    decode 0x15123456789ABCDE = some (.setksl 0x12 0x34 0x56) ∧
    decode 0x16123456789ABCDE = some (.setlvl 0x12 0x34 0x56) ∧
    decode 0x17123456789ABCDE = some (.setatk 0x12 0x34 0x56) ∧
    decode 0x18123456789ABCDE = some (.setdec 0x12 0x34 0x56) ∧
    decode 0x19123456789ABCDE = some (.setsusl 0x12 0x34 0x56) ∧
    decode 0x1A123456789ABCDE = some (.setrel 0x12 0x34 0x56) ∧
    decode 0x1B123456789ABCDE = some (.setwave 0x12 0x34 0x56) := by decide
theorem test_decode_operator_getters :
    decode 0x20123456789ABCDE = some (.gettrem 0x12 0x34) ∧ decode 0x21123456789ABCDE = some (.getvib 0x12 0x34) ∧
    decode 0x22123456789ABCDE = some (.getsush 0x12 0x34) ∧ decode 0x23123456789ABCDE = some (.getksr 0x12 0x34) ∧
    decode 0x24123456789ABCDE = some (.getmult 0x12 0x34) ∧ decode 0x25123456789ABCDE = some (.getksl 0x12 0x34) ∧
    decode 0x26123456789ABCDE = some (.getlvl 0x12 0x34) ∧ decode 0x27123456789ABCDE = some (.getatk 0x12 0x34) ∧
    decode 0x28123456789ABCDE = some (.getdec 0x12 0x34) ∧ decode 0x29123456789ABCDE = some (.getsusl 0x12 0x34) ∧
    decode 0x2A123456789ABCDE = some (.getrel 0x12 0x34) ∧ decode 0x2B123456789ABCDE = some (.getwave 0x12 0x34) := by decide
theorem test_decode_channel_fields :
    decode 0x30123456789ABCDE = some (.setfnum 0x12 0xBCDE) ∧ decode 0x31123456789ABCDE = some (.setblk 0x12 0x34) ∧
    decode 0x32123456789ABCDE = some (.setkey 0x12 0x34) ∧ decode 0x33123456789ABCDE = some (.setfb 0x12 0x34) ∧
    decode 0x34123456789ABCDE = some (.setsyn 0x12 0x34) ∧ decode 0x38123456789ABCDE = some (.getfnum 0x12) ∧
    decode 0x39123456789ABCDE = some (.getblk 0x12) ∧ decode 0x3A123456789ABCDE = some (.getkey 0x12) ∧
    decode 0x3B123456789ABCDE = some (.getfb 0x12) ∧ decode 0x3C123456789ABCDE = some (.getsyn 0x12) := by decide
theorem test_decode_global_fields :
    decode 0x40123456789ABCDE = some (.setwse 0x12) ∧ decode 0x41123456789ABCDE = some .getwse ∧
    decode 0x42123456789ABCDE = some (.setperc 0x12) ∧ decode 0x43123456789ABCDE = some .getperc ∧
    decode 0x44123456789ABCDE = some (.setdrums 0x12) ∧
    decode 0x45123456789ABCDE = some (.setdrums5 0x12 0x34 0x56 0x78 0x9A) ∧
    decode 0x46123456789ABCDE = some .getdrums := by decide
theorem test_decode_instrument_codec :
    decode 0x50123456789ABCDE = some .instCreate ∧ decode 0x51123456789ABCDE = some (.instLoad 0 0x789ABCDE) ∧
    decode 0x52123456789ABCDE = some (.instGet 0x12) ∧ decode 0x53123456789ABCDE = some (.instGetDrum 0x12) ∧
    decode 0x54123456789ABCDE = some (.instSet 0x12 0xBCDE) ∧ decode 0x55123456789ABCDE = some (.instSetDrum 0xBCDE) := by decide
theorem test_decode_playback :
    decode 0x60123456789ABCDE = some (.playnote 0x12 0x34 0x56) ∧
    decode 0x61123456789ABCDE = some (.playdrum 0x12 0x34 0x56) := by decide

/-- R86: bit 0 of A is INST_LOAD's space. -/
theorem test_decode_space : decode 0x5113000012345678 = some (.instLoad 1 0x12345678) := by decide
/-- R94: the encoder writes the words of V30.1, V30.3, V30.4, V30.6. -/
theorem test_encode : encode (.setlvl 0 1 0x10) = 0x1600011000000000 ∧ encode (.setdrums5 1 0 0 1 1) = 0x4501000001010000 ∧
    encode (.setfnum 2 0xFFFF) = 0x300200000000FFFF ∧ encode (.instLoad 1 0x12345678) = 0x5101000012345678 := by decide
/-- V30.10-V30.12: unassigned opcodes. -/
theorem test_decode_none : decode 0x0400000000000000 = none ∧ decode 0xFF00000000000000 = none ∧ decode 0 = none := by
  decide
theorem test_decodeTableWord : decodeTableWord 64 0x6104070B00000000 = some (.playdrum 4 7 11) := by decide
/-- R67: fewer than eight bytes are no word; a ninth byte is left. -/
theorem test_decodeBytes : decodeBytes [0x46, 0, 0, 0, 0, 0, 0] = none ∧
    decodeBytes [0x46, 0, 0, 0, 0, 0, 0, 0, 0x01] = some (.getdrums, [0x01]) := by decide

/-! ## One step of each command -/

theorem test_setreg_V40_3 :
    (answer (small [] emptyInstrument) 0x02BD200000000000).map (fun x => (x.1, x.2.1)) = some ([.write 0xBD 0x20], 0x0000) := by decide
theorem test_setreg_V40_5 :
    (answer (small [(0x20, 0xA1)] emptyInstrument) 0x0220A10000000000).map (fun x => (x.1, x.2.1)) = some ([.write 0x20 0xA1], 0x0000) := by decide
theorem test_getreg_V40_6 :
    (answer (small [(0x20, 0xA1)] emptyInstrument) 0x0320000000000000).map (fun x => (x.1, x.2.1)) = some ([], 0x00A1) := by decide
theorem test_getreg_V40_7 :
    (answer (small [] emptyInstrument) 0x0307000000000000).map (fun x => (x.1, x.2.1)) = some ([], 0x0000) := by decide
theorem test_regoff_V41_2 :
    (answer (small [] emptyInstrument) 0x0802010000000000).map (fun x => (x.1, x.2.1)) = some ([], 0x0005) := by decide
theorem test_regoff_V41_6 :
    (answer (small [] emptyInstrument) 0x0809000000000000).map (fun x => (x.1, x.2.1)) = some ([], 0x0012) := by decide
theorem test_drumoff_V41_12 :
    (answer (small [] emptyInstrument) 0x0901010000000000).map (fun x => (x.1, x.2.1)) = some ([], 0x0014) := by decide
theorem test_drumoff_V41_14 :
    (answer (small [] emptyInstrument) 0x0902010000000000).map (fun x => (x.1, x.2.1)) = some ([], 0x00FF) := by decide
theorem test_fblock_V41_21 :
    (answer (small [] emptyInstrument) 0x0A0000000000BD77).map (fun x => (x.1, x.2.1)) = some ([], 0x0001) := by decide
theorem test_fblock_V41_34 :
    (answer (small [] emptyInstrument) 0x0A000000FFFFFFFF).map (fun x => (x.1, x.2.1)) = some ([], 0x0007) := by decide
theorem test_ffnum_V41_39 :
    (answer (small [] emptyInstrument) 0x0B0400000000BFD0).map (fun x => (x.1, x.2.1)) = some ([], 0x03FF) := by decide
theorem test_ffnum_V41_42 :
    (answer (small [(0xB4, 0x10)] emptyInstrument) 0x0B0400000006B6C0).map (fun x => (x.1, x.2.1)) = some ([], 0x0243) := by decide
theorem test_notefnum_V41_47 :
    (answer (small [] emptyInstrument) 0x0C09000000000000).map (fun x => (x.1, x.2.1)) = some ([], 0x0241) := by decide
theorem test_notefnum_V41_50 :
    (answer (small [] emptyInstrument) 0x0CFF000000000000).map (fun x => (x.1, x.2.1)) = some ([], 0x0287) := by decide
theorem test_settrem_V42_1 :
    (answer (small [] emptyInstrument) 0x1000000100000000).map (fun x => (x.1, x.2.1)) = some ([.write 0x20 0x80], 0x0020) := by decide
theorem test_gettrem_V42_2 :
    (answer (small [(0x20, 0x80)] emptyInstrument) 0x2000000000000000).map (fun x => (x.1, x.2.1)) = some ([], 0x0001) := by decide
theorem test_setvib_V42_3 :
    (answer (small [(0x2B, 0x81)] emptyInstrument) 0x110301FF00000000).map (fun x => (x.1, x.2.1)) = some ([.write 0x2B 0xC1], 0x002B) := by decide
theorem test_getvib_V42_4 :
    (answer (small [(0x2B, 0xC1)] emptyInstrument) 0x2103010000000000).map (fun x => (x.1, x.2.1)) = some ([], 0x0001) := by decide
theorem test_setsush_V42_5 :
    (answer (small [(0x32, 0xFF)] emptyInstrument) 0x1208000000000000).map (fun x => (x.1, x.2.1)) = some ([.write 0x32 0xDF], 0x0032) := by decide
theorem test_getsush_V42_6 :
    (answer (small [(0x32, 0xDF)] emptyInstrument) 0x2208000000000000).map (fun x => (x.1, x.2.1)) = some ([], 0x0000) := by decide
theorem test_setksr_V42_7 :
    (answer (small [(0x25, 0x01)] emptyInstrument) 0x1302010200000000).map (fun x => (x.1, x.2.1)) = some ([.write 0x25 0x11], 0x0025) := by decide
theorem test_getksr_V42_8 :
    (answer (small [(0x25, 0x11)] emptyInstrument) 0x2302010000000000).map (fun x => (x.1, x.2.1)) = some ([], 0x0001) := by decide
theorem test_setmult_V42_9 :
    (answer (small [(0x2A, 0xE3)] emptyInstrument) 0x1405001F00000000).map (fun x => (x.1, x.2.1)) = some ([.write 0x2A 0xEF], 0x002A) := by decide
theorem test_getmult_V42_10 :
    (answer (small [(0x2A, 0xEF)] emptyInstrument) 0x2405000000000000).map (fun x => (x.1, x.2.1)) = some ([], 0x000F) := by decide
theorem test_setksl_V42_11 :
    (answer (small [(0x44, 0x15)] emptyInstrument) 0x1501010700000000).map (fun x => (x.1, x.2.1)) = some ([.write 0x44 0xD5], 0x0044) := by decide
theorem test_getksl_V42_12 :
    (answer (small [(0x44, 0xD5)] emptyInstrument) 0x2501010000000000).map (fun x => (x.1, x.2.1)) = some ([], 0x0003) := by decide
theorem test_setlvl_V42_13 :
    (answer (small [(0x4C, 0xC0)] emptyInstrument) 0x1604015000000000).map (fun x => (x.1, x.2.1)) = some ([.write 0x4C 0xD0], 0x004C) := by decide
theorem test_getlvl_V42_14 :
    (answer (small [(0x4C, 0xD0)] emptyInstrument) 0x2604010000000000).map (fun x => (x.1, x.2.1)) = some ([], 0x0010) := by decide
theorem test_setatk_V42_15 :
    (answer (small [(0x70, 0x0A)] emptyInstrument) 0x1706000F00000000).map (fun x => (x.1, x.2.1)) = some ([.write 0x70 0xFA], 0x0070) := by decide
theorem test_getatk_V42_16 :
    (answer (small [(0x70, 0xFA)] emptyInstrument) 0x2706000000000000).map (fun x => (x.1, x.2.1)) = some ([], 0x000F) := by decide
theorem test_setdec_V42_17 :
    (answer (small [(0x74, 0xF0)] emptyInstrument) 0x1807010900000000).map (fun x => (x.1, x.2.1)) = some ([.write 0x74 0xF9], 0x0074) := by decide
theorem test_getdec_V42_18 :
    (answer (small [(0x74, 0xF9)] emptyInstrument) 0x2807010000000000).map (fun x => (x.1, x.2.1)) = some ([], 0x0009) := by decide
theorem test_setsusl_V42_19 :
    (answer (small [(0x92, 0x02)] emptyInstrument) 0x1909000300000000).map (fun x => (x.1, x.2.1)) = some ([.write 0x92 0x32], 0x0092) := by decide
theorem test_getsusl_V42_20 :
    (answer (small [(0x92, 0x32)] emptyInstrument) 0x2909000000000000).map (fun x => (x.1, x.2.1)) = some ([], 0x0003) := by decide
theorem test_setrel_V42_21 :
    (answer (small [] emptyInstrument) 0x1A00051A00000000).map (fun x => (x.1, x.2.1)) = some ([.write 0x83 0x0A], 0x0083) := by decide
theorem test_getrel_V42_22 :
    (answer (small [(0x83, 0x0A)] emptyInstrument) 0x2A00050000000000).map (fun x => (x.1, x.2.1)) = some ([], 0x000A) := by decide
theorem test_setwave_V42_23 :
    (answer (small [(0xF3, 0xFC)] emptyInstrument) 0x1B06010300000000).map (fun x => (x.1, x.2.1)) = some ([.write 0xF3 0xFF], 0x00F3) := by decide
theorem test_getwave_V42_24 :
    (answer (small [(0xF3, 0xFF)] emptyInstrument) 0x2B06010000000000).map (fun x => (x.1, x.2.1)) = some ([], 0x0003) := by decide
theorem test_setfnum_V43_3 :
    (answer (small [(0xB2, 0xFD)] emptyInstrument) 0x3002000000000400).map (fun x => (x.1, x.2.1)) = some ([.write 0xA2 0xFF, .write 0xB2 0xFF], 0x00A2) := by decide
theorem test_setfnum_V43_6 :
    (answer (small [(0xB2, 0xFD)] emptyInstrument) 0x300200000000FFFF).map (fun x => (x.1, x.2.1)) = some ([.write 0xA2 0x00, .write 0xB2 0xFC], 0x00A2) := by decide
theorem test_getfnum_V43_8 :
    (answer (small [(0xA2, 0x41), (0xB2, 0x02)] emptyInstrument) 0x3802000000000000).map (fun x => (x.1, x.2.1)) = some ([], 0x0241) := by decide
theorem test_setblk_V43_9 :
    (answer (small [(0xB1, 0x21)] emptyInstrument) 0x3101090000000000).map (fun x => (x.1, x.2.1)) = some ([.write 0xB1 0x3D], 0x00B1) := by decide
theorem test_getblk_V43_11 :
    (answer (small [(0xB1, 0x1C)] emptyInstrument) 0x3901000000000000).map (fun x => (x.1, x.2.1)) = some ([], 0x0007) := by decide
theorem test_setkey_V43_14 :
    (answer (small [(0xB8, 0xFF)] emptyInstrument) 0x320C000000000000).map (fun x => (x.1, x.2.1)) = some ([.write 0xB8 0xDF], 0x00B8) := by decide
theorem test_getkey_V43_15 :
    (answer (small [(0xB8, 0x20)] emptyInstrument) 0x3A08000000000000).map (fun x => (x.1, x.2.1)) = some ([], 0x0001) := by decide
theorem test_setfb_V43_16 :
    (answer (small [(0xC3, 0x01)] emptyInstrument) 0x33030F0000000000).map (fun x => (x.1, x.2.1)) = some ([.write 0xC3 0x0F], 0x00C3) := by decide
theorem test_getfb_V43_18 :
    (answer (small [(0xC3, 0x0E)] emptyInstrument) 0x3B03000000000000).map (fun x => (x.1, x.2.1)) = some ([], 0x0007) := by decide
theorem test_setsyn_V43_20 :
    (answer (small [(0xC3, 0xF0)] emptyInstrument) 0x3403020000000000).map (fun x => (x.1, x.2.1)) = some ([.write 0xC3 0xF1], 0x00C3) := by decide
theorem test_getsyn_V43_21 :
    (answer (small [(0xC3, 0x01)] emptyInstrument) 0x3C03000000000000).map (fun x => (x.1, x.2.1)) = some ([], 0x0001) := by decide
theorem test_setwse_V44_2 :
    (answer (small [(0x01, 0x5A)] emptyInstrument) 0x4007000000000000).map (fun x => (x.1, x.2.1)) = some ([.write 0x01 0x7A], 0x0001) := by decide
theorem test_setwse_V44_3 :
    (answer (small [(0x01, 0xFF)] emptyInstrument) 0x4000000000000000).map (fun x => (x.1, x.2.1)) = some ([.write 0x01 0xDF], 0x0001) := by decide
theorem test_getwse_V44_4 :
    (answer (small [(0x01, 0x20)] emptyInstrument) 0x4100000000000000).map (fun x => (x.1, x.2.1)) = some ([], 0x0001) := by decide
theorem test_setperc_V44_6 :
    (answer (small [(0xBD, 0xC3)] emptyInstrument) 0x4201000000000000).map (fun x => (x.1, x.2.1)) = some ([.write 0xBD 0xE3], 0x00BD) := by decide
theorem test_getperc_V44_8 :
    (answer (small [(0xBD, 0xE3)] emptyInstrument) 0x4300000000000000).map (fun x => (x.1, x.2.1)) = some ([], 0x0001) := by decide
theorem test_setdrums_V44_9 :
    (answer (small [(0xBD, 0x20)] emptyInstrument) 0x4411000000000000).map (fun x => (x.1, x.2.1)) = some ([.write 0xBD 0x20, .write 0xBD 0x31], 0x00BD) := by decide
theorem test_setdrums_V44_11 :
    (answer (small [(0xBD, 0xC0)] emptyInstrument) 0x44FF000000000000).map (fun x => (x.1, x.2.1)) = some ([.write 0xBD 0xC0, .write 0xBD 0xDF], 0x00BD) := by decide
theorem test_setdrums5_V44_10 :
    (answer (small [(0xBD, 0xEA)] emptyInstrument) 0x4501000000000000).map (fun x => (x.1, x.2.1)) = some ([.write 0xBD 0xE0, .write 0xBD 0xF0], 0x00BD) := by decide
theorem test_setdrums5_V44_14 :
    (answer (small [] emptyInstrument) 0x4580004000FF0000).map (fun x => (x.1, x.2.1)) = some ([.write 0xBD 0x00, .write 0xBD 0x15], 0x00BD) := by decide
theorem test_getdrums_V44_15 :
    (answer (small [(0xBD, 0xF0)] emptyInstrument) 0x4600000000000000).map (fun x => (x.1, x.2.1)) = some ([], 0x0010) := by decide
theorem test_inst_load_V45_1 :
    (answer (small [] emptyInstrument) 0x5100000000000100).map (fun x => (x.1, x.2.2)) =
      some ([], ⟨⟨1, 1, 1, 0, 3, 1, 26, 11, 2, 5, 0, 1⟩, ⟨0, 0, 1, 1, 1, 0, 0, 11, 1, 15, 5, 2⟩, 5, 1, .melodic⟩) := by decide
theorem test_inst_load_V45_2 :
    (answer (small [] emptyInstrument) 0x5101000000000040).map (fun x => (x.1, x.2.2)) =
      some ([], ⟨⟨1, 1, 1, 1, 15, 3, 63, 15, 15, 15, 15, 3⟩, ⟨0, 0, 0, 0, 0, 0, 0, 0, 0, 0, 0, 0⟩, 7, 1, .melodic⟩) := by decide
theorem test_inst_set_V45_7 :
    (answer (small [] mel) 0x5400000000004000).map (fun x => (x.1, x.2.1)) =
      some ([.write 0x01 0x20, .write 0x20 0xE3, .write 0x40 0x6C, .write 0x60 0xB2, .write 0x80 0x50, .write 0xE0 0x01, .write 0x23 0x31, .write 0x43 0x1F, .write 0x63 0xB1, .write 0x83 0xF5, .write 0xE3 0x02, .write 0xC0 0x0B], 0x0000) := by decide
theorem test_inst_set_V45_9 :
    (answer (small [(0xB5, 0x3F), (0xC5, 0xA0)] mel) 0x5405000000008000).map (fun x => (x.1, x.2.1)) =
      some ([.write 0x01 0x20, .write 0x2A 0xE3, .write 0x4A 0x5A, .write 0x6A 0xB2, .write 0x8A 0x50, .write 0xEA 0x01, .write 0x2D 0x31, .write 0x4D 0x00, .write 0x6D 0xB1, .write 0x8D 0xF5, .write 0xED 0x02, .write 0xC5 0xAB], 0x0000) := by decide
theorem test_inst_get_V45_11 :
    (answer (small [(0x01, 0x20), (0x20, 0xE3), (0x23, 0x31), (0x40, 0x5A), (0x60, 0xB2), (0x63, 0xB1), (0x80, 0x50), (0x83, 0xF5), (0xC0, 0x0B), (0xE0, 0x01), (0xE3, 0x02)] mel) 0x5200000000000000).map (fun x => (x.1, x.2.2)) =
      some ([], ⟨⟨1, 1, 1, 0, 3, 1, 26, 11, 2, 5, 0, 1⟩, ⟨0, 0, 1, 1, 1, 0, 0, 11, 1, 15, 5, 2⟩, 5, 1, .melodic⟩) := by decide
theorem test_inst_set_drum_V45_15 :
    (answer (small [] snr) 0x5500000000008000).map (fun x => (x.1, x.2.1)) =
      some ([.write 0x01 0x20, .write 0x34 0x01, .write 0x54 0x0C, .write 0x74 0xD8, .write 0x94 0x68, .write 0xF4 0x02, .write 0xC7 0x00], 0x0000) := by decide
theorem test_inst_set_drum_V45_16 :
    (answer (small [(0xC6, 0xFF)] bas) 0x5500000000008000).map (fun x => (x.1, x.2.1)) =
      some ([.write 0x01 0x20, .write 0x30 0x01, .write 0x50 0x10, .write 0x70 0xF0, .write 0x90 0x77, .write 0xF0 0x00, .write 0x33 0x01, .write 0x53 0x00, .write 0x73 0xF0, .write 0x93 0x77, .write 0xF3 0x00, .write 0xC6 0xF0], 0x0000) := by decide
theorem test_inst_get_drum_V45_19 :
    (answer (small [(0x34, 0x21)] emptyInstrument) 0x5301000000000000).map (fun x => (x.1, x.2.2)) =
      some ([], ⟨⟨0, 0, 0, 0, 0, 0, 0, 0, 0, 0, 0, 0⟩, ⟨0, 0, 1, 0, 1, 0, 0, 0, 0, 0, 0, 0⟩, 0, 0, .snare⟩) := by decide
theorem test_inst_get_drum_V45_21 :
    (answer (small [(0x31, 0xFF)] emptyInstrument) 0x53C8000000000000).map (fun x => (x.1, x.2.2)) =
      some ([], ⟨⟨1, 1, 1, 1, 15, 0, 0, 0, 0, 0, 0, 0⟩, ⟨0, 0, 0, 0, 0, 0, 0, 0, 0, 0, 0, 0⟩, 0, 0, .hiHat⟩) := by decide
theorem test_inst_create_V45_22 :
    (answer (small [] mel) 0x5000000000000000).map (fun x => (x.1, x.2.2)) = some ([], ⟨⟨0, 0, 0, 0, 0, 0, 0, 0, 0, 0, 0, 0⟩, ⟨0, 0, 0, 0, 0, 0, 0, 0, 0, 0, 0, 0⟩, 0, 0, .melodic⟩) := by decide
theorem test_playnote_V46_2 :
    (answer (small [(0xB3, 0xFF)] emptyInstrument) 0x6003020000000000).map (fun x => (x.1, x.2.1)) = some ([.write 0xB3 0xDF, .write 0xA3 0x56, .write 0xB3 0xE9], 0x0000) := by decide
theorem test_playnote_V46_3 :
    (answer (small [] emptyInstrument) 0x6014090E00000000).map (fun x => (x.1, x.2.1)) = some ([.write 0xB8 0x00, .write 0xA8 0x87, .write 0xB8 0x3E], 0x0000) := by decide
theorem test_playdrum_V46_7 :
    (answer (small [(0xB7, 0xE0), (0xBD, 0x3F)] emptyInstrument) 0x6101030400000000).map (fun x => (x.1, x.2.1)) =
      some ([.write 0xBD 0x37, .write 0xA7 0xB0, .write 0xB7 0xED, .write 0xBD 0x3F], 0x0000) := by decide
theorem test_playdrum_V46_10 :
    (answer (small [] emptyInstrument) 0x6109086300000000).map (fun x => (x.1, x.2.1)) = some ([.write 0xBD 0x00, .write 0xA7 0x87, .write 0xB7 0x1E, .write 0xBD 0x01], 0x0000) := by decide


/-! ## RESET, faults and refusals -/

set_option maxRecDepth 20000 in
/-- V40.2: a second RESET clears the registers, IB and RES and keeps the earlier events. -/
theorem test_reset_V40_2 : ∃ t, step ((small [(0x20, 0xA1), (0xBD, 0xFF)] mel).deliver 0x0100000000000000) = .next t ∧
    t.rb = [] ∧ t.ib = emptyInstrument ∧ t.res = 0x0000 ∧ t.init = true := ⟨_, rfl, rfl, rfl, rfl, rfl⟩
set_option maxRecDepth 20000 in
/-- V40.1: 257 events, the pulse first, registers ascending. -/
theorem test_reset_V40_1 : State.reset.tx.length = 257 ∧
    State.reset.tx.take 3 = [.pulse, .write 0x00 0x00, .write 0x01 0x00] ∧
    State.reset.tx.drop 255 = [.write 0xFE 0x00, .write 0xFF 0x00] := ⟨rfl, rfl, rfl⟩

/-- Power-on with some register, instrument and result contents. -/
def cold : State := State.powerOn [(0x20, 0x55)] mel 0x1234

/-- V60.1, V60.2: a command before any RESET faults. -/
theorem test_notReset_V60_1 : step (cold.deliver 0x0220010000000000) = .fault (.notReset 0x0220010000000000) := rfl
theorem test_notReset_V60_2 : step (cold.deliver 0x41FFFFFFFFFFFFFF) = .fault (.notReset 0x41FFFFFFFFFFFFFF) := rfl
set_option maxRecDepth 20000 in
/-- V60.3: RESET is legal while INIT = 0. -/
theorem test_reset_V60_3 : ∃ t, step (cold.deliver 0x0100000000000000) = .next t ∧ t.init = true ∧ t.rb = [] :=
  ⟨_, rfl, rfl, rfl⟩
/-- V60.4, V60.5: the opcode is checked first, before INIT. -/
theorem test_refused_V60_4 : step (cold.deliver 0x0400000000000000) = .refused (.unassigned 0x04 0x0400000000000000) := rfl
theorem test_refused_V60_5 : step ((small [] mel).deliver 0x6200000000000000) =
    .refused (.unassigned 0x62 0x6200000000000000) := rfl
/-- V60.6 and program P5: a stop is final. -/
theorem test_sticky_V60_6 : Sys2Proof.core.run 2 ((small [] mel).deliver 0x0100000000000000 |>.deliver 0x3500000000000000) =
    .refused (.unassigned 0x35 0x3500000000000000) := rfl
theorem test_sticky_P5 : Sys2Proof.core.run 2 (cold.deliver 0x0100000000000000 |>.deliver 0x0220010000000000) =
    .fault (.notReset 0x0220010000000000) := rfl
/-- With nothing to do a step holds the state; the host's write of IB is taken also while INIT = 0 (log entry 9). -/
theorem test_idle : step cold = .next cold := rfl
theorem test_setInstrument : step { cold with inbox := [.setInstrument snr] } = .next { cold with ib := snr } := rfl
/-- The platform's byte is what INST_LOAD then reads (log entry 5). -/
theorem test_setBlobByte : ∃ t, step { small [] mel with inbox := [.setBlobByte 0 0x100 0x06] } = .next t ∧
    t.blobRead 0 0x100 = 0x06 ∧ t.blobRead 0 0x101 = 0xE3 := ⟨_, rfl, by decide⟩
/-- The command placed for the next step is the one that runs. -/
theorem test_withFetchWord : step (State.reset.withFetchWord 64 0x4600000000000000) = exec .getdrums State.reset := rfl
/-- R260's table in 95_test_vectors.md section 2.7. -/
theorem test_scale : scale 0 0x4000 = 31 ∧ scale 1 0x4000 = 32 ∧ scale 26 0x4000 = 44 ∧ scale 62 0x2000 = 63 ∧
    scale 0 0x7FFF = 0 ∧ scale 26 0x0001 = 63 ∧ scale 10 0xFFFF = 10 := by decide

/-! ## Witnesses: for every statement with hypotheses, concrete inputs that meet them together -/

/-- Right after RESET, with registers that hold something in every group. -/
def warm : State := small [(0x01, 0x20), (0x20, 0xE3), (0x40, 0x5A), (0xA0, 0x41), (0xB0, 0x32), (0xBD, 0x3F), (0xC0, 0x0B)] mel

/-- A layout other than the default that can hold the block's fields: every field of R39 at other bits. -/
def mirrored : FieldMap :=
  ⟨⟨0, 1⟩, ⟨1, 1⟩, ⟨2, 1⟩, ⟨3, 1⟩, ⟨4, 4⟩, ⟨0, 2⟩, ⟨2, 6⟩, ⟨0, 4⟩, ⟨4, 4⟩, ⟨0, 4⟩, ⟨4, 4⟩, ⟨6, 2⟩, ⟨5, 3⟩, ⟨4, 1⟩, ⟨4, 3⟩, ⟨7, 1⟩,
   ⟨0, 1⟩, ⟨7, 1⟩, ⟨2, 5⟩, ⟨1, 10⟩⟩
/-- `warm` on a chip with that layout. -/
def flipped : State := { warm with rom := { warm.rom with fields := mirrored } }
theorem test_layouts : fieldMapDefault.wf ∧ mirrored.wf ∧ flipped.rom.wf ∧ warm.rom.wf :=
  ⟨by decide, by decide, by decide, by decide⟩

theorem test_witness_EncodeOfDecodeKeepsReadBits : decode 0x41FFFFFFFFFFFFFF = some .getwse ∧
    encode .getwse = 0x41FFFFFFFFFFFFFF &&& readMask (opField 0x41FFFFFFFFFFFFFF) := by decide
theorem test_witness_UnreadBitsAreIgnored : (decode 0x41FFFFFFFFFFFFFF).isSome ∧
    ∃ t, step { warm with inbox := [.command 0x41FFFFFFFFFFFFFF] } = .next t := ⟨by decide, _, rfl⟩
/-- The boundaries of the unassigned ranges, and the assigned opcodes beside them. -/
theorem test_witness_UnassignedOpcodesAreRefused :
    (∀ n ∈ [0x00, 0x04, 0x07, 0x0D, 0x0F, 0x1C, 0x1F, 0x2C, 0x2F, 0x35, 0x37, 0x3D, 0x3F, 0x47, 0x4F, 0x56, 0x5F, 0x62, 0xFF],
      unassignedOpcode n ∧ decode (BitVec.ofNat 64 (n * 2 ^ 56)) = none) ∧
    (∀ n ∈ [0x01, 0x03, 0x08, 0x0C, 0x10, 0x1B, 0x20, 0x2B, 0x30, 0x34, 0x38, 0x3C, 0x40, 0x46, 0x50, 0x55, 0x60, 0x61],
      ¬ unassignedOpcode n ∧ decode (BitVec.ofNat 64 (n * 2 ^ 56)) ≠ none) := by decide
theorem test_witness_OperandsClampAndMask : 4 = (OpField.mult.range warm.rom.fields).w ∧ 4 ≠ 1 ∧
    (∃ t, exec (OpField.mult.setter 5 0 0x1F) warm = .next t) ∧ (∃ t, exec (.setfb 3 0x0F) warm = .next t) ∧
    ∃ t, exec (.setdrums 0xFF) warm = .next t := ⟨by decide, by decide, ⟨_, rfl⟩, ⟨_, rfl⟩, _, rfl⟩
theorem test_clamp_boundaries : (ch 8).val = 8 ∧ (ch 9).val = 8 ∧ (op 1).val = 1 ∧ (op 2).val = 1 ∧ (drum 5).val = 4 ∧
    (note 12).val = 11 ∧ oct 8 = 7 ∧ blk 7 = 7 ∧ fn 0x03FF = 1023 ∧ fn 0x0400 = 1023 ∧ fn 0xFFFF = 0 ∧ fn 0x8000 = 0 := by
  decide
theorem test_witness_StepRunsTheDecodedInstruction : decode 0x4600000000000000 = some .getdrums ∧
    (warm.deliver 0x4600000000000000).inbox = .command 0x4600000000000000 :: [] ∧
    ∃ t, exec .getdrums { warm.deliver 0x4600000000000000 with inbox := [] } = .next t := ⟨by decide, rfl, _, rfl⟩
theorem test_witness_StepsWithoutACommand : cold.inbox = [] ∧
    ({ cold with inbox := [.setInstrument snr] } : State).inbox = .setInstrument snr :: [] ∧
    ({ warm with inbox := [.setBlobByte 1 0x40 0x06] } : State).inbox = .setBlobByte 1 0x40 0x06 :: [] ∧
    ((0 : BitVec 1), (0x40 : Wide)) ≠ (1, 0x40) := by decide
theorem test_witness_ChecksComeInOrder :
    unassignedOpcode (opField 0xFF00000000000000).toNat ∧
    (¬ unassignedOpcode (opField 0x0220010000000000).toNat ∧ opField 0x0220010000000000 ≠ 0x01 ∧ cold.init = false) ∧
    (¬ unassignedOpcode (opField 0x0100000000000000).toNat ∧ opField 0x0100000000000000 = 0x01) ∧
    (¬ unassignedOpcode (opField 0x6100000000000000).toNat ∧ warm.init = true) :=
  ⟨by decide, ⟨by decide, by decide, by decide⟩, ⟨by decide, by decide⟩, by decide, by decide⟩
theorem test_witness_EveryCommandCompletesAfterReset : cold.init = false ∧ warm.init = true ∧
    (∃ t, exec .reset cold = .next t) ∧ ∃ t, exec (.playdrum 4 7 11) warm = .next t := ⟨rfl, rfl, ⟨_, rfl⟩, _, rfl⟩
theorem test_witness_CommandsBeforeResetFault : Instr.getwse ≠ .reset ∧ cold.init = false ∧
    decode 0x41FFFFFFFFFFFFFF = some .getwse := by decide
/-- At once and after one step; a RESET word is pending behind each stop. -/
theorem test_witness_StopsAreFinal : ∃ a b t u : State,
    a = { cold with inbox := [.command 0, .command 0x0100000000000000] } ∧ Sys2Proof.core.run 0 a = .next a ∧
    unassignedOpcode (opField 0).toNat ∧ Sys2Proof.core.run 3 a = .refused (.unassigned 0 0) ∧
    b = { warm with inbox := [.command 0x4600000000000000, .command 0xFF00000000000000, .command 0x0100000000000000] } ∧
    Sys2Proof.core.run 1 b = .next t ∧ t.inbox = .command 0xFF00000000000000 :: [.command 0x0100000000000000] ∧
    unassignedOpcode (opField 0xFF00000000000000).toNat ∧
    Sys2Proof.core.run 1 { cold with inbox := [.setInstrument snr, .command 0x0220010000000000, .command 0x0100000000000000] } =
      .next u ∧ u.inbox = .command 0x0220010000000000 :: [.command 0x0100000000000000] ∧
    decode 0x0220010000000000 = some (.setreg 0x20 0x01) ∧ u.init = false ∧
    Sys2Proof.core.run 2 u = .fault (.notReset 0x0220010000000000) :=
  ⟨_, _, _, _, rfl, rfl, by decide, rfl, rfl, rfl, rfl, by decide, rfl, rfl, by decide, rfl, rfl⟩
theorem test_witness_ResetFromPowerOnGivesStateReset : Memory.wf rbUnlisted nreg [(0x00, 0xFF), (0x20, 0x55), (0xFF, 0x01)] := by
  decide
/-- `Effect` has a premise on INIT in each of its halves: a state for each. -/
theorem test_witness_Effect : warm.init = true ∧ cold.init = false := by decide
theorem test_witness_SetregWritesAndGetregReads :
    exec (.setreg 0xFF 0xAB) warm = .next (warm.wr 0xFF 0xAB) ∧ exec (.getreg 0x20) warm = .next { warm with res := 0x00E3 } :=
  ⟨rfl, rfl⟩
theorem test_witness_GetregReturnsTheValueSet : ∃ s1 s2, exec (.setreg 0x20 0x5A) warm = .next s1 ∧
    runCommands [.setreg 0x21 0xFF, .getwse] s1 = .next s2 ∧ ∀ x, .write 0x20 x ∉ s2.tx.drop s1.tx.length :=
  ⟨_, _, rfl, rfl, by decide⟩
theorem test_witness_OffsetQueriesAnswerTheTables : warm.rom = romDefault ∧ warm.init = true := by decide
/-- A frequency equal to the first threshold is in block 1, one equal to the last in block 7. -/
theorem test_witness_BlockOfAFrequency : warm.rom.wf ∧ warm.rom = romDefault ∧ (48503#32).toNat = warm.rom.blkthr[(0 : Fin 8)] ∧
    (6208431#32).toNat = warm.rom.blkthr[(7 : Fin 8)] ∧ (48502#32).toNat ≤ (48503#32).toNat ∧
    (∃ t, exec (.fblock 48502) warm = .next t ∧ t.res = 0) ∧ (∃ t, exec (.fblock 48503) warm = .next t ∧ t.res = 1) ∧
    ∃ t, exec (.fblock 6208431) warm = .next t ∧ t.res = 7 :=
  ⟨by decide, rfl, by decide, by decide, by decide, ⟨_, rfl, by decide⟩, ⟨_, rfl, by decide⟩, _, rfl, by decide⟩
theorem test_witness_FnumberOfAFrequency : warm.rom.fields = fieldMapDefault ∧
    (4 : Fin 8).val = (warm.reg (0xB0 + BitVec.ofNat 8 (ch 0).val)).toNat / 4 % 8 ∧ warm.rom.blkstep[(4 : Fin 8)] ≠ 0 ∧
    (0 : Fin 8).val = (warm.reg (0xB0 + BitVec.ofNat 8 (ch 8).val)).toNat / 4 % 8 ∧ warm.rom.blkstep[(0 : Fin 8)] ≠ 0 := by
  decide
theorem test_witness_OperatorFieldSetters : warm.rom.fields = fieldMapDefault ∧
    (0x15 : Byte) = warm.rom.opoff[op 255][ch 255] ∧ (0x35 : Byte) = 0x20 + 0x15 ∧ (0x55 : Byte) = 0x40 + 0x15 ∧
    (0x75 : Byte) = 0x60 + 0x15 ∧ (0x95 : Byte) = 0x80 + 0x15 ∧ (0xF5 : Byte) = 0xE0 + 0x15 ∧ warm.init = true := by decide
theorem test_witness_OperatorFieldGetters : warm.rom.fields = fieldMapDefault ∧
    (0x00 : Byte) = warm.rom.opoff[op 0][ch 0] ∧ (0xE3 : Byte) = warm.reg (0x20 + 0x00) ∧ warm.init = true := by decide
/-- Both layouts' values of a field, a flag, and the largest F-number. -/
theorem test_witness_FieldsReadBackWhatWasSet : ⟨0, 6⟩ = OpField.lvl.range warm.rom.fields ∧ 0 + 6 ≤ 8 ∧
    (∃ t, exec (OpField.lvl.setter 0 0 0xFF) warm = .next t ∧ ∃ u, exec (OpField.lvl.getter 0 0) t = .next u ∧ u.res = 0x3F) ∧
    ⟨0, 1⟩ = OpField.trem.range flipped.rom.fields ∧ 0 + 1 ≤ 8 ∧ (∃ t, exec (OpField.trem.setter 8 1 2) flipped = .next t ∧
      ∃ u, exec (OpField.trem.getter 8 1) t = .next u ∧ u.res = 1) ∧
    ⟨1, 10⟩ = flipped.rom.fields.fnum ∧ 1 + 10 ≤ 16 ∧ (0x03FF : Half).toNat ≤ 1023 ∧
    ∃ t, exec (.setfnum 8 0x03FF) flipped = .next t ∧ ∃ u, exec (.getfnum 8) t = .next u ∧ u.res = 0x03FF :=
  ⟨rfl, by decide, ⟨_, rfl, _, rfl, by decide⟩, rfl, by decide, ⟨_, rfl, _, rfl, by decide⟩, rfl, by decide, by decide,
    _, rfl, _, rfl, by decide⟩
/-- R39's formulas with level at bits 7:2: 0x5A becomes (0x5A & 0x03) | (0x3F << 2); with the multiplier at bits 7:4 and the
tremolo at bit 0, register 0xE3 reads 14 and 1. -/
theorem test_witness_OperatorFieldsFollowTheLayout : ⟨2, 6⟩ = OpField.lvl.range flipped.rom.fields ∧
    (0x40 : Byte) = OpField.lvl.base + flipped.rom.opoff[op 0][ch 0] ∧ (0x3F : Byte) = BitVec.ofNat 8 (2 ^ 6 - 1) ∧
    exec (.setlvl 0 0 0x7F) flipped = .next { flipped.wr 0x40 0xFE with res := 0x0040 } ∧
    exec (.getmult 0 0) flipped = .next { flipped with res := 14 } ∧
    exec (.gettrem 0 0) flipped = .next { flipped with res := 1 } :=
  ⟨by decide, by decide, by decide, rfl, rfl, rfl⟩
/-- Another field of the same register, and the same field of another operator. -/
theorem test_witness_OperatorFieldsAreIndependent : warm.rom = romDefault ∧
    (OpField.lvl, ch 0, op 0) ≠ (OpField.ksl, ch 0, op 0) ∧ (OpField.lvl, ch 0, op 0) ≠ (OpField.lvl, ch 0, op 1) ∧
    ∃ t u v, exec (OpField.lvl.setter 0 0 0xFF) warm = .next t ∧ exec (OpField.ksl.getter 0 0) warm = .next u ∧
      exec (OpField.ksl.getter 0 0) t = .next v ∧ v.res = 1 ∧ u.res = 1 :=
  ⟨by decide, by decide, by decide, _, _, _, rfl, rfl, rfl, by decide, by decide⟩
/-- The clamp's boundaries: -1, 1023 and 1024. -/
theorem test_witness_SetfnumWritesBothRegisters : warm.rom.fields = fieldMapDefault ∧
    (((0 : BitVec 10).toNat : Int) = min (max ((0xFFFF : Half).signExtend 32).toInt 0) 1023) ∧
    (((1023 : BitVec 10).toNat : Int) = min (max ((0x03FF : Half).signExtend 32).toInt 0) 1023) ∧
    (((1023 : BitVec 10).toNat : Int) = min (max ((0x0400 : Half).signExtend 32).toInt 0) 1023) ∧
    (0xA2 : Byte) = 0xA0 + BitVec.ofNat 8 (ch 2).val ∧ (0xB2 : Byte) = 0xB0 + BitVec.ofNat 8 (ch 2).val ∧
    warm.init = true := by decide
theorem test_witness_GetfnumJoinsBothRegisters : warm.rom.fields = fieldMapDefault ∧
    (0x41 : Byte) = warm.reg (0xA0 + BitVec.ofNat 8 (ch 0).val) ∧
    (0x32 : Byte) = warm.reg (0xB0 + BitVec.ofNat 8 (ch 0).val) ∧ warm.init = true := by decide
theorem test_witness_ChannelSetters : warm.rom.fields = fieldMapDefault ∧
    (0xB8 : Byte) = 0xB0 + BitVec.ofNat 8 (ch 255).val ∧
    (0xC8 : Byte) = 0xC0 + BitVec.ofNat 8 (ch 255).val ∧ warm.init = true := by decide
theorem test_witness_ChannelGetters : warm.rom.fields = fieldMapDefault ∧
    (0x32 : Byte) = warm.reg (0xB0 + BitVec.ofNat 8 (ch 0).val) ∧
    (0x0B : Byte) = warm.reg (0xC0 + BitVec.ofNat 8 (ch 0).val) ∧ warm.init = true := by decide
theorem test_witness_DrumMasksAreClearedThenSet : warm.rom.fields = fieldMapDefault ∧
    (∃ s1, s1 = warm.wr 0xBD (warm.reg 0xBD &&& 0xE0) ∧ warm.rom = romDefault ∧
      exec (.setdrums5 0x80 0 0x40 0 0xFF) warm = .next { s1.wr 0xBD 0x35 with res := 0x00BD }) ∧
    (∀ d : Fin 5, warm.rom.drumbit[d] ∈ [0x10#8, 0x08#8, 0x04#8, 0x02#8, 0x01#8]) ∧
    ∃ u, exec (.setdrums5 1 1 1 1 1) warm = .next u ∧ u.reg 0xBD = 0x3F :=
  ⟨by decide, ⟨_, rfl, by decide, rfl⟩, by decide, _, rfl, by decide⟩
/-- The F-number 0x241 at bits 10:1 of the pair 0x3241 makes it 0x3483; the feedback is at bits 6:4, the drum bits at 6:2.
The block of 0x32 at bits 7:5 is 1; PLAYNOTE sets block 4 there, key-on at bit 4 and the F-number at bits 10:1. -/
theorem test_witness_CommandsFollowTheLayout : ∃ s1, mirrored = flipped.rom.fields ∧
    (0x00 : Byte) = BitVec.ofNat 8 (ch 0).val ∧ (0xA0 : Byte) = 0xA0 + 0x00 ∧ (0xB0 : Byte) = 0xB0 + 0x00 ∧
    (0xC0 : Byte) = 0xC0 + 0x00 ∧ (0x3483 : Half) = pairReplaced mirrored.fnum (flipped.reg 0xB0 ++ flipped.reg 0xA0)
      (BitVec.ofInt 16 (min (max (0x0241 : Half).toInt 0) 1023)) ∧
    (0x03 : Byte) = flipped.reg 0xBD &&& ~~~(BitVec.ofNat 8 (2 ^ mirrored.drums.w - 1) <<< mirrored.drums.sh) ∧
    s1 = flipped.wr 0xBD 0x03 ∧
    exec (.setfnum 0 0x0241) flipped = .next { (flipped.wr 0xA0 0x83).wr 0xB0 0x34 with res := 0x00A0 } ∧
    exec (.setfb 0 0x0D) flipped = .next { flipped.wr 0xC0 0x5B with res := 0x00C0 } ∧
    exec (.setdrums 0x11) flipped = .next { s1.wr 0xBD 0x47 with res := 0x00BD } ∧
    exec .getdrums flipped = .next { flipped with res := 0x0F } ∧
    ⟨5, 3⟩ = flipped.rom.fields.blk ∧ flipped.rom.blkstep[(1 : Fin 8)] ≠ 0 ∧
    (1 : Fin 8).val = (flipped.reg (0xB0 + BitVec.ofNat 8 (ch 0).val)).toNat / 2 ^ 5 % 2 ^ 3 % 8 ∧
    exec (.ffnum 0 9500) flipped = .next { flipped with res := 100 } ∧ flipped.rom.fields.wf ∧
    exec (.playnote 0 4 9) flipped = .next (flipped.writes [(0xB0, 0x22), (0xA0, 0x83), (0xB0, 0x94)]) :=
  ⟨_, rfl, by decide, by decide, by decide, by decide, by decide, by decide, rfl, rfl, rfl, rfl, rfl, by decide, by decide,
    by decide, rfl, by decide, rfl⟩
theorem test_witness_GlobalFieldSettersAndGetters : warm.rom.fields = fieldMapDefault ∧
    exec (.setwse 0) warm = .next { warm.wr 0x01 0x00 with res := 0x0001 } ∧
    exec .getperc warm = .next { warm with res := 1 } := ⟨by decide, rfl, rfl⟩
theorem test_witness_InstLoadDecodesTheBlob : warm.rom.fields = fieldMapDefault ∧
    (∀ i, i < 12 → [0x00, 0xE3, 0x5A, 0xB2, 0x50, 0x01, 0x0B, 0x31, 0x00, 0xB1, 0xF5, 0x02].getD i 0#8 =
      warm.blobRead 0 (0x100 + BitVec.ofNat 32 i)) ∧
    (∀ i, i < 12 → [0x0B, 0xFF, 0xFF, 0xFF, 0xFF, 0xFF, 0xFF, 0x00, 0x00, 0x00, 0x00, 0xFC].getD i 0#8 =
      warm.blobRead 1 (0x40 + BitVec.ofNat 32 i)) ∧ warm.init = true := by decide
theorem test_witness_InstGetReadsTheChannel : warm.rom.fields = fieldMapDefault ∧
    (0x12 : Byte) = warm.rom.opoff[(0 : Fin 2)][ch 8] ∧
    (0x15 : Byte) = warm.rom.opoff[(1 : Fin 2)][ch 8] ∧ (0x00 : Byte) = warm.reg (0xC0 + BitVec.ofNat 8 (ch 8).val) ∧
    warm.init = true := by decide
/-- A drum that uses the operator and one that does not. -/
theorem test_witness_InstGetDrumReadsTheDrum : warm.rom.fields = fieldMapDefault ∧
    (0x10 : Byte) = warm.rom.drumoff[(0 : Fin 2)][drum 0] ∧ (0x10 : Byte) ≠ 0xFF ∧
    (0xFF : Byte) = warm.rom.drumoff[(0 : Fin 2)][drum 1] ∧ warm.init = true := by decide
theorem test_witness_InstSetWritesTheChannel : warm.rom.fields = fieldMapDefault ∧
    ∃ s1, s1 = warm.writes ((0x01, warm.reg 0x01 ||| 0x20) ::
      (operatorWrites warm.rom.opoff[(0 : Fin 2)][ch 9] warm.ib.op0 0x8000 ++
        operatorWrites warm.rom.opoff[(1 : Fin 2)][ch 9] warm.ib.op1 0x8000)) ∧
    (0xC8 : Byte) = 0xC0 + BitVec.ofNat 8 (ch 9).val ∧ exec (.instSet 9 0x8000) warm = .next (s1.wr 0xC8 0x0B) :=
  ⟨by decide, _, rfl, by decide, rfl⟩
/-- A melodic instrument; a drum with one operator; a drum with both. -/
theorem test_witness_InstSetDrumWritesTheDrum : warm.rom.fields = fieldMapDefault ∧ mel.type = .melodic ∧ exec (.instSetDrum 0x8000) warm = .next warm ∧
    snr.type = [InstType.bass, .snare, .tom, .cymbal, .hiHat].get 1 ∧
    (0xC7 : Byte) = 0xC0 + BitVec.ofNat 8 warm.rom.drumch[(1 : Fin 5)].val ∧
    warm.rom.drumoff[(0 : Fin 2)][(1 : Fin 5)] = 0xFF ∧ bas.type = [InstType.bass, .snare, .tom, .cymbal, .hiHat].get 0 ∧
    (0xC6 : Byte) = 0xC0 + BitVec.ofNat 8 warm.rom.drumch[(0 : Fin 5)].val ∧
    warm.rom.drumoff[(0 : Fin 2)][(0 : Fin 5)] ≠ 0xFF ∧ warm.rom.drumoff[(1 : Fin 2)][(0 : Fin 5)] ≠ 0xFF :=
  ⟨by decide, rfl, rfl, by decide, by decide, by decide, by decide, by decide, by decide, by decide⟩
/-- Blob MEL by the other layout: byte 1, 0xE3, has tremolo (bit 0) 1 and multiplier (bits 7:4) 14; byte 2, 0x5A, has level
(bits 7:2) 22. Channel 0's 0xC0 register, 0x0B, has feedback (bits 6:4) 0 and synthesis mode (bit 7) 0. -/
theorem test_witness_InstrumentReadsFollowTheLayout :
    (∀ i, i < 12 → [0x00, 0xE3, 0x5A, 0xB2, 0x50, 0x01, 0x0B, 0x31, 0x00, 0xB1, 0xF5, 0x02].getD i 0#8 =
      flipped.blobRead 0 (0x100 + BitVec.ofNat 32 i)) ∧
    (∃ t, exec (.instLoad 0 0x100) flipped = .next t ∧ t.ib.op0.trem = 1 ∧ t.ib.op0.mult = 14 ∧ t.ib.op0.lvl = 22 ∧
      t.ib.op0.wave = 1 ∧ t.ib.fb = 5) ∧
    (0x0B : Byte) = flipped.reg (0xC0 + BitVec.ofNat 8 (ch 0).val) ∧
    (∃ t, exec (.instGet 0) flipped = .next t ∧ t.ib.op0.lvl = 22 ∧ t.ib.fb = 0 ∧ t.ib.add = 0) ∧
    (0x10 : Byte) = flipped.rom.drumoff[(0 : Fin 2)][drum 0] ∧ (0x10 : Byte) ≠ 0xFF ∧
    (0xFF : Byte) = flipped.rom.drumoff[(0 : Fin 2)][drum 1] ∧ flipped.init = true :=
  ⟨by decide, ⟨_, rfl, by decide, by decide, by decide, by decide, by decide⟩, by decide,
    ⟨_, rfl, by decide, by decide, by decide⟩, by decide, by decide, by decide, by decide⟩
/-- MEL in the other layout: WSE is bit 0 of 0x01; tremolo, vibrato and sustain-hold are bits 0, 1, 2 and the multiplier 3 at
bits 7:4, so 0x37; key-scale level 1 at bits 1:0 and level 26 at bits 7:2, so 0x69; feedback 5 at bits 6:4 and synthesis mode
1 at bit 7, bits 3:0 of 0x0B kept, so 0xDB. -/
theorem test_witness_InstrumentWritesFollowTheLayout : ∃ s1, mirrored = flipped.rom.fields ∧
    (0xC0 : Byte) = 0xC0 + BitVec.ofNat 8 (ch 0).val ∧
    s1 = flipped.writes ((0x01, fieldReplaced mirrored.wse (flipped.reg 0x01) 1) ::
      (operatorWritesIn mirrored flipped.rom.opoff[(0 : Fin 2)][ch 0] flipped.ib.op0 0x8000 ++
        operatorWritesIn mirrored flipped.rom.opoff[(1 : Fin 2)][ch 0] flipped.ib.op1 0x8000)) ∧
    exec (.instSet 0 0x8000) flipped = .next (s1.wr 0xC0 0xDB) ∧
    s1.tx.take 3 = [.write 0x01 0x21, .write 0x20 0x37, .write 0x40 0x69] ∧
    flipped.ib.type = .melodic ∧ ({ flipped with ib := snr } : State).ib.type =
      [InstType.bass, .snare, .tom, .cymbal, .hiHat].get 1 ∧
    (0xC7 : Byte) = 0xC0 + BitVec.ofNat 8 flipped.rom.drumch[(1 : Fin 5)].val ∧
    ∃ t, exec (.instSetDrum 0x8000) { flipped with ib := snr } = .next t ∧ t.tx.length = 7 :=
  ⟨_, rfl, by decide, rfl, rfl, by decide, rfl, rfl, by decide, _, rfl, by decide⟩
theorem test_witness_InstrumentsReadBackWhatWasWritten : warm.rom = romDefault ∧
    (∃ t, exec (.instSet 3 0x8000) { warm with ib := bas } = .next t ∧
      ∃ u, exec (.instGet 3) t = .next u ∧ u.ib = { bas with type := .melodic }) ∧
    ∃ t, exec (.instSet 3 0) warm = .next t ∧ ∃ u, exec (.getlvl 3 1) t = .next u ∧ u.res = 63 :=
  ⟨by decide, ⟨_, rfl, _, rfl, by decide⟩, _, rfl, _, rfl, by decide⟩
theorem test_witness_PlaynoteIsThreeWrites : warm.rom.fields = fieldMapDefault ∧
    (0xB8 : Byte) = 0xB0 + BitVec.ofNat 8 (ch 20).val ∧ (0xA8 : Byte) = 0xA0 + BitVec.ofNat 8 (ch 20).val ∧
    0x287 = warm.rom.notef[note 14].toNat ∧ 7 = min (9 : Byte).toNat 7 ∧
    exec (.playnote 20 9 14) warm = .next (warm.writes [(0xB8, 0x00), (0xA8, 0x87), (0xB8, 0x3E)]) :=
  ⟨by decide, by decide, by decide, by decide, by decide, rfl⟩
theorem test_witness_PlaydrumIsFourWrites : warm.rom.fields = fieldMapDefault ∧ ∃ s1 s2 s3,
    (0xB7 : Byte) = 0xB0 + BitVec.ofNat 8 warm.rom.drumch[drum 1].val ∧
    (0xA7 : Byte) = 0xA0 + BitVec.ofNat 8 warm.rom.drumch[drum 1].val ∧ 0x1B0 = warm.rom.notef[note 4].toNat ∧
    3 = min (3 : Byte).toNat 7 ∧ s1 = warm.wr 0xBD (warm.reg 0xBD &&& ~~~warm.rom.drumbit[drum 1]) ∧
    s2 = s1.wr 0xA7 (BitVec.ofNat 8 (0x1B0 % 256)) ∧
    s3 = s2.wr 0xB7 ((s2.reg 0xB7 &&& 0xE0) ||| BitVec.ofNat 8 (3 * 4 + 0x1B0 / 256)) ∧
    exec (.playdrum 1 3 4) warm = .next (s3.wr 0xBD 0x3F) :=
  ⟨by decide, _, _, _, by decide, by decide, by decide, by decide, rfl, rfl, rfl, rfl⟩
/-- SETDRUMS5's mask stands in the register as DRUMBIT gives it: 0x03 with 0x15. PLAYDRUM 1 on empty channel 7: the F-number
0x1B0 at bits 10:1 of the pair is 0x0360, block 3 at bits 7:5 makes the high register 0x63. -/
theorem test_witness_DrumsAndPlaybackFollowTheLayout : ∃ s1, ⟨2, 5⟩ = flipped.rom.fields.drums ∧
    (0x03 : Byte) = flipped.reg 0xBD &&& ~~~(BitVec.ofNat 8 (2 ^ 5 - 1) <<< 2) ∧
    exec (.setdrums5 0x80 0 0x40 0 0xFF) flipped =
      .next { (flipped.wr 0xBD 0x03).wr 0xBD 0x17 with res := 0x00BD } ∧
    mirrored = flipped.rom.fields ∧ (0xB0 : Byte) = 0xB0 + BitVec.ofNat 8 (ch 0).val ∧
    (0xA0 : Byte) = 0xA0 + BitVec.ofNat 8 (ch 0).val ∧
    (0x22 : Byte) = flipped.reg 0xB0 &&& ~~~(BitVec.ofNat 8 (2 ^ mirrored.key.w - 1) <<< mirrored.key.sh) ∧
    (0x2483 : Half) = pairReplaced mirrored.fnum ((0x22 : Byte) ++ flipped.reg 0xA0) (flipped.rom.notef[note 9].setWidth 16) ∧
    (0xB7 : Byte) = 0xB0 + BitVec.ofNat 8 flipped.rom.drumch[drum 1].val ∧
    (0xA7 : Byte) = 0xA0 + BitVec.ofNat 8 flipped.rom.drumch[drum 1].val ∧
    (0x0360 : Half) = pairReplaced mirrored.fnum (flipped.reg 0xB7 ++ flipped.reg 0xA7)
      (flipped.rom.notef[note 4].setWidth 16) ∧
    s1 = flipped.writes [(0xBD, 0x37), (0xA7, 0x60), (0xB7, 0x63)] ∧
    exec (.playdrum 1 3 4) flipped = .next (s1.wr 0xBD 0x3F) :=
  ⟨_, rfl, by decide, rfl, rfl, by decide, by decide, by decide, by decide, by decide, by decide, by decide, rfl, rfl⟩
theorem test_witness_VoicesAreKeyedOffBeforeTheirPitch : warm.rom.fields = fieldMapDefault ∧ warm.rom = romDefault ∧
    (0xB0 : Byte) = 0xB0 + BitVec.ofNat 8 (ch 0).val ∧ (∃ t, exec (.playnote 0 4 9) warm = .next t) ∧
    (0xB7 : Byte) = 0xB0 + BitVec.ofNat 8 warm.rom.drumch[drum 4].val ∧ ∃ t, exec (.playdrum 4 7 11) warm = .next t :=
  ⟨by decide, by decide, by decide, ⟨_, rfl⟩, by decide, _, rfl⟩
theorem test_witness_TransactionCounts : warm.rom = romDefault ∧ (∃ t, exec .reset warm = .next t) ∧
    Instr.playnote 0 4 9 ≠ .reset ∧ ∃ t, exec (.playnote 0 4 9) warm = .next t ∧ countWrites t.tx = 3 :=
  ⟨by decide, ⟨_, rfl⟩, by decide, _, rfl, by decide⟩
theorem test_witness_ReadCommandsWriteNothing : (Instr.getlvl 0 0).emitsNothing = true ∧
    ∃ t, exec (.getlvl 0 0) warm = .next t ∧ t.res = 0x1A := ⟨rfl, _, rfl, by decide⟩
theorem test_witness_CommandsChangeOnlyWhatTheirRulesName : ∃ t, exec (.setlvl 0 0 0) warm = .next t ∧
    (0x41 : Byte) ∉ (Instr.setlvl 0 0 0).addrs warm ∧ (Instr.setlvl 0 0 0).writesIB = false ∧
    (Instr.playnote 0 4 9).writesRes = false ∧ ∃ t, exec (.playnote 0 4 9) warm = .next t :=
  ⟨_, rfl, by decide, rfl, rfl, _, rfl⟩
theorem test_witness_BitsOfNoFieldArePreserved : warm.rom = romDefault ∧ (∃ t, exec (.setsyn 0 1) warm = .next t) ∧
    (∀ a b, Instr.setsyn 0 1 ≠ .setreg a b) ∧ (∀ a v, Instr.setsyn 0 1 ≠ .instSet a v) ∧
    (∀ v, Instr.setsyn 0 1 ≠ .instSetDrum v) ∧ Instr.setsyn 0 1 ≠ .reset ∧ noFieldBits 0xC0 = 0xF0 ∧
    (∃ t, exec (.instSet 0 0) warm = .next t) ∧
    noFieldBits 0xDF = 0xFF ∧ noFieldBits 0xE6 = 0xFF ∧ noFieldBits 0xFF = 0xFF ∧ noFieldBits 0xE0 = 0xFC ∧
    ∃ t, exec (.instSetDrum 0) { warm with ib := bas } = .next t :=
  ⟨by decide, ⟨_, rfl⟩, by simp, by simp, by simp, by simp, by decide, ⟨_, rfl⟩,
    by decide, by decide, by decide, by decide, _, rfl⟩
theorem test_witness_OutputIsOnlyAppendedTo : ∃ t, step (warm.deliver 0x6000040900000000) = .next t ∧ t.tx.length = 3 :=
  ⟨_, rfl, by decide⟩
theorem test_witness_StepKeepsTheShadowFaithful : (small [] mel).Faithful ∧
    ∃ t, step ((small [] mel).deliver 0x6000040900000000) = .next t ∧ t.reg 0xB0 = 0x32 :=
  ⟨fun _ => rfl, _, rfl, by decide⟩
theorem test_witness_BankIsTheFoldOfTheWrites : ∃ t,
    Sys2Proof.core.run 1 { State.powerOn [(0x20, 0x55)] mel 0x1234 with inbox := [.command 0x0100000000000000] } = .next t ∧
    t.init = true := ⟨_, rfl, by decide⟩
theorem test_witness_StepKeepsMemoriesCanonical : warm.MemWf ∧ ∃ t, step (warm.deliver 0x02BD000000000000) = .next t ∧ t.MemWf :=
  ⟨by decide, _, rfl, by decide⟩
theorem test_witness_TablesAreConstantAndInitStays : (∃ t, step (cold.deliver 0x0100000000000000) = .next t ∧ t.init = true) ∧
    cold.init = false ∧ warm.init = true ∧ ∃ t, step (warm.deliver 0x4600000000000000) = .next t :=
  ⟨⟨_, rfl, by decide⟩, rfl, rfl, _, rfl⟩
theorem test_witness_OnlyInstLoadReadsTheBlobs : (∀ sp base, Instr.instSet 0 0 ≠ .instLoad sp base) ∧
    ∃ t, exec (.instSet 0 0) warm = .next t := ⟨by simp, _, rfl⟩
theorem test_witness_ResAndOutputAreNeverRead : (∃ t, exec (.getlvl 0 0) warm = .next t) ∧
    (Instr.getlvl 0 0).writesRes = true ∧ (∃ t, exec (.setreg 0 0) warm = .next t) ∧ (Instr.setreg 0 0).writesRes = false :=
  ⟨⟨_, rfl⟩, rfl, ⟨_, rfl⟩, rfl⟩

end Sys2Proof.Tests
end

section
/-! Operand conversions at the command interface (00_scope.md R12). -/
namespace Sys2Proof.Machine

/-! Clamped operands and booleans. -/

/-- The index form of the clamp is the clamp of R10 on integers. -/
theorem clampFin_val (n : Nat) (a : Byte) : ((clampFin n a).val : Int) = min (max (a.toNat : Int) 0) n := by
  simp [clampFin]

/-- Three bits hold every value clamped to 0..7. -/
theorem toNat_ofNat_clampFin_seven (a : Byte) : (BitVec.ofNat 3 (clampFin 7 a).val).toNat = (clampFin 7 a).val := by
  rw [BitVec.toNat_ofNat, Nat.mod_eq_of_lt (clampFin 7 a).isLt]

theorem oct_toNat (a : Byte) : ((oct a).toNat : Int) = min (max (a.toNat : Int) 0) 7 := by
  rw [oct, toNat_ofNat_clampFin_seven, clampFin_val]; rfl

theorem blk_toNat (a : Byte) : ((blk a).toNat : Int) = min (max (a.toNat : Int) 0) 7 := oct_toNat a

theorem boolOf_toNat (a : Byte) : (boolOf a).toNat = if a.toNat ≠ 0 then 1 else 0 := by
  by_cases h : a = 0
  · subst h; rfl
  · have h0 : a.toNat ≠ 0 := fun e => h (BitVec.eq_of_toNat_eq e)
    rw [boolOf, if_neg h, if_pos h0]; rfl

/-- Extending an F-number operand to 32 bits keeps its signed value, and ten bits hold every value clamped to 0..1023. -/
theorem fn_toNat (f : Half) : ((fn f).toNat : Int) = min (max f.toInt 0) 1023 := by
  rw [fn, BitVec.toInt_signExtend_of_le (by decide), clamp, BitVec.toNat_ofInt]
  omega

/-! Masked operands. -/

/-- The operand reduced to the width of a field is the operand under the field's mask. -/
theorem BitRange.ofNat_mod_two_pow (f : BitRange) (c : Byte) : BitVec.ofNat 8 (c.toNat % 2 ^ f.w) = c &&& f.max := by
  apply BitVec.eq_of_getLsbD_eq
  intro i hi
  rw [BitVec.getLsbD_ofNat, Nat.testBit_mod_two_pow, BitVec.getLsbD_and, BitRange.max_bit]
  simp [hi, BitVec.getLsbD, Bool.and_comm]

theorem BitRange.and_max_and_max (f : BitRange) (c : Byte) : c &&& f.max &&& f.max = c &&& f.max := by
  rw [BitVec.and_assoc, BitVec.and_self]

theorem BitRange.input_masked (f : BitRange) (c : Byte) (h : f.w ≠ 1) : f.input (c &&& f.max) = f.input c := by
  simp only [BitRange.input, if_neg h, BitRange.and_max_and_max]

theorem BitRange.place_and_max (f : BitRange) (c : Byte) : f.place (c &&& f.max) = f.place c := by
  simp only [BitRange.place, BitRange.and_max_and_max]

/-- Commands with the same effect complete with the same state: which command it is shows only in the fault. -/
theorem afterReset_next_congr {i j : Instr} {s t t' u : State} (h : t' = t) (hi : afterReset i s t = .next u) :
    afterReset j s t' = .next u := by
  rw [afterReset_next] at hi ⊢
  exact h ▸ hi

/-- A multi-bit operator field's setter sees only the operand bits within the field's width. -/
theorem exec_setter_masked (f : OpField) (a b c : Byte) (s t : State) (hw : (f.range s.rom.fields).w ≠ 1)
    (h : exec (f.setter a b c) s = .next t) :
    exec (f.setter a b (c &&& (f.range s.rom.fields).max)) s = .next t := by
  rw [exec_setter] at h ⊢
  exact afterReset_next_congr (by rw [setOperatorField, setOperatorField, BitRange.input_masked _ _ hw]) h

theorem exec_setfb_masked (a b : Byte) (s t : State) (h : exec (.setfb a b) s = .next t) :
    exec (.setfb a (b &&& s.rom.fields.fb.max)) s = .next t :=
  afterReset_next_congr (by rw [BitRange.and_max_and_max]) h

theorem exec_setdrums_masked (a : Byte) (s t : State) (h : exec (.setdrums a) s = .next t) :
    exec (.setdrums (a &&& s.rom.fields.drums.max)) s = .next t :=
  afterReset_next_congr (by rw [BitRange.place_and_max]) h

/-- Settles O7: the clamps and the boolean by value; a masked operand is masked once more by its command, which changes
nothing. -/
theorem operandsClampAndMask : Obligations.OperandsClampAndMask := by
  refine ⟨fun a => ⟨?_, ?_, ?_, ?_, ?_, ?_, ?_⟩, fn_toNat, ?_, fun a b s t => ⟨fun h => ?_, fun h => ?_⟩⟩
  · exact clampFin_val 8 a
  · exact clampFin_val 1 a
  · exact clampFin_val 4 a
  · exact clampFin_val 11 a
  · exact oct_toNat a
  · exact blk_toNat a
  · exact boolOf_toNat a
  · intro f a b c s t w hw hne h
    subst hw
    rw [BitRange.ofNat_mod_two_pow]
    exact exec_setter_masked f a b c s t hne h
  · rw [BitRange.ofNat_mod_two_pow]
    exact exec_setfb_masked a b s t h
  · rw [BitRange.ofNat_mod_two_pow]
    exact exec_setdrums_masked a s t h

end Sys2Proof.Machine
end

section
/-! What every step keeps (10_state.md R21, R42, R43; 20_memory.md R60, R62): the cases of a step, taken one by one. -/
namespace Sys2Proof.Machine

/-! RESET and the shadow. -/

/-- Zeros written to a list of registers leave 0 as the last value of each of them. -/
theorem lastWrite_zeros (addrs : List Byte) (r : Byte) :
    lastWrite (addrs.map fun q => .write q 0) r = if r ∈ addrs then some 0 else none := by
  induction addrs with
  | nil => rfl
  | cons q addrs ih =>
    rw [List.map_cons, lastWrite, ih]
    by_cases h : r ∈ addrs
    · simp [h]
    · simp [h, eq_comm]

@[simp] theorem lastWrite_resetEvents (r : Byte) : lastWrite resetEvents r = some 0 := by
  rw [resetEvents, lastWrite, lastWrite_zeros, if_pos (mem_regAddrs r)]

/-- RESET makes the bank a faithful shadow, whatever it was before. -/
theorem resetBlock_faithful (s : State) : (resetBlock s).Faithful := by
  intro r
  obtain ⟨-, -, -, htx, -⟩ := resetBlock_fields s
  rw [resetBlock_reg, htx, lastWrite_append, lastWrite_resetEvents]
  rfl

/-- The shadow invariant speaks of INIT, the bank and TX alone. -/
theorem State.ShadowInv.congr {s t : State} (hinit : t.init = s.init) (hrb : t.rb = s.rb) (htx : t.tx = s.tx)
    (h : s.ShadowInv) : t.ShadowInv := by
  intro hi r
  have hreg : t.reg r = s.reg r := by rw [State.reg, State.reg, hrb]
  rw [hreg, htx]
  exact h (hinit ▸ hi) r

/-- Settles O54: RESET makes the bank faithful, every other command writes through `Wr`, and the other steps touch neither
the bank nor TX. -/
theorem stepKeepsTheShadowFaithful : Obligations.StepKeepsTheShadowFaithful := by
  intro s t hs h
  obtain ⟨u, w, rest, -, rfl, ⟨-, rfl⟩ | ⟨hi, hsh⟩⟩ | ⟨v, rest, rfl⟩ | ⟨sp, a, v, rest, rfl⟩ | rfl := step_next_cases h
  · exact fun _ => resetBlock_faithful _
  · exact fun _ => hsh.faithful (hs hi)
  · exact hs.congr rfl rfl rfl
  · exact hs.congr (State.setBlobByte_init _ _ _ _) (State.setBlobByte_rb _ _ _ _) (State.setBlobByte_tx _ _ _ _)
  · exact hs

/-! The canonical memories. -/

/-- The platform's change of a blob byte keeps every memory canonical. -/
theorem State.setBlobByte_memWf (s : State) (sp : BitVec 1) (a : Wide) (v : Byte) (h : s.MemWf) :
    (s.setBlobByte sp a v).MemWf := by
  obtain ⟨hrb, h0, h1⟩ := h
  unfold State.setBlobByte
  split
  · exact ⟨hrb, Memory.write_wf _ _ _ _ _ a.isLt h0, h1⟩
  · exact ⟨hrb, h0, Memory.write_wf _ _ _ _ _ a.isLt h1⟩

/-- Settles O57: every change of a memory is a `Memory.write` within its size. -/
theorem stepKeepsMemoriesCanonical : Obligations.StepKeepsMemoriesCanonical := by
  intro s t hs h
  obtain ⟨u, w, rest, -, rfl, ⟨-, rfl⟩ | ⟨-, hsh⟩⟩ | ⟨v, rest, rfl⟩ | ⟨sp, a, v, rest, rfl⟩ | rfl := step_next_cases h
  · exact resetBlock_memWf _ hs
  · exact hsh.memWf hs
  · exact hs
  · exact State.setBlobByte_memWf _ sp a v hs
  · exact hs

/-! TX, the tables and INIT. -/

/-- Settles O53: RESET appends its pulse and zeros, another command its writes, the other steps nothing. -/
theorem outputIsOnlyAppendedTo : Obligations.OutputIsOnlyAppendedTo := by
  intro s t h
  obtain ⟨u, w, rest, -, rfl, ⟨-, rfl⟩ | ⟨-, hsh⟩⟩ | ⟨v, rest, rfl⟩ | ⟨sp, a, v, rest, rfl⟩ | rfl := step_next_cases h
  · obtain ⟨-, -, -, htx, -⟩ := resetBlock_fields { s with inbox := rest }
    exact ⟨_, htx⟩
  · obtain ⟨ws, htx, -⟩ := hsh.fields
    exact ⟨_, htx⟩
  · exact ⟨[], (List.append_nil _).symm⟩
  · exact ⟨[], by simp⟩
  · exact ⟨[], (List.append_nil _).symm⟩

/-- Settles O58: no operation writes the tables, and INIT is set by RESET's effect alone. -/
theorem tablesAreConstantAndInitStays : Obligations.TablesAreConstantAndInitStays := by
  intro s t h
  obtain ⟨u, w, rest, hw, rfl, ⟨hd, rfl⟩ | ⟨hi, hsh⟩⟩ | ⟨v, rest, rfl⟩ | ⟨sp, a, v, rest, rfl⟩ | rfl := step_next_cases h
  · obtain ⟨-, -, hinit, -, hrom, -⟩ := resetBlock_fields { s with inbox := rest }
    exact ⟨hrom, fun _ => hinit, fun _ _ => ⟨w, rest, hw, hd⟩⟩
  · obtain ⟨ws, -, -, hinit, hrom, -⟩ := hsh.fields
    exact ⟨hrom, fun _ => hinit.trans hi, fun h0 => absurd hi (by simp [h0])⟩
  · exact ⟨rfl, id, fun h0 h1 => absurd h1 (by simp [h0])⟩
  · exact ⟨by simp, by simp, fun h0 h1 => absurd h1 (by simp [h0])⟩
  · exact ⟨rfl, id, fun h0 h1 => absurd h1 (by simp [h0])⟩

end Sys2Proof.Machine
end

section
/-! RESET from power-on (10_state.md R47; 40_register_store.md R102), and the steps without a command (10_state.md R46;
20_memory.md R62; 60_exceptions.md R314). -/
namespace Sys2Proof.Machine

/-- A canonical bank in which every register is 0 lists nothing. -/
theorem State.rb_eq_nil {s : State} (hwf : Memory.wf rbUnlisted nreg s.rb) (h : ∀ r, s.reg r = 0) : s.rb = [] := by
  refine List.eq_nil_iff_forall_not_mem.2 fun c hc => ?_
  obtain ⟨hlt, hne⟩ := hwf.2 c hc
  have hreg := h (BitVec.ofNat 8 c.1)
  rw [State.reg, BitVec.toNat_ofNat, Nat.mod_eq_of_lt (show c.1 < 2 ^ 8 from hlt), Memory.find_eq_some_of_mem _ hwf.1 c hc] at hreg
  exact hne (congrArg some hreg)

theorem Memory.wf_nil (o : Option Byte) (size : Nat) : Memory.wf o size [] := ⟨.nil, by simp⟩

/-- RESET from any canonical power-on contents: the bank it leaves lists nothing, and every other field is RESET's. -/
theorem resetBlock_powerOn (rb : Memory) (ib : Instrument) (res : Half) (h : Memory.wf rbUnlisted nreg rb) :
    resetBlock (State.powerOn rb ib res) = State.reset := by
  have hwf := resetBlock_memWf (State.powerOn rb ib res) ⟨h, Memory.wf_nil _ _, Memory.wf_nil _ _⟩
  obtain ⟨hib, hres, hinit, htx, hrom, h0, h1, hin⟩ := resetBlock_fields (State.powerOn rb ib res)
  exact State.ext_fields _ _ (State.rb_eq_nil hwf.1 (resetBlock_reg _)) hib hres hinit htx hrom h0 h1 hin

/-- Settles O16: RESET's effect from power-on, and the fields of `State.reset` read off. -/
theorem resetFromPowerOnGivesStateReset : Obligations.ResetFromPowerOnGivesStateReset := by
  refine ⟨fun rb ib res h => ⟨rfl, rfl, ?_⟩, fun r => rfl, rfl, rfl, rfl, ?_⟩
  · exact congrArg Host.Outcome.next (resetBlock_powerOn rb ib res h)
  · show resetEvents = _
    rw [resetEvents, regAddrs, List.map_map]
    rfl

/-- Settles O55: `State.reset` is what RESET leaves from power-on, so RESET's laws hold of it; at power-on INIT is 0. -/
theorem resetStateMeetsTheInvariants : Obligations.ResetStateMeetsTheInvariants := by
  have hf : State.reset.Faithful :=
    resetBlock_powerOn [] emptyInstrument 0 (Memory.wf_nil _ _) ▸ resetBlock_faithful _
  exact ⟨fun _ => hf, hf, ⟨Memory.wf_nil _ _, Memory.wf_nil _ _, Memory.wf_nil _ _⟩, fun _ _ _ h0 => nomatch h0⟩

/-! BlobRead after the platform's change of a blob byte. -/

/-- The changed space is the old one with the byte written, the other space as it was. -/
theorem State.blob_setBlobByte (s : State) (sp sp' : BitVec 1) (a : Wide) (v : Byte) :
    (s.setBlobByte sp a v).blob sp' =
      if sp' = sp then Memory.write blobUnlisted (s.blob sp') a.toNat v else s.blob sp' := by
  have hbit : ∀ x : BitVec 1, x = 0#1 ∨ x = 1#1 := by decide
  rcases hbit sp with rfl | rfl <;> rcases hbit sp' with rfl | rfl <;> simp [State.blob]

@[simp] theorem State.blobRead_setBlobByte_self (s : State) (sp : BitVec 1) (a : Wide) (v : Byte) :
    (s.setBlobByte sp a v).blobRead sp a = v := by
  simp [State.blobRead, State.blob_setBlobByte, blobUnlisted, Memory.find_write_self_none]

theorem State.blobRead_setBlobByte_other (s : State) (sp sp' : BitVec 1) (a a' : Wide) (v : Byte)
    (h : (sp', a') ≠ (sp, a)) : (s.setBlobByte sp a v).blobRead sp' a' = s.blobRead sp' a' := by
  rw [State.blobRead, State.blob_setBlobByte]
  split
  · rename_i hsp
    have ha : a'.toNat ≠ a.toNat := fun e => h (by rw [hsp, BitVec.eq_of_toNat_eq e])
    rw [Memory.find_write_other _ _ _ _ _ ha, State.blobRead]
  · rfl

/-- Settles O9: the three steps that take no command word. -/
theorem stepsWithoutACommand : Obligations.StepsWithoutACommand := by
  refine ⟨fun s h => ?_, fun s v rest h => ?_, fun s sp a v rest h => ?_⟩
  · simp only [step, State.takeInput, h]
  · simp only [step, State.takeInput, h, State.setIB]
  · refine ⟨{ s with inbox := rest }.setBlobByte sp a v, by simp only [step, State.takeInput, h], by simp, ?_, by simp⟩
    exact fun sp' a' hne => State.blobRead_setBlobByte_other _ sp sp' a a' v hne

end Sys2Proof.Machine
end

section
/-! Every command but RESET as a list of register updates, then RES and IB. What a command may change, what it may read
and which bits it keeps are properties of its list. -/
namespace Sys2Proof.Machine

/-! Updates of registers. -/

/-- A read-modify-write of one register: its address, and the new value by the old one. -/
abbrev Update := Byte × (Byte → Byte)

/-- One update: one `Wr`. -/
def State.update (s : State) (u : Update) : State := s.wr u.1 (u.2 (s.reg u.1))

/-- Updates performed in order. -/
def State.updates (s : State) (us : List Update) : State := us.foldl State.update s

theorem State.updates_append (s : State) (us vs : List Update) :
    s.updates (us ++ vs) = (s.updates us).updates vs := by
  simp [State.updates]

/-- Updates are writes of the same registers, the same ones from every state with the same bank. -/
theorem State.updates_eq_writes (s : State) (us : List Update) :
    ∃ ws : List (Byte × Byte), ws.map Prod.fst = us.map Prod.fst ∧ ∀ t : State, t.rb = s.rb → t.updates us = t.writes ws := by
  induction us generalizing s with
  | nil => exact ⟨[], rfl, fun _ _ => rfl⟩
  | cons u us ih =>
    obtain ⟨ws, haddrs, hws⟩ := ih (s.update u)
    refine ⟨(u.1, u.2 (s.reg u.1)) :: ws, by simp [haddrs], fun t ht => ?_⟩
    have hreg : t.reg u.1 = s.reg u.1 := by rw [State.reg, ht, State.reg]
    have hu : t.update u = t.wr u.1 (u.2 (s.reg u.1)) := by rw [State.update, hreg]
    show (t.update u).updates us = (t.wr u.1 (u.2 (s.reg u.1))).writes ws
    rw [hws _ (by rw [hu, State.update, State.wr_rb, State.wr_rb, ht]), hu]

/-- What updates leave in every field but the bank and TX. -/
theorem State.updates_fields (s : State) (us : List Update) :
    (s.updates us).ib = s.ib ∧ (s.updates us).res = s.res ∧ (s.updates us).init = s.init ∧ (s.updates us).rom = s.rom ∧
    (s.updates us).blob0 = s.blob0 ∧ (s.updates us).blob1 = s.blob1 ∧ (s.updates us).inbox = s.inbox := by
  obtain ⟨ws, -, h⟩ := s.updates_eq_writes us
  rw [h s rfl]
  simp [State.writes_fields]

/-- A register no update names is as it was. -/
theorem State.reg_updates_other (s : State) (us : List Update) (q : Byte) (h : ∀ u ∈ us, u.1 ≠ q) :
    (s.updates us).reg q = s.reg q := by
  obtain ⟨ws, haddrs, hws⟩ := s.updates_eq_writes us
  rw [hws s rfl]
  refine State.reg_writes_other s ws q fun p hp e => ?_
  obtain ⟨u, hu, hup⟩ := List.mem_map.1 (haddrs ▸ List.mem_map_of_mem hp)
  exact h u hu (hup.trans e)

/-- RES and IB at the end of a command, where its rule writes them. -/
def State.finish (s : State) (r : Option Half) (ib : Option Instrument) : State :=
  { s with res := r.getD s.res, ib := ib.getD s.ib }

@[simp] theorem State.reg_finish (s : State) (r : Option Half) (ib : Option Instrument) (q : Byte) :
    (s.finish r ib).reg q = s.reg q := rfl

@[simp] theorem State.finish_none (s : State) : s.finish none none = s := rfl

/-! The updates of each command. -/

/-- The update that replaces a field (10_state.md R39). -/
def BitRange.update (f : BitRange) (addr x : Byte) : Update := (addr, fun v => f.put v x)

/-- The update of an operator field's setter (42_operator_fields.md R150). -/
def operatorUpdate (s : State) (base : Byte) (f : BitRange) (a b c : Byte) : Update :=
  f.update (s.opAddr base (ch a) (op b)) (f.input c)

/-- The two updates of 0xBD of SETDRUMS and SETDRUMS5 (44_global_fields.md R236). -/
def drumsUpdates (f : BitRange) (m : Byte) : List Update := [(0xBD, f.clear), (0xBD, fun v => f.clear v ||| m)]

/-- The five whole-register writes of an operator (45_instrument_codec.md R255). -/
def opUpdates (m : FieldMap) (o : Byte) (x : Operator) (v : Half) : List Update :=
  [(0x20 + o, fun _ => img20 m x), (0x40 + o, fun _ => img40 m x (scale x.lvl v)), (0x60 + o, fun _ => img60 m x),
    (0x80 + o, fun _ => img80 m x), (0xE0 + o, fun _ => imgE0 m x)]

/-- The same for operator `p` of drum `d`: none where the drum does not use it (R263). -/
def drumOpUpdates (s : State) (p : Fin 2) (d : Fin 5) (v : Half) : List Update :=
  if s.rom.drumoff[p][d] = 0xFF then [] else opUpdates s.rom.fields s.rom.drumoff[p][d] (s.ib.op p) v

/-- Waveform-select enable set, the updates of the operators, then feedback and synthesis mode of channel `c` replaced: the
frame INST_SET and INST_SET_DRUM share (R261, R263). -/
def instUpdates (m : FieldMap) (c : Fin 9) (fb : BitVec 3) (add : BitVec 1) (ops : List Update) : List Update :=
  m.wse.update 0x01 1 :: (ops ++ [(chAddr 0xC0 c, fun v => putFeedback m v fb add)])

/-- The updates of INST_SET_DRUM: none for a melodic IB (R263). -/
def drumUpdates (s : State) (v : Half) : List Update :=
  match drumIndex s.ib.type with
  | none => []
  | some d => instUpdates s.rom.fields s.rom.drumch[d] 0 0 (drumOpUpdates s 0 d v ++ drumOpUpdates s 1 d v)

end Sys2Proof.Machine

namespace Sys2Proof
open Machine

/-- The register updates of a command other than RESET, by the tables and IB. -/
def Instr.updates (i : Instr) (s : State) : List Update :=
  match i with
  | .setreg a b => [(a, fun _ => b)]
  | .settrem a b c => [operatorUpdate s 0x20 s.rom.fields.trem a b c]
  | .setvib a b c => [operatorUpdate s 0x20 s.rom.fields.vib a b c]
  | .setsush a b c => [operatorUpdate s 0x20 s.rom.fields.sush a b c]
  | .setksr a b c => [operatorUpdate s 0x20 s.rom.fields.ksr a b c]
  | .setmult a b c => [operatorUpdate s 0x20 s.rom.fields.mult a b c]
  | .setksl a b c => [operatorUpdate s 0x40 s.rom.fields.ksl a b c]
  | .setlvl a b c => [operatorUpdate s 0x40 s.rom.fields.lvl a b c]
  | .setatk a b c => [operatorUpdate s 0x60 s.rom.fields.atk a b c]
  | .setdec a b c => [operatorUpdate s 0x60 s.rom.fields.dec a b c]
  | .setsusl a b c => [operatorUpdate s 0x80 s.rom.fields.susl a b c]
  | .setrel a b c => [operatorUpdate s 0x80 s.rom.fields.rel a b c]
  | .setwave a b c => [operatorUpdate s 0xE0 s.rom.fields.wave a b c]
  | .setfnum a f => [(chAddr 0xA0 (ch a), fun v => s.rom.fields.fnum.putLow v (fn f)),
      (chAddr 0xB0 (ch a), fun v => s.rom.fields.fnum.putHigh v (fn f))]
  | .setblk a b => [s.rom.fields.blk.update (chAddr 0xB0 (ch a)) ((blk b).setWidth 8)]
  | .setkey a b => [s.rom.fields.key.update (chAddr 0xB0 (ch a)) ((boolOf b).setWidth 8)]
  | .setfb a b => [s.rom.fields.fb.update (chAddr 0xC0 (ch a)) (b &&& s.rom.fields.fb.max)]
  | .setsyn a b => [s.rom.fields.syn.update (chAddr 0xC0 (ch a)) ((boolOf b).setWidth 8)]
  | .setwse a => [s.rom.fields.wse.update 0x01 ((boolOf a).setWidth 8)]
  | .setperc a => [s.rom.fields.perc.update 0xBD ((boolOf a).setWidth 8)]
  | .setdrums a => drumsUpdates s.rom.fields.drums (s.rom.fields.drums.place a)
  | .setdrums5 bass snare tom cymbal hihat => drumsUpdates s.rom.fields.drums (drumsMask s bass snare tom cymbal hihat)
  | .instSet a v => instUpdates s.rom.fields (ch a) s.ib.fb s.ib.add
      (opUpdates s.rom.fields s.rom.opoff[(0 : Fin 2)][ch a] s.ib.op0 v ++
        opUpdates s.rom.fields s.rom.opoff[(1 : Fin 2)][ch a] s.ib.op1 v)
  | .instSetDrum v => drumUpdates s v
  | .playnote a b c => [(chAddr 0xB0 (ch a), s.rom.fields.key.clear),
      (chAddr 0xA0 (ch a), fun v => s.rom.fields.fnum.putLow v s.rom.notef[note c]),
      (chAddr 0xB0 (ch a), fun v => s.rom.fields.key.put (putPitch s.rom.fields v (oct b) s.rom.notef[note c]) 1)]
  | .playdrum a b c => [(0xBD, fun v => v &&& ~~~s.rom.drumbit[drum a]),
      (chAddr 0xA0 s.rom.drumch[drum a], fun v => s.rom.fields.fnum.putLow v s.rom.notef[note c]),
      (chAddr 0xB0 s.rom.drumch[drum a], fun v => putPitch s.rom.fields v (oct b) s.rom.notef[note c]),
      (0xBD, fun v => v ||| s.rom.drumbit[drum a])]
  | _ => []

end Sys2Proof

namespace Sys2Proof.Machine

theorem writeOp_eq_updates (o : Byte) (x : Operator) (v : Half) (s : State) :
    writeOp o x v s = s.updates (opUpdates s.rom.fields o x v) := rfl

theorem writeDrumOp_eq_updates (p : Fin 2) (d : Fin 5) (v : Half) (s : State) :
    writeDrumOp p d v s = s.updates (drumOpUpdates s p d v) := by
  unfold writeDrumOp drumOpUpdates
  split
  · rfl
  · exact writeOp_eq_updates _ _ v s

/-- The drum's operators are IB's, which the writes before them leave alone. -/
theorem drumOpUpdates_congr {s t : State} (hrom : t.rom = s.rom) (hib : t.ib = s.ib) (p : Fin 2) (d : Fin 5) (v : Half) :
    drumOpUpdates t p d v = drumOpUpdates s p d v := by
  rw [drumOpUpdates, hrom, hib, drumOpUpdates]

theorem State.updates_instUpdates (s : State) (m : FieldMap) (c : Fin 9) (fb : BitVec 3) (add : BitVec 1)
    (ops : List Update) : s.updates (instUpdates m c fb add ops) =
      ((s.update (m.wse.update 0x01 1)).updates ops).update (chAddr 0xC0 c, fun v => putFeedback m v fb add) :=
  State.updates_append _ ops [_]

theorem writeChannel_eq_updates (c : Fin 9) (v : Half) (s : State) : writeChannel c v s =
    s.updates (instUpdates s.rom.fields c s.ib.fb s.ib.add (opUpdates s.rom.fields s.rom.opoff[(0 : Fin 2)][c] s.ib.op0 v ++
      opUpdates s.rom.fields s.rom.opoff[(1 : Fin 2)][c] s.ib.op1 v)) := by
  obtain ⟨-, -, -, hrom, -⟩ := (wseOn s).updates_fields
    (opUpdates s.rom.fields s.rom.opoff[(0 : Fin 2)][c] s.ib.op0 v)
  have hm : (wseOn s).rom = s.rom := rfl
  rw [writeChannel, writeOp_eq_updates, writeOp_eq_updates, hm, hrom, hm, ← State.updates_append,
    State.updates_instUpdates]
  rfl

theorem writeDrum_eq_updates (d : Fin 5) (v : Half) (s : State) : writeDrum d v s =
    s.updates (instUpdates s.rom.fields s.rom.drumch[d] 0 0 (drumOpUpdates s 0 d v ++ drumOpUpdates s 1 d v)) := by
  have h0 : writeDrumOp 0 d v (wseOn s) = (wseOn s).updates (drumOpUpdates s 0 d v) := writeDrumOp_eq_updates 0 d v _
  obtain ⟨hib, -, -, hrom, -⟩ := (wseOn s).updates_fields (drumOpUpdates s 0 d v)
  rw [writeDrum, h0, writeDrumOp_eq_updates, drumOpUpdates_congr (s := s) hrom hib, ← State.updates_append,
    State.updates_instUpdates]
  rfl

theorem setDrumInstrument_eq_updates (v : Half) (s : State) : setDrumInstrument v s = s.updates (drumUpdates s v) := by
  rcases h : drumIndex s.ib.type with _ | d
  · simp only [setDrumInstrument, drumUpdates, h]; rfl
  · simp only [setDrumInstrument, drumUpdates, h, writeDrum_eq_updates]

/-- Every command but RESET performs its updates and then writes RES and IB where its rule does. All of it is the same
whatever RES and TX held. -/
theorem exec_eq_updates {i : Instr} (hi : i ≠ .reset) (s : State) : ∃ r ib, r.isSome = i.writesRes ∧ ib.isSome = i.writesIB ∧
    exec i s = afterReset i s ((s.updates (i.updates s)).finish r ib) ∧
    ∀ x e, exec i { s with res := x, tx := e } = afterReset i { s with res := x, tx := e }
      ((State.updates { s with res := x, tx := e } (i.updates s)).finish r ib) := by
  cases i with
  | reset => exact absurd rfl hi
  | setreg | playnote | playdrum => exact ⟨none, none, rfl, rfl, rfl, fun _ _ => rfl⟩
  | instSet a v =>
    refine ⟨none, none, rfl, rfl, ?_, fun x e => ?_⟩
    · rw [State.finish_none]
      exact congrArg (afterReset _ _) (writeChannel_eq_updates (ch a) v s)
    · rw [State.finish_none]
      exact congrArg (afterReset _ _) (writeChannel_eq_updates (ch a) v { s with res := x, tx := e })
  | instSetDrum v =>
    refine ⟨none, none, rfl, rfl, ?_, fun x e => ?_⟩
    · rw [State.finish_none]
      exact congrArg (afterReset _ _) (setDrumInstrument_eq_updates v s)
    · rw [State.finish_none]
      exact congrArg (afterReset _ _) (setDrumInstrument_eq_updates v { s with res := x, tx := e })
  | instCreate | instLoad | instGet | instGetDrum => exact ⟨none, some _, rfl, rfl, rfl, fun _ _ => rfl⟩
  -- Every other command writes RES and leaves IB.
  | _ => exact ⟨some _, none, rfl, rfl, rfl, fun _ _ => rfl⟩

theorem exec_reset_next {s t : State} (h : exec .reset s = .next t) : t = resetBlock s :=
  (Host.Outcome.next.inj h).symm

/-- The next state of a command other than RESET. -/
theorem exec_next_updates {i : Instr} {s t : State} (hi : i ≠ .reset) (h : exec i s = .next t) :
    ∃ r ib, r.isSome = i.writesRes ∧ ib.isSome = i.writesIB ∧ t = (s.updates (i.updates s)).finish r ib := by
  obtain ⟨r, ib, hr, hib, hs, -⟩ := exec_eq_updates hi s
  rw [hs, afterReset_next] at h
  exact ⟨r, ib, hr, hib, h.2⟩

theorem drumOpUpdates_addrs (s : State) (p : Fin 2) (d : Fin 5) (v : Half) :
    (drumOpUpdates s p d v).map Prod.fst = drumOpRegs s.rom p d := by
  unfold drumOpUpdates drumOpRegs
  split <;> rfl

theorem drumUpdates_addrs (s : State) (v : Half) : (drumUpdates s v).map Prod.fst = drumRegs s.rom s.ib.type := by
  rcases h : drumIndex s.ib.type with _ | d
  · simp only [drumUpdates, drumRegs, h, List.map_nil]
  · simp [drumUpdates, drumRegs, h, instUpdates, drumOpUpdates_addrs, BitRange.update]

/-- A command updates the registers its rule names and no other. -/
theorem updates_addrs (i : Instr) (s : State) : (i.updates s).map Prod.fst ⊆ i.addrs s := by
  cases i with
  | reset => exact List.nil_subset _
  | setdrums | setdrums5 | playnote | playdrum => simp [Instr.updates, Instr.addrs, drumsUpdates]
  | instSetDrum v =>
    show (drumUpdates s v).map Prod.fst ⊆ drumRegs s.rom s.ib.type
    rw [drumUpdates_addrs]
    exact List.Subset.refl _
  | _ => exact List.Subset.refl _

/-- The blobs' answers are fixed by their two memories. -/
theorem State.blobRead_congr {s t : State} (h0 : t.blob0 = s.blob0) (h1 : t.blob1 = s.blob1) (sp : BitVec 1) (a : Wide) :
    t.blobRead sp a = s.blobRead sp a := by
  rw [State.blobRead, State.blobRead, State.blob, State.blob, h0, h1]

/-- Settles O51: RESET may change every register; another command changes those its updates name. -/
theorem commandsChangeOnlyWhatTheirRulesName : Obligations.CommandsChangeOnlyWhatTheirRulesName := by
  intro i s t h
  by_cases hi : i = .reset
  · subst hi
    obtain rfl := exec_reset_next h
    obtain ⟨-, -, hinit, -, hrom, h0, h1, hin⟩ := resetBlock_fields s
    exact ⟨fun q hq => absurd (mem_regAddrs q) hq, nofun, nofun, hrom, State.blobRead_congr h0 h1, hin, hinit⟩
  · have hs := exec_next_init hi h
    obtain ⟨r, ib, hr, hib, rfl⟩ := exec_next_updates hi h
    obtain ⟨hib', hres', hinit', hrom', h0', h1', hin'⟩ := s.updates_fields (i.updates s)
    refine ⟨fun q hq => ?_, fun hw => ?_, fun hw => ?_, hrom', State.blobRead_congr h0' h1', hin', hinit'.trans hs⟩
    · exact State.reg_updates_other s _ q fun u hu e => hq (e ▸ updates_addrs i s (List.mem_map_of_mem hu))
    · rw [hw, Option.isSome_eq_false_iff, Option.isNone_iff_eq_none] at hr
      rw [hr]; exact hres'
    · rw [hw, Option.isSome_eq_false_iff, Option.isNone_iff_eq_none] at hib
      rw [hib]; exact hib'

/-! RES and TX are not read. -/

theorem State.writes_res_tx (s : State) (x : Half) (e : List TxEvent) (ws : List (Byte × Byte)) :
    State.writes { s with res := x, tx := e } ws = { s.writes ws with res := x, tx := e ++ writeEvents ws } := by
  induction ws generalizing s e with
  | nil => simp [writeEvents]
  | cons p ws ih =>
    have h := ih (s.wr p.1 p.2) (e ++ [.write p.1 p.2])
    rw [List.append_assoc] at h
    exact h

/-- Updates do the same to everything else and emit the same events whatever RES and TX held. -/
theorem State.updates_res_tx (s : State) (x : Half) (e : List TxEvent) (us : List Update) :
    State.updates { s with res := x, tx := e } us =
      { s.updates us with res := x, tx := e ++ (s.updates us).tx.drop s.tx.length } := by
  obtain ⟨ws, -, h⟩ := s.updates_eq_writes us
  obtain ⟨-, -, -, htx, -⟩ := s.writes_fields ws
  rw [h s rfl, h { s with res := x, tx := e } rfl, State.writes_res_tx, htx, List.drop_left]

/-- The bank RESET leaves does not depend on RES and TX. -/
theorem resetBlock_rb_res_tx (s : State) (x : Half) (e : List TxEvent) :
    (resetBlock { s with res := x, tx := e }).rb = (resetBlock s).rb := by
  have h := congrArg State.rb
    (State.writes_res_tx s.resetPulse x (e ++ [.pulse]) (regAddrs.map fun r => (r, 0)))
  rw [← zeroRegs_eq_writes, ← zeroRegs_eq_writes] at h
  rw [resetBlock_eq, resetBlock_eq]
  generalize regAddrs = addrs at h ⊢
  exact h

/-- A state that differs from another in TX alone. -/
theorem State.eq_with_tx {s t : State} {es : List TxEvent} (htx : t.tx = es) (hrb : t.rb = s.rb) (hib : t.ib = s.ib)
    (hres : t.res = s.res) (hinit : t.init = s.init) (hrom : t.rom = s.rom) (h0 : t.blob0 = s.blob0)
    (h1 : t.blob1 = s.blob1) (hin : t.inbox = s.inbox) : t = { s with tx := es } :=
  State.ext_fields _ _ hrb hib hres hinit htx hrom h0 h1 hin

/-- RESET does the same to everything else and emits the same events whatever RES and TX held. -/
theorem resetBlock_res_tx (s : State) (x : Half) (e : List TxEvent) :
    resetBlock { s with res := x, tx := e } = { resetBlock s with tx := e ++ resetEvents } := by
  obtain ⟨hib, hres, hinit, -, hrom, h0, h1, hin⟩ := resetBlock_fields s
  obtain ⟨hib', hres', hinit', htx', hrom', h0', h1', hin'⟩ := resetBlock_fields { s with res := x, tx := e }
  exact State.eq_with_tx htx' (resetBlock_rb_res_tx s x e) (hib'.trans hib.symm) (hres'.trans hres.symm)
    (hinit'.trans hinit.symm) (hrom'.trans hrom.symm) (h0'.trans h0.symm) (h1'.trans h1.symm) (hin'.trans hin.symm)

/-- Settles O60: the updates, RES and IB of a command are those of the state with any other RES and TX. -/
theorem resAndOutputAreNeverRead : Obligations.ResAndOutputAreNeverRead := by
  intro i s t x e h
  by_cases hi : i = .reset
  · subst hi
    obtain rfl := exec_reset_next h
    obtain ⟨-, -, -, htx, -⟩ := resetBlock_fields s
    rw [htx, List.drop_left]
    exact congrArg Host.Outcome.next (resetBlock_res_tx s x e)
  · have hs := exec_next_init hi h
    obtain ⟨r, ib, hr, -, h1, h2⟩ := exec_eq_updates hi s
    obtain rfl := ((afterReset_next _ _ _ _).1 (h1 ▸ h)).2
    rw [h2, State.updates_res_tx, ← hr]
    refine (afterReset_of_init _ _ _ (by exact hs)).trans ?_
    cases r <;> rfl

end Sys2Proof.Machine
end

section
/-! The bits that belong to no field (10_state.md R37, R38): a command keeps the bits that each of its updates keeps. -/
namespace Sys2Proof.Machine

/-- An update that keeps, in its register, the bits `keep` names there. -/
def KeepsBits (keep : Byte → Byte) (u : Update) : Prop := ∀ v, u.2 v &&& keep u.1 = v &&& keep u.1

theorem State.reg_updates_and {keep : Byte → Byte} {us : List Update} (h : ∀ u ∈ us, KeepsBits keep u) (s : State)
    (r : Byte) : (s.updates us).reg r &&& keep r = s.reg r &&& keep r := by
  induction us generalizing s with
  | nil => rfl
  | cons u us ih =>
    obtain ⟨hu, hus⟩ := List.forall_mem_cons.1 h
    show ((s.update u).updates us).reg r &&& keep r = _
    rw [ih hus, State.update, State.reg_wr]
    split
    · subst_vars; exact hu _
    · rfl

/-- Where no bit is to be kept, any update keeps them. -/
theorem keepsBits_of_eq_zero {keep : Byte → Byte} {r : Byte} (h : keep r = 0) (g : Byte → Byte) :
    KeepsBits keep (r, g) := by
  intro v
  rw [h]
  exact BitVec.and_zero.trans BitVec.and_zero.symm

/-! Bits outside a mask, and outside a field. -/

theorem and_not_and {m k : Byte} (h : m &&& k = 0) (v : Byte) : v &&& ~~~m &&& k = v &&& k := by
  ext i hi
  have hi' := congrArg (·[i]) h
  simp only [BitVec.getElem_and] at hi'
  cases hk : k[i] <;> simp_all

theorem or_and {m k : Byte} (h : m &&& k = 0) (v : Byte) : (v ||| m) &&& k = v &&& k := by
  rw [BitVec.and_comm, BitVec.and_or_distrib_left, BitVec.and_comm k m, h, BitVec.and_comm]
  exact BitVec.or_zero

theorem BitRange.place_and {f : BitRange} {k : Byte} (h : f.max <<< f.sh &&& k = 0) (x : Byte) : f.place x &&& k = 0 := by
  rw [BitRange.place, BitVec.shiftLeft_and_distrib, BitVec.and_assoc, h]
  exact BitVec.and_zero

theorem BitRange.put_and {f : BitRange} {k : Byte} (h : f.max <<< f.sh &&& k = 0) (v x : Byte) :
    f.put v x &&& k = v &&& k := by
  rw [BitRange.put, or_and (BitRange.place_and h x), BitRange.clear, and_not_and h]

theorem BitRange.update_keepsBits {keep : Byte → Byte} {f : BitRange} {addr : Byte}
    (h : f.max <<< f.sh &&& keep addr = 0) (x : Byte) : KeepsBits keep (f.update addr x) :=
  fun v => BitRange.put_and h v x

/-! The registers of the default tables. -/

/-- An offset of an operator's registers: below 22, and not 6 or 7 modulo 8. -/
abbrev OperatorOffset (o : Byte) : Prop := o.toNat % 8 < 6 ∧ o.toNat < 22

theorem opoffDefault_offset : ∀ (p : Fin 2) (c : Fin 9), OperatorOffset opoffDefault[p][c] := by decide

theorem drumoffDefault_offset : ∀ (p : Fin 2) (d : Fin 5), drumoffDefault[p][d] ≠ 0xFF →
    OperatorOffset drumoffDefault[p][d] := by decide

theorem OpField.base_toNat (f : OpField) : f.base.toNat % 32 = 0 ∧ f.base.toNat ≤ 0xE0 ∧
    (f = .wave → f.base.toNat = 0xE0) ∧ (f ≠ .wave → 0x20 ≤ f.base.toNat ∧ f.base.toNat ≤ 0x80) := by
  cases f <;> decide

/-- The registers of an operator hold fields in every bit, but the waveform register in bits 1:0 only (R27-R32). -/
theorem noFieldBits_operatorRegister (f : OpField) {o : Byte} (ho : OperatorOffset o) :
    noFieldBits (f.base + o) = if f = .wave then 0xFC else 0x00 := by
  obtain ⟨h32, hle, hwave, hother⟩ := f.base_toNat
  have hn : (f.base + o).toNat = f.base.toNat + o.toNat := by
    rw [BitVec.toNat_add, Nat.mod_eq_of_lt (by omega)]
  have hop : (f.base + o).toNat % 32 % 8 < 6 ∧ (f.base + o).toNat % 32 < 22 := by omega
  unfold noFieldBits
  by_cases hf : f = .wave
  · have hb := hwave hf
    rw [if_neg (by omega), if_neg (by omega), if_neg (by omega), if_neg (by omega), if_neg (by omega), if_neg (by omega),
      if_pos ⟨by omega, hop⟩, if_pos hf]
  · obtain ⟨h20, h80⟩ := hother hf
    rw [if_neg (by omega), if_pos ⟨by omega, by omega, hop⟩, if_neg hf]

theorem OpField.mask_apart (f : OpField) : (f.range fieldMapDefault).max <<< (f.range fieldMapDefault).sh &&&
    (if f = .wave then 0xFC else 0x00) = 0 := by
  cases f <;> decide
theorem noFieldBits_fnumLow : ∀ c, noFieldBits (chAddr 0xA0 c) = 0 := by decide
theorem noFieldBits_block : ∀ c, noFieldBits (chAddr 0xB0 c) = 0xC0 := by decide
theorem noFieldBits_feedback : ∀ c, noFieldBits (chAddr 0xC0 c) = 0xF0 := by decide

theorem drumbit_and_C0 : ∀ d : Fin 5, drumbitDefault[d] &&& 0xC0 = 0 := by decide

theorem operatorUpdate_keepsBits (f : OpField) {s : State} (h : s.rom = romDefault) (a b c : Byte) :
    KeepsBits noFieldBits (operatorUpdate s f.base (f.range s.rom.fields) a b c) := by
  rw [operatorUpdate, State.opAddr, h]
  refine BitRange.update_keepsBits ?_ _
  have hr := noFieldBits_operatorRegister f (opoffDefault_offset (op b) (ch a))
  exact (congrArg (_ &&& ·) hr).trans f.mask_apart

/-- Bits 7:6 of register 0xB0 + c hold no part of the F-number. -/
theorem putHigh_and_C0 (v : Byte) (f : BitVec 10) : fieldMapDefault.fnum.putHigh v f &&& 0xC0 = v &&& 0xC0 := by
  have hf : BitVec.ofNat 8 (f.toNat / 256) &&& 0xC0 = 0 := by
    have hlt : f.toNat / 256 < 4 := Nat.div_lt_of_lt_mul f.isLt
    generalize f.toNat / 256 = n at hlt
    interval_cases n <;> rfl
  rw [FieldMap.fnum_putHigh, or_and hf, BitVec.and_assoc]
  rfl

theorem putPitch_and_C0 (v : Byte) (b : BitVec 3) (f : BitVec 10) : putPitch fieldMapDefault v b f &&& 0xC0 = v &&& 0xC0 := by
  rw [putPitch, BitRange.put_and (by decide), putHigh_and_C0]

/-- Bits 7:4 of register 0xC0 + c hold neither feedback nor synthesis mode. -/
theorem putFeedback_and_F0 (v : Byte) (fb : BitVec 3) (add : BitVec 1) :
    putFeedback fieldMapDefault v fb add &&& 0xF0 = v &&& 0xF0 := by
  rw [putFeedback, BitRange.put_and (by decide), BitRange.put_and (by decide)]

theorem drumsMask_and_C0 {s : State} (h : s.rom = romDefault) (bass snare tom cymbal hihat : Byte) :
    drumsMask s bass snare tom cymbal hihat &&& 0xC0 = 0 := by
  have hd (d : Fin 5) (x : Byte) : drumBitIf s d x &&& 0xC0 = 0 := by
    rw [drumBitIf, h]
    split
    · exact drumbit_and_C0 d
    · rfl
  rw [drumsMask, or_and (hd _ _), or_and (hd _ _), or_and (hd _ _), or_and (hd _ _), hd]

theorem drumsUpdates_keepsBits {m : Byte} (h : m &&& 0xC0 = 0) :
    ∀ u ∈ drumsUpdates fieldMapDefault.drums m, KeepsBits noFieldBits u := by
  have hclear (v : Byte) : fieldMapDefault.drums.clear v &&& 0xC0 = v &&& 0xC0 := and_not_and (by decide) v
  rw [drumsUpdates, List.forall_mem_cons, List.forall_mem_singleton]
  exact ⟨hclear, fun v => (or_and h _).trans (hclear v)⟩

theorem fnumLow_keepsBits (c : Fin 9) (g : Byte → Byte) : KeepsBits noFieldBits (chAddr 0xA0 c, g) :=
  keepsBits_of_eq_zero (noFieldBits_fnumLow c) g

theorem block_keepsBits (c : Fin 9) {g : Byte → Byte} (h : ∀ v, g v &&& 0xC0 = v &&& 0xC0) :
    KeepsBits noFieldBits (chAddr 0xB0 c, g) := by
  intro v
  rw [noFieldBits_block]
  exact h v

theorem feedback_keepsBits {f : BitRange} (hf : f.max <<< f.sh &&& 0xF0 = 0) (c : Fin 9) (x : Byte) :
    KeepsBits noFieldBits (f.update (chAddr 0xC0 c) x) :=
  BitRange.update_keepsBits (by rw [noFieldBits_feedback]; exact hf) x

/-- With the default tables the updates of every command but SETREG, INST_SET and INST_SET_DRUM keep the bits of no field. -/
theorem updates_keepsBits {i : Instr} {s : State} (h : s.rom = romDefault) (hset : ∀ a b, i ≠ .setreg a b)
    (hinst : ∀ a v, i ≠ .instSet a v) (hdrum : ∀ v, i ≠ .instSetDrum v) : ∀ u ∈ i.updates s, KeepsBits noFieldBits u := by
  have hm : s.rom.fields = fieldMapDefault := by rw [h]; rfl
  cases i with
  | setreg a b => exact absurd rfl (hset a b)
  | instSet a v => exact absurd rfl (hinst a v)
  | instSetDrum v => exact absurd rfl (hdrum v)
  | settrem a b c => exact List.forall_mem_singleton.2 (operatorUpdate_keepsBits .trem h a b c)
  | setvib a b c => exact List.forall_mem_singleton.2 (operatorUpdate_keepsBits .vib h a b c)
  | setsush a b c => exact List.forall_mem_singleton.2 (operatorUpdate_keepsBits .sush h a b c)
  | setksr a b c => exact List.forall_mem_singleton.2 (operatorUpdate_keepsBits .ksr h a b c)
  | setmult a b c => exact List.forall_mem_singleton.2 (operatorUpdate_keepsBits .mult h a b c)
  | setksl a b c => exact List.forall_mem_singleton.2 (operatorUpdate_keepsBits .ksl h a b c)
  | setlvl a b c => exact List.forall_mem_singleton.2 (operatorUpdate_keepsBits .lvl h a b c)
  | setatk a b c => exact List.forall_mem_singleton.2 (operatorUpdate_keepsBits .atk h a b c)
  | setdec a b c => exact List.forall_mem_singleton.2 (operatorUpdate_keepsBits .dec h a b c)
  | setsusl a b c => exact List.forall_mem_singleton.2 (operatorUpdate_keepsBits .susl h a b c)
  | setrel a b c => exact List.forall_mem_singleton.2 (operatorUpdate_keepsBits .rel h a b c)
  | setwave a b c => exact List.forall_mem_singleton.2 (operatorUpdate_keepsBits .wave h a b c)
  | setfnum a f =>
    rw [Instr.updates, hm, List.forall_mem_cons, List.forall_mem_singleton]
    exact ⟨fnumLow_keepsBits _ _, block_keepsBits _ fun v => putHigh_and_C0 v _⟩
  | setblk | setkey =>
    rw [Instr.updates, hm, List.forall_mem_singleton]
    exact block_keepsBits _ fun v => BitRange.put_and (by decide) v _
  | setfb | setsyn =>
    rw [Instr.updates, hm, List.forall_mem_singleton]
    exact feedback_keepsBits (by decide) _ _
  | setwse | setperc =>
    rw [Instr.updates, hm, List.forall_mem_singleton]
    exact BitRange.update_keepsBits (by decide) _
  | setdrums a =>
    rw [Instr.updates, hm]
    exact drumsUpdates_keepsBits (BitRange.place_and (by decide) a)
  | setdrums5 =>
    rw [Instr.updates, hm]
    exact drumsUpdates_keepsBits (drumsMask_and_C0 h _ _ _ _ _)
  | playnote a b c =>
    rw [Instr.updates, hm, List.forall_mem_cons, List.forall_mem_cons, List.forall_mem_singleton]
    refine ⟨block_keepsBits _ fun v => and_not_and (by decide) v, fnumLow_keepsBits _ _, block_keepsBits _ fun v => ?_⟩
    rw [BitRange.put_and (by decide), putPitch_and_C0]
  | playdrum a b c =>
    rw [Instr.updates, h, List.forall_mem_cons, List.forall_mem_cons, List.forall_mem_cons, List.forall_mem_singleton]
    exact ⟨fun v => and_not_and (drumbit_and_C0 _) v, fnumLow_keepsBits _ _,
      block_keepsBits _ fun v => putPitch_and_C0 v _ _, fun v => or_and (drumbit_and_C0 _) v⟩
  | _ => exact List.forall_mem_nil _

/-! INST_SET and INST_SET_DRUM: the same but in the waveform registers. -/

/-- The bits of no field outside the waveform registers. -/
def noFieldBitsButWave (r : Byte) : Byte := if noFieldBits r = 0xFC then 0 else noFieldBits r

theorem noFieldBitsButWave_operatorRegister (f : OpField) {o : Byte} (ho : OperatorOffset o) :
    noFieldBitsButWave (f.base + o) = 0 := by
  rw [noFieldBitsButWave, noFieldBits_operatorRegister f ho]
  by_cases hf : f = .wave
  · rw [if_pos hf, if_pos rfl]
  · rw [if_neg hf, if_neg (by decide)]

theorem noFieldBitsButWave_feedback : ∀ c, noFieldBitsButWave (chAddr 0xC0 c) = 0xF0 := by decide

theorem opUpdates_keepsBits {o : Byte} (ho : OperatorOffset o) (m : FieldMap) (x : Operator) (v : Half) :
    ∀ u ∈ opUpdates m o x v, KeepsBits noFieldBitsButWave u := by
  have hk (f : OpField) (g : Byte → Byte) : KeepsBits noFieldBitsButWave (f.base + o, g) :=
    keepsBits_of_eq_zero (noFieldBitsButWave_operatorRegister f ho) g
  simp only [opUpdates, List.forall_mem_cons]
  exact ⟨hk .trem _, hk .ksl _, hk .atk _, hk .susl _, hk .wave _, List.forall_mem_nil _⟩

theorem drumOpUpdates_keepsBits {s : State} (h : s.rom = romDefault) (p : Fin 2) (d : Fin 5) (v : Half) :
    ∀ u ∈ drumOpUpdates s p d v, KeepsBits noFieldBitsButWave u := by
  rw [drumOpUpdates, h]
  split
  · exact List.forall_mem_nil _
  · exact opUpdates_keepsBits (drumoffDefault_offset p d ‹_›) _ _ v

theorem instUpdates_keepsBits (c : Fin 9) (fb : BitVec 3) (add : BitVec 1) {ops : List Update}
    (h : ∀ u ∈ ops, KeepsBits noFieldBitsButWave u) :
    ∀ u ∈ instUpdates fieldMapDefault c fb add ops, KeepsBits noFieldBitsButWave u := by
  rw [instUpdates, List.forall_mem_cons, List.forall_mem_append, List.forall_mem_singleton]
  refine ⟨BitRange.update_keepsBits (by decide) 1, h, fun v => ?_⟩
  rw [noFieldBitsButWave_feedback]
  exact putFeedback_and_F0 v fb add

theorem drumUpdates_keepsBits {s : State} (h : s.rom = romDefault) (v : Half) :
    ∀ u ∈ drumUpdates s v, KeepsBits noFieldBitsButWave u := by
  have hm : s.rom.fields = fieldMapDefault := by rw [h]; rfl
  unfold drumUpdates
  split
  · exact List.forall_mem_nil _
  · rw [hm]
    refine instUpdates_keepsBits _ _ _ ?_
    exact List.forall_mem_append.2 ⟨drumOpUpdates_keepsBits h _ _ v, drumOpUpdates_keepsBits h _ _ v⟩

theorem instSet_keepsBits {s : State} (h : s.rom = romDefault) (a : Byte) (v : Half) :
    ∀ u ∈ (Instr.instSet a v).updates s, KeepsBits noFieldBitsButWave u := by
  rw [Instr.updates, h]
  refine instUpdates_keepsBits _ _ _ ?_
  exact List.forall_mem_append.2
    ⟨opUpdates_keepsBits (opoffDefault_offset _ _) _ _ v, opUpdates_keepsBits (opoffDefault_offset _ _) _ _ v⟩

/-- A command whose updates keep some bits keeps them. -/
theorem exec_keeps_bits {keep : Byte → Byte} {i : Instr} {s t : State} (hi : i ≠ .reset) (h : exec i s = .next t)
    (hk : ∀ u ∈ i.updates s, KeepsBits keep u) (r : Byte) : t.reg r &&& keep r = s.reg r &&& keep r := by
  obtain ⟨res, ib, -, -, rfl⟩ := exec_next_updates hi h
  exact State.reg_updates_and hk s r

/-- Settles O52, by the updates of each command. -/
theorem bitsOfNoFieldArePreserved : Obligations.BitsOfNoFieldArePreserved := by
  intro i s t r hrom h
  refine ⟨fun hset hinst hdrum hi => exec_keeps_bits hi h (updates_keepsBits hrom hset hinst hdrum) r, fun hi hr => ?_⟩
  have hk : noFieldBitsButWave r = noFieldBits r := if_neg hr
  rw [← hk]
  rcases hi with ⟨a, v, rfl⟩ | ⟨v, rfl⟩
  · exact exec_keeps_bits (by simp) h (instSet_keepsBits hrom a v) r
  · exact exec_keeps_bits (by simp) h (drumUpdates_keepsBits hrom v) r

end Sys2Proof.Machine
end

section
/-! The channel and global fields in any layout (10_state.md R39 as log entry 21 reads it). -/
namespace Sys2Proof.Machine

/-! Getters and setters by number. -/

/-- A getter answers the field as a number. -/
theorem getField_eq (s : State) (f : BitRange) (addr : Byte) :
    s.getField f addr = { s with res := BitVec.ofNat 16 ((s.reg addr).toNat / 2 ^ f.sh % 2 ^ f.w) } := by
  rw [State.getField, BitRange.get_eq_number, State.setRes]

theorem blk_setWidth (b : Byte) : (blk b).setWidth 8 = BitVec.ofNat 8 (min b.toNat 7) := by
  apply BitVec.eq_of_toNat_eq
  have h := toNat_ofNat_clampFin_seven b
  have hb : min b.toNat 7 < 256 := by omega
  rw [BitVec.toNat_setWidth, blk, h, BitVec.toNat_ofNat]
  rfl

/-- Replacing a field sees the low bits of the value alone. -/
theorem BitRange.put_and_max (f : BitRange) (v x : Byte) : f.put v (x &&& f.max) = f.put v x := by
  rw [BitRange.put, BitRange.place_and_max, BitRange.put]

/-! The F-number in its pair of registers. -/

theorem fn_setWidth (f : Half) : (fn f).setWidth 16 = BitVec.ofInt 16 (min (max f.toInt 0) 1023) := by
  apply BitVec.eq_of_toNat_eq
  have h := fn_toNat f
  have hlt := (fn f).isLt
  rw [BitVec.toNat_setWidth, BitVec.toNat_ofInt]
  omega

/-- The low register of the pair takes the low byte of the pair with its field replaced, whatever the high one holds. -/
theorem BitRange.putLow_eq (f : BitRange) (hi lo : Byte) (x : BitVec 10) :
    f.putLow lo x = (pairReplaced f (hi ++ lo) (x.setWidth 16)).setWidth 8 := by
  show _ = (f.pairPut hi lo (x.setWidth 16)).setWidth 8
  apply BitVec.eq_of_getLsbD_eq
  intro i h
  rw [BitRange.putLow_bit f lo x i h, BitVec.getLsbD_setWidth, BitRange.pairPut_bit, BitVec.getLsbD_append]
  simp [h, show i < 16 by omega, show i - f.sh < 16 by omega]

/-- The high register takes the high byte, whatever the low one holds. -/
theorem BitRange.putHigh_eq (f : BitRange) (hi lo : Byte) (x : BitVec 10) :
    f.putHigh hi x = (pairReplaced f (hi ++ lo) (x.setWidth 16) >>> 8).setWidth 8 := by
  show _ = (f.pairPut hi lo (x.setWidth 16) >>> 8).setWidth 8
  apply BitVec.eq_of_getLsbD_eq
  intro i h
  rw [BitRange.putHigh_bit f hi x i h, BitVec.getLsbD_setWidth, BitVec.getLsbD_ushiftRight, BitRange.pairPut_bit,
    BitVec.getLsbD_append]
  simp [h, show 8 + i < 16 by omega, show 8 + i - f.sh < 16 by omega]

/-- The F-number of the pair as a number. -/
theorem BitRange.pairGet_eq_number (f : BitRange) (hi lo : Byte) :
    f.pairGet hi lo = BitVec.ofNat 16 ((hi ++ lo).toNat / 2 ^ f.sh % 2 ^ f.w) := by
  apply BitVec.eq_of_getLsbD_eq
  intro i h
  rw [BitRange.pairGet, BitVec.getLsbD_and, BitVec.getLsbD_ushiftRight, BitRange.pairMax_bit, BitVec.getLsbD_ofNat,
    Nat.testBit_mod_two_pow, Nat.testBit_div_two_pow]
  simp [h, BitVec.getLsbD, Nat.add_comm, Bool.and_comm]

/-- The registers of one channel at two bases are two. -/
theorem chAddr_ne {x y : Byte} (h : x ≠ y) (c : Fin 9) : chAddr x c ≠ chAddr y c := by
  intro e
  exact h (BitVec.add_left_inj (chByte c) |>.1 e)

/-- SETFNUM's two writes: the bytes of the pair with the F-number replaced. -/
theorem writeFnum_eq (c : Fin 9) (f : BitVec 10) {s : State} {p : Half}
    (hp : p = pairReplaced s.rom.fields.fnum (s.reg (chAddr 0xB0 c) ++ s.reg (chAddr 0xA0 c)) (f.setWidth 16)) :
    writeFnum c f s = (s.wr (chAddr 0xA0 c) (p.setWidth 8)).wr (chAddr 0xB0 c) ((p >>> 8).setWidth 8) := by
  subst hp
  rw [writeFnum, State.reg_wr_other _ _ _ _ (chAddr_ne (by decide) c), ← BitRange.putLow_eq, ← BitRange.putHigh_eq]

/-! PLAYNOTE read back. -/

/-- Another field of the high register leaves the F-number of the pair alone. -/
theorem BitRange.pairGet_put_apart {f g : BitRange} (h : f.apart g.upper) (hi lo x : Byte) :
    f.pairGet (g.put hi x) lo = f.pairGet hi lo := by
  apply BitVec.eq_of_getLsbD_eq
  intro i _
  rw [BitRange.pairGet_bit, BitRange.pairGet_bit, BitRange.put_bit]
  by_cases hw : i < f.w
  · by_cases h8 : f.sh + i < 8
    · simp [h8]
    · rw [if_neg (c := g.sh ≤ _ ∧ _)]
      simp only [BitRange.apart, BitRange.upper] at h
      omega
  · simp [hw]

theorem BitRange.apart_of_upper {f g : BitRange} (h : f.upper.apart g.upper) : f.apart g := by
  simp only [BitRange.apart, BitRange.upper] at h ⊢
  omega

/-- What a layout that can hold the block's fields says of registers 0xB0 + c and 0xA0 + c. -/
theorem FieldMap.wf.pitch {m : FieldMap} (h : m.wf) : m.blk.inByte 3 ∧ m.key.inByte 1 ∧ m.fnum.w = 10 ∧
    m.fnum.sh + 10 ≤ 16 ∧ m.fnum.apart m.blk.upper ∧ m.fnum.apart m.key.upper ∧ m.blk.apart m.key := by
  obtain ⟨-, -, -, -, -, ⟨hblk, hkey, hw, hsh, hap⟩, -⟩ := h
  obtain ⟨hfnum, hap⟩ := List.pairwise_cons.1 hap
  obtain ⟨hfb, hfk⟩ := List.forall_mem_cons.1 hfnum
  exact ⟨hblk, hkey, hw, hsh, hfb, List.forall_mem_singleton.1 hfk, BitRange.apart_of_upper (List.pairwise_pair.1 hap)⟩

/-- The two registers of the channel after PLAYNOTE. -/
theorem playNote_regs (c : Fin 9) (b : BitVec 3) (f : BitVec 10) (s : State) :
    (playNote c b f s).reg (chAddr 0xA0 c) = s.rom.fields.fnum.putLow (s.reg (chAddr 0xA0 c)) f ∧
    (playNote c b f s).reg (chAddr 0xB0 c) = s.rom.fields.key.put
      (putPitch s.rom.fields (s.rom.fields.key.clear (s.reg (chAddr 0xB0 c))) b f) 1 := by
  have hne := chAddr_ne (show (0xA0 : Byte) ≠ 0xB0 by decide) c
  simp only [playNote, State.reg_wr_self, State.reg_wr_other _ _ _ _ hne, State.reg_wr_other _ _ _ _ hne.symm, and_self]

/-- In a layout that can hold the fields, PLAYNOTE leaves key-on, its block and its F-number. -/
theorem playNote_fields (c : Fin 9) (b : BitVec 3) (f : BitVec 10) {s t : State} (h : s.rom.fields.wf)
    (ht : t = playNote c b f s) : t.rom.fields.key.get (t.reg (chAddr 0xB0 c)) = 1 ∧
      t.rom.fields.blk.get (t.reg (chAddr 0xB0 c)) = b.setWidth 8 ∧ t.fnum c = f.setWidth 16 := by
  obtain ⟨⟨hbw, hbs⟩, ⟨hkw, hks⟩, hfw, hfs, hfb, hfk, hbk⟩ := h.pitch
  obtain ⟨hlo, hhi⟩ := playNote_regs c b f s
  have hrom : t.rom = s.rom := by rw [ht]; rfl
  rw [State.fnum, hrom, ht, hlo, hhi]
  refine ⟨?_, ?_, ?_⟩
  · rw [BitRange.get_put _ _ _ (hkw ▸ hks), BitRange.max, hkw]
    rfl
  · have hb : ∀ x : BitVec 3, x.setWidth 8 &&& BitVec.ofNat 8 (2 ^ 3 - 1) = x.setWidth 8 := by decide
    rw [BitRange.get_put_apart _ _ _ _ hbk.symm, putPitch, BitRange.get_put _ _ _ (hbw ▸ hbs), BitRange.max, hbw, hb]
  · rw [BitRange.pairGet_put_apart hfk, putPitch, BitRange.pairGet_put_apart hfb, BitRange.pairGet_put _ _ _ _ hfw hfs]

/-! The effects of the commands. -/

theorem setter_effect {i : Instr} {s : State} {f : BitRange} {addr x y : Byte}
    (h : exec i s = afterReset i s (s.setField f addr x)) (hx : f.put (s.reg addr) x = fieldReplaced f (s.reg addr) y) :
    Effect i s { s.wr addr (fieldReplaced f (s.reg addr) y) with res := addr.setWidth 16 } :=
  effect_of_afterReset h (setField_eq hx)

theorem getter_effect {i : Instr} {s : State} {f : BitRange} {addr : Byte}
    (h : exec i s = afterReset i s (s.getField f addr)) :
    Effect i s { s with res := BitVec.ofNat 16 ((s.reg addr).toNat / 2 ^ f.sh % 2 ^ f.w) } :=
  effect_of_afterReset h (getField_eq s f addr)

theorem setfnum_effect (a : Byte) (f : Half) {s : State} {p : Half}
    (hp : p = pairReplaced s.rom.fields.fnum (s.reg (chAddr 0xB0 (ch a)) ++ s.reg (chAddr 0xA0 (ch a)))
      (BitVec.ofInt 16 (min (max f.toInt 0) 1023))) :
    Effect (.setfnum a f) s { (s.wr (chAddr 0xA0 (ch a)) (p.setWidth 8)).wr (chAddr 0xB0 (ch a)) ((p >>> 8).setWidth 8) with
      res := (chAddr 0xA0 (ch a)).setWidth 16 } := by
  rw [← fn_setWidth] at hp
  exact effect_of_afterReset rfl (by rw [writeFnum_eq _ _ hp, State.setRes])

theorem getfnum_effect (a : Byte) (s : State) : Effect (.getfnum a) s { s with
    res := BitVec.ofNat 16 ((s.reg (chAddr 0xB0 (ch a)) ++ s.reg (chAddr 0xA0 (ch a))).toNat /
      2 ^ s.rom.fields.fnum.sh % 2 ^ s.rom.fields.fnum.w) } :=
  effect_of_afterReset rfl (by rw [State.fnum, BitRange.pairGet_eq_number, State.setRes])

theorem setdrums_effect (b : Byte) {s : State} {x : Byte} (hx : x = s.rom.fields.drums.clear (s.reg 0xBD)) :
    Effect (.setdrums b) s { (s.wr 0xBD x).wr 0xBD (fieldReplaced s.rom.fields.drums x b) with res := 0x00BD } := by
  subst hx
  refine effect_of_afterReset rfl ?_
  rw [drumsClearThenSet, State.reg_wr_self]
  rfl

/-- FFNUM divides by the step of the block its field holds. -/
theorem ffnum_effect (a : Byte) (d : Wide) {s : State} {b : Fin 8} (hb : s.currentBlock (ch a) = b)
    (h : s.rom.blkstep[b] ≠ 0) :
    Effect (.ffnum a d) s { s with res := BitVec.ofNat 16 (min (d.toNat / s.rom.blkstep[b]) 1023) } := by
  refine effect_of_afterReset rfl ?_
  rw [State.fstep_eq hb, freqFnum, if_neg h, State.setRes]

/-- The getters after PLAYNOTE. -/
theorem getters_after_playnote {s t : State} {a b c : Byte} (hm : s.rom.fields.wf)
    (h : exec (.playnote a b c) s = .next t) :
    exec (.getkey a) t = .next { t with res := 1 } ∧
    exec (.getblk a) t = .next { t with res := BitVec.ofNat 16 (min b.toNat 7) } ∧
    exec (.getfnum a) t = .next { t with res := s.rom.notef[note c].setWidth 16 } := by
  obtain ⟨hs, ht⟩ := (afterReset_next _ _ _ _).1 h
  have hi : t.init = true := by rw [ht]; exact hs
  obtain ⟨hkey, hblk, hfnum⟩ := playNote_fields (ch a) (oct b) s.rom.notef[note c] hm ht
  have hoct : ((oct b).setWidth 8).setWidth 16 = BitVec.ofNat 16 (min b.toNat 7) := by
    rw [show oct b = blk b from rfl, blk_setWidth]
    apply BitVec.eq_of_toNat_eq
    simp only [BitVec.toNat_setWidth, BitVec.toNat_ofNat]
    omega
  refine ⟨?_, ?_, ?_⟩
  · refine (afterReset_of_init _ _ _ hi).trans ?_
    rw [getChannelField, State.getField, hkey]
    rfl
  · refine (afterReset_of_init _ _ _ hi).trans ?_
    rw [getChannelField, State.getField, hblk, hoct]
    rfl
  · refine (afterReset_of_init _ _ _ hi).trans ?_
    rw [hfnum]
    rfl

/-- Settles O34: the commands by the effects above, their values by the bits of the fields. -/
theorem commandsFollowTheLayout : Obligations.CommandsFollowTheLayout := by
  refine ⟨fun s s1 a b k lo hi q x f p m hm hk hlo hhi hq hp hx hs1 => ?_, fun s a d b f hf hb hstep => ?_,
    fun s t a b c hm h => getters_after_playnote hm h⟩
  · subst hm hk hlo hhi hq hx hs1
    refine ⟨setfnum_effect a f hp, getfnum_effect a s, setter_effect rfl ?_, getter_effect rfl, setter_effect rfl ?_,
      getter_effect rfl, setter_effect rfl ?_, getter_effect rfl, setter_effect rfl ?_, getter_effect rfl,
      setter_effect rfl ?_, getter_effect rfl, setter_effect rfl ?_, getter_effect rfl, setdrums_effect b rfl,
      getter_effect rfl⟩
    · rw [blk_setWidth]; rfl
    · rw [boolOf_setWidth]; rfl
    · rw [BitRange.put_and_max]; rfl
    · rw [boolOf_setWidth]; rfl
    · rw [boolOf_setWidth]; rfl
    · rw [boolOf_setWidth]; rfl
  · subst hf
    exact ffnum_effect a d (Fin.ext ((s.currentBlock_val (ch a)).trans hb.symm)) hstep

end Sys2Proof.Machine
end

section
/-! Command words and the steps that run them (20_memory.md R64, R67, R70), the commands that write no register (R69), the
bank after a run (R71), and the blob spaces, which INST_LOAD alone reads (R62). -/
namespace Sys2Proof.Machine

/-! Words and steps. -/

/-- A byte stream that begins with a word's eight bytes decodes as that word, and the rest is left. -/
theorem decodeBytes_bytesOfWord_append (w : Word) (rest : List Byte) :
    decodeBytes (bytesOfWord w ++ rest) = (decode w).map fun i => (i, rest) := by
  simp only [bytesOfWord, List.cons_append, List.nil_append, decodeBytes, wordOfBytes_bytesOfWord]

/-- Settles O6: joining a byte below multiplies what stands above it by 256, and joining a word's bytes gives it back. -/
theorem wordsTravelMostSignificantByteFirst : Obligations.WordsTravelMostSignificantByteFirst := by
  refine ⟨fun b0 b1 b2 b3 b4 b5 b6 b7 => ?_, decodeBytes_bytesOfWord_append⟩
  simp only [wordOfBytes, append_byte_toNat]
  ring

theorem step_of_command {s : State} {w : Word} {rest : List Input} (h : s.inbox = .command w :: rest) :
    step s = runWord w { s with inbox := rest } := by
  simp only [step, State.takeInput, h]

theorem runWord_of_decode {w : Word} {i : Instr} (h : decode w = some i) (s : State) :
    runWord w s = recordWord w (exec i s) := by
  simp only [runWord, h]

/-- Settles O8: the step delivers the word, the word runs its instruction, and recording the word changes no next state. -/
theorem stepRunsTheDecodedInstruction : Obligations.StepRunsTheDecodedInstruction := by
  intro s w rest i hin hd
  have hstep : step s = recordWord w (exec i { s with inbox := rest }) :=
    (step_of_command hin).trans (runWord_of_decode hd _)
  exact ⟨hstep, fun t ht => hstep.trans ((recordWord_next w _ t).2 ht)⟩

/-! The commands that write no register. -/

/-- The commands of R350's last row update no register. -/
theorem updates_eq_nil_of_emitsNothing {i : Instr} (h : i.emitsNothing = true) (s : State) : i.updates s = [] := by
  cases i with
  | getreg | regoff | drumoff | fblock | ffnum | notefnum => rfl
  | gettrem | getvib | getsush | getksr | getmult | getksl | getlvl | getatk | getdec | getsusl | getrel | getwave => rfl
  | getfnum | getblk | getkey | getfb | getsyn | getwse | getperc | getdrums => rfl
  | instCreate | instLoad | instGet | instGetDrum => rfl
  | _ => cases h

/-- Settles O50: without updates, a command writes RES and IB at most. -/
theorem readCommandsWriteNothing : Obligations.ReadCommandsWriteNothing := by
  intro i s t hi h
  have hne : i ≠ .reset := fun e => by simp [e, Instr.emitsNothing] at hi
  obtain ⟨r, ib, -, -, rfl⟩ := exec_next_updates hne h
  rw [updates_eq_nil_of_emitsNothing hi]
  exact ⟨rfl, rfl⟩

/-! The bank after a run. -/

/-- A run that comes to a next state begins with a step to one. -/
theorem run_succ_next {M : Host.Core} {n : Nat} {s t : M.State} (h : M.run (n + 1) s = .next t) :
    ∃ u, M.step s = .next u ∧ M.run n u = .next t := by
  rw [Host.Core.run] at h
  split at h
  · exact ⟨_, ‹_›, h⟩
  · cases h
  · cases h

/-- What every step of a machine keeps, every run of it keeps. -/
theorem run_keeps {M : Host.Core} {P : M.State → Prop} (hstep : ∀ s t, P s → M.step s = .next t → P t) {n : Nat}
    {s t : M.State} (hs : P s) (h : M.run n s = .next t) : P t := by
  induction n generalizing s with
  | zero => exact Host.Outcome.next.inj h ▸ hs
  | succ n ih =>
    obtain ⟨u, hu, hrun⟩ := run_succ_next h
    exact ih (hstep s u hs hu) hrun

/-- Settles O56: at power-on INIT is 0, so the shadow invariant holds there, and every step keeps it. -/
theorem bankIsTheFoldOfTheWrites : Obligations.BankIsTheFoldOfTheWrites := by
  intro rb ib res inputs n t h hinit
  have h0 : State.ShadowInv { State.powerOn rb ib res with inbox := inputs } := fun hi => nomatch hi
  exact run_keeps (M := Sys2Proof.core) stepKeepsTheShadowFaithful h0 h hinit

/-! The blob spaces are not read. -/

/-- The state with other contents of both blob spaces. -/
def State.withBlobs (s : State) (x y : Memory) : State := { s with blob0 := x, blob1 := y }

theorem State.writes_withBlobs (s : State) (x y : Memory) (ws : List (Byte × Byte)) :
    (s.withBlobs x y).writes ws = (s.writes ws).withBlobs x y := by
  induction ws generalizing s with
  | nil => rfl
  | cons p ws ih => exact ih (s.wr p.1 p.2)

theorem State.updates_withBlobs (s : State) (x y : Memory) (us : List Update) :
    (s.withBlobs x y).updates us = (s.updates us).withBlobs x y := by
  obtain ⟨ws, -, h⟩ := s.updates_eq_writes us
  rw [h s rfl, h (s.withBlobs x y) rfl, State.writes_withBlobs]

theorem resetBlock_withBlobs (s : State) (x y : Memory) : resetBlock (s.withBlobs x y) = (resetBlock s).withBlobs x y := by
  have h : zeroRegs regAddrs (s.withBlobs x y).resetPulse = (zeroRegs regAddrs s.resetPulse).withBlobs x y := by
    rw [zeroRegs_eq_writes, zeroRegs_eq_writes]
    exact State.writes_withBlobs s.resetPulse x y _
  rw [resetBlock_eq, resetBlock_eq, h]
  rfl

/-- Every command but RESET and INST_LOAD has the same effect whatever the blob spaces hold. -/
theorem exec_withBlobs {i : Instr} (hr : i ≠ .reset) (hl : ∀ sp base, i ≠ .instLoad sp base) (s : State) (x y : Memory) :
    ∃ t, exec i s = afterReset i s t ∧ exec i (s.withBlobs x y) = afterReset i (s.withBlobs x y) (t.withBlobs x y) := by
  cases i with
  | reset => exact absurd rfl hr
  | instLoad sp base => exact absurd rfl (hl sp base)
  | instSet a v =>
    refine ⟨_, congrArg (afterReset _ s) (writeChannel_eq_updates (ch a) v s), congrArg (afterReset _ _) ?_⟩
    rw [writeChannel_eq_updates, State.updates_withBlobs]
    rfl
  | instSetDrum v =>
    refine ⟨_, congrArg (afterReset _ s) (setDrumInstrument_eq_updates v s), congrArg (afterReset _ _) ?_⟩
    rw [setDrumInstrument_eq_updates, State.updates_withBlobs]
    rfl
  -- Every other command's meaning names no blob space, so both sides unfold to the same writes, RES and IB.
  | _ => exact ⟨_, rfl, rfl⟩

/-- Settles O59: RESET and the commands above do the same with any other contents. -/
theorem onlyInstLoadReadsTheBlobs : Obligations.OnlyInstLoadReadsTheBlobs := by
  intro i s t x y hl h
  show exec i (s.withBlobs x y) = .next (t.withBlobs x y)
  by_cases hr : i = .reset
  · subst hr
    obtain rfl := exec_reset_next h
    exact congrArg Host.Outcome.next (resetBlock_withBlobs s x y)
  · obtain ⟨u, hu, hu'⟩ := exec_withBlobs hr hl s x y
    rw [hu, afterReset_next] at h
    obtain ⟨hs, rfl⟩ := h
    exact hu'.trans (afterReset_of_init _ _ _ hs)

end Sys2Proof.Machine
end

section
/-! The command words: `decode` and `encode` undo each other on the bits a command reads (30_encoding.md R81, R84-R87, R94),
the bits it does not read change nothing (R90), and the unassigned opcodes are refused (R89, R302). -/
namespace Sys2Proof
open Laws.EncodedWord (byte_all wide_all)

/-! Encoding, then decoding. -/

/-- Settles O1: every operand is read back from the field it was assembled in, or from the part of a field that SETDRUMS5,
INST_LOAD and the commands with an operand of sixteen bits read. -/
theorem decodeOfEncodeIsTheInstruction : Obligations.DecodeOfEncodeIsTheInstruction := by
  intro i
  cases i with
  | setdrums5 bass snare tom cymbal hihat =>
    obtain ⟨h24, h16⟩ := drums5_fields cymbal hihat
    simp [encode, decode, assemble_byte_24, assemble_byte_16, h24, h16]
  | instLoad sp base => simp [encode, decode, assemble_bit_48]
  | setfnum | instSet | instSetDrum => simp [encode, decode, assemble_low_half]
  | _ => simp [encode, decode]

/-! The bits a command reads, by fields. -/

/-- A word under a mask, put together from the fields of both. -/
theorem and_eq_assemble (w m : Word) : w &&& m = assemble (opField w &&& opField m) (aField w &&& aField m)
    (bField w &&& bField m) (cField w &&& cField m) (dField w &&& dField m) :=
  (assemble_eq_masked w m _ _ _ _ _ (extractLsb'_and_word w m _ _).symm (extractLsb'_and_word w m _ _).symm
    (extractLsb'_and_word w m _ _).symm (extractLsb'_and_word w m _ _).symm (extractLsb'_and_word w m _ _).symm).symm

/-- R87: the two bytes SETDRUMS5 reads of `D`. -/
theorem drums5_eq_and (w : Word) :
    ((w.extractLsb' 24 8).setWidth 32 <<< 24) ||| ((w.extractLsb' 16 8).setWidth 32 <<< 16) = dField w &&& 0xFFFF0000 := by
  ext i hi; interval_cases i <;> simp [dField]

theorem low_half_eq_and (w : Word) : (w.extractLsb' 0 16).setWidth 32 = dField w &&& 0xFFFF := by
  ext i hi; interval_cases i <;> simp [dField]

theorem bit_48_eq_and (w : Word) : (w.extractLsb' 48 1).setWidth 8 = aField w &&& 0x01 := by
  ext i hi; interval_cases i <;> simp [aField]

/-- The word of the operands a format reads (R81, R87), every other bit 0. -/
def Format.read (f : Format) (w : Word) : Word :=
  match f with
  | .n => assemble (opField w) 0 0 0 0
  | .a => assemble (opField w) (aField w) 0 0 0
  | .ab => assemble (opField w) (aField w) (bField w) 0 0
  | .abc => assemble (opField w) (aField w) (bField w) (cField w) 0
  | .d => assemble (opField w) 0 0 0 (dField w)
  | .ad => assemble (opField w) (aField w) 0 0 (dField w)
  | .a5 => assemble (opField w) (aField w) (bField w) (cField w)
      (((w.extractLsb' 24 8).setWidth 32 <<< 24) ||| ((w.extractLsb' 16 8).setWidth 32 <<< 16))

theorem Format.and_mask (f : Format) (w : Word) : w &&& f.mask = f.read w := by
  rw [and_eq_assemble]
  cases f <;> simp [Format.mask, Format.read, drums5_eq_and, opField, aField, bField, cField, dField, ← byte_all,
    ← wide_all]

/-- R84, R85: what SETFNUM and INST_SET read. -/
theorem and_mask_a_low_half (w : Word) : w &&& 0xFFFF00000000FFFF#64 =
    assemble (opField w) (aField w) 0 0 ((w.extractLsb' 0 16).setWidth 32) := by
  rw [and_eq_assemble, low_half_eq_and]
  simp [opField, aField, bField, cField, dField, ← byte_all]

/-- R85: what INST_SET_DRUM reads. -/
theorem and_mask_low_half (w : Word) : w &&& 0xFF0000000000FFFF#64 =
    assemble (opField w) 0 0 0 ((w.extractLsb' 0 16).setWidth 32) := by
  rw [and_eq_assemble, low_half_eq_and]
  simp [opField, aField, bField, cField, dField, ← byte_all]

/-- R86: what INST_LOAD reads. -/
theorem and_mask_bit_48 (w : Word) : w &&& 0xFF010000FFFFFFFF#64 =
    assemble (opField w) ((w.extractLsb' 48 1).setWidth 8) 0 0 (dField w) := by
  rw [and_eq_assemble, bit_48_eq_and]
  simp [opField, aField, bField, cField, dField, ← byte_all, ← wide_all]

/-! Decoding, then encoding. -/

/-- A word carries the opcode of the instruction it decodes to. -/
theorem opField_of_decode {w : Word} {i : Instr} (h : decode w = some i) : opField w = i.opcode := by
  unfold decode at h
  split at h
  all_goals cases h
  all_goals exact BitVec.eq_of_toNat_eq ‹_›

/-- Settles O2, by the branches of `decode`: the word under its mask is the word of the operands its format reads, or of
the narrower ones of R84-R86, and these are what `decode` gives the instruction. -/
theorem encodeOfDecodeKeepsReadBits : Obligations.EncodeOfDecodeKeepsReadBits := by
  intro w i h
  have hop := opField_of_decode h
  unfold decode at h
  split at h
  all_goals cases h
  all_goals
    rw [Instr.opcode] at hop
    simp [encode, hop, readMask, opcodeFormat, Format.and_mask, Format.read, and_mask_a_low_half, and_mask_low_half,
      and_mask_bit_48]

/-- Settles O5: each word evaluated. -/
theorem wordsOfTheSpecDecode : Obligations.WordsOfTheSpecDecode := by
  unfold Obligations.WordsOfTheSpecDecode
  decide

/-! The opcodes that have no meaning. -/

/-- A word decodes exactly where its opcode is assigned. -/
theorem decode_isSome (w : Word) : (decode w).isSome = w.opAssigned := by
  unfold decode Word.opAssigned opcodeFormat
  split <;> simp [*]

/-- R88 leaves exactly the opcodes of R89's list. -/
theorem opcodeFormat_eq_none_iff : ∀ op : Byte, opcodeFormat op = none ↔ unassignedOpcode op.toNat := by decide

theorem decode_eq_none_iff (w : Word) : decode w = none ↔ unassignedOpcode (opField w).toNat := by
  rw [← opcodeFormat_eq_none_iff, ← Option.not_isSome_iff_eq_none, decode_isSome, Word.opAssigned,
    Option.not_isSome_iff_eq_none]

end Sys2Proof

namespace Sys2Proof.Machine

theorem runWord_of_decode_none {w : Word} (h : decode w = none) (s : State) :
    runWord w s = .refused (.unassigned (opField w) w) := by
  simp only [runWord, h, refuseWord]

/-- Settles O4: the words of no instruction are those of R89's opcodes, and running one refuses it before INIT is looked
at. -/
theorem unassignedOpcodesAreRefused : Obligations.UnassignedOpcodesAreRefused := by
  intro w
  refine ⟨decode_eq_none_iff w, fun s rest hop hin => ?_⟩
  rw [step_of_command hin, runWord_of_decode_none ((decode_eq_none_iff w).2 hop)]

/-- Settles O3: by O2 the word without its unread bits is the encoding of its instruction, which O1 decodes; and whether a
word's step has a next state depends on its instruction alone. -/
theorem unreadBitsAreIgnored : Obligations.UnreadBitsAreIgnored := by
  intro w rest s h
  obtain ⟨i, hi⟩ := Option.isSome_iff_exists.1 h
  have hd : decode (w &&& readMask (opField w)) = decode w := by
    rw [← encodeOfDecodeKeepsReadBits w i hi, decodeOfEncodeIsTheInstruction i, hi]
  refine ⟨hd, fun t => ?_⟩
  rw [step_of_command rfl, step_of_command rfl, runWord_next, runWord_next, hd]

end Sys2Proof.Machine
end

section
/-! The register store (40_register_store.md): `Wr`, RESET, SETREG and GETREG, and the law of R107, which holds because a
register changes only where TX shows a write to it. -/
namespace Sys2Proof.Machine

/-- Settles O14: the registers by `State.reg_wr`; `Wr` names no field but the bank and TX. -/
theorem writeStoresAndTransmits : Obligations.WriteStoresAndTransmits :=
  fun s r v => ⟨State.reg_wr s r v, State.wr_tx s r v, rfl⟩

/-- The events of RESET by the number of the register (R102). -/
theorem resetEvents_eq :
    resetEvents = .pulse :: (List.range 256).map (fun n => .write (BitVec.ofNat 8 n) 0x00) := by
  rw [resetEvents, regAddrs, List.map_map]
  rfl

/-- Settles O15: RESET's next state is `resetBlock s`, its registers and its other fields as said of `resetBlock`. -/
theorem resetClearsTheBlock : Obligations.ResetClearsTheBlock := by
  intro s
  obtain ⟨hib, hres, hinit, htx, hrest⟩ := resetBlock_fields s
  exact ⟨resetBlock s, rfl, resetBlock_reg s, resetEvents_eq ▸ htx, hib, hres, hinit, hrest⟩

theorem setreg_effect (a b : Byte) (s : State) : Effect (.setreg a b) s (s.wr a b) :=
  effect_of_afterReset rfl rfl

theorem getreg_effect (a : Byte) (s : State) : Effect (.getreg a) s { s with res := (s.reg a).setWidth 16 } :=
  effect_of_afterReset rfl rfl

/-- Settles O17: both commands are the check of INIT over their effect. -/
theorem setregWritesAndGetregReads : Obligations.SetregWritesAndGetregReads :=
  fun s a b => ⟨setreg_effect a b s, getreg_effect a s⟩

/-! A register changes only where TX shows a write to it. -/

/-- TX of `t` continues that of `s`, and a register with no write among the new events is as it was. -/
def ChangesAreTransmitted (s t : State) : Prop :=
  ∃ es, t.tx = s.tx ++ es ∧ ∀ r, (∀ x, .write r x ∉ es) → t.reg r = s.reg r

theorem ChangesAreTransmitted.refl (s : State) : ChangesAreTransmitted s s :=
  ⟨[], (List.append_nil _).symm, fun _ _ => rfl⟩

theorem ChangesAreTransmitted.trans {s t u : State} (hst : ChangesAreTransmitted s t)
    (htu : ChangesAreTransmitted t u) : ChangesAreTransmitted s u := by
  obtain ⟨es, htx, hreg⟩ := hst
  obtain ⟨fs, htx', hreg'⟩ := htu
  refine ⟨es ++ fs, by rw [htx', htx, List.append_assoc], fun r hr => ?_⟩
  rw [hreg' r fun x hx => hr x (List.mem_append_right es hx), hreg r fun x hx => hr x (List.mem_append_left fs hx)]

theorem Shape.changesAreTransmitted {s t : State} (h : Shape s t) : ChangesAreTransmitted s t := by
  obtain ⟨ws, v, ib, rfl⟩ := h
  obtain ⟨-, -, -, htx, -⟩ := s.writes_fields ws
  refine ⟨writeEvents ws, htx, fun r hr => State.reg_writes_other s ws r fun p hp e => ?_⟩
  exact hr p.2 (e ▸ List.mem_map_of_mem hp)

/-- RESET transmits a write to every register, so it need leave none as it was. -/
theorem resetBlock_changesAreTransmitted (s : State) : ChangesAreTransmitted s (resetBlock s) := by
  obtain ⟨-, -, -, htx, -⟩ := resetBlock_fields s
  refine ⟨resetEvents, htx, fun r hr => absurd ?_ (hr 0)⟩
  exact List.mem_cons_of_mem _ (List.mem_map_of_mem (mem_regAddrs r))

theorem exec_changesAreTransmitted {i : Instr} {s t : State} (h : exec i s = .next t) : ChangesAreTransmitted s t := by
  obtain ⟨rfl, -⟩ | ⟨-, u, hsh, hu⟩ := exec_cases i s
  · obtain rfl := exec_reset_next h
    exact resetBlock_changesAreTransmitted s
  · obtain ⟨-, rfl⟩ := (afterReset_next i s u t).1 (hu ▸ h)
    exact hsh.changesAreTransmitted

/-- Whatever command completes, INIT is 1 after it (R42). -/
theorem init_of_exec_next {i : Instr} {s t : State} (h : exec i s = .next t) : t.init = true := by
  obtain ⟨-, -, -, -, -, -, hinit⟩ := commandsChangeOnlyWhatTheirRulesName i s t h
  exact hinit

/-! Runs of commands. -/

theorem runCommands_cons_next {i : Instr} {is : List Instr} {s t : State} (h : runCommands (i :: is) s = .next t) :
    ∃ u, exec i s = .next u ∧ runCommands is u = .next t := by
  rw [runCommands] at h
  split at h
  · exact ⟨_, ‹_›, h⟩
  · cases h
  · cases h

/-- What every command keeps, every run of commands keeps. -/
theorem runCommands_keeps {P : State → Prop} (hexec : ∀ i s t, P s → exec i s = .next t → P t) {is : List Instr}
    {s t : State} (hs : P s) (h : runCommands is s = .next t) : P t := by
  induction is generalizing s with
  | nil => exact Host.Outcome.next.inj h ▸ hs
  | cons i is ih =>
    obtain ⟨u, hu, hrun⟩ := runCommands_cons_next h
    exact ih (hexec i s u hs hu) hrun

theorem runCommands_changesAreTransmitted {is : List Instr} {s t : State} (h : runCommands is s = .next t) :
    ChangesAreTransmitted s t :=
  runCommands_keeps (fun _ _ _ hu he => hu.trans (exec_changesAreTransmitted he)) (.refl s) h

/-- Settles O18: SETREG leaves `v` in `r`, the run transmits no write to `r` and so leaves it there, and INIT is still 1
for GETREG to read it. -/
theorem getregReturnsTheValueSet : Obligations.GetregReturnsTheValueSet := by
  intro s s1 s2 r v is hset hrun hno
  have hinit : s2.init = true := runCommands_keeps (fun _ _ _ _ he => init_of_exec_next he) (init_of_exec_next hset) hrun
  have hv : s1.reg r = v := by
    obtain ⟨-, rfl⟩ := (afterReset_next _ _ _ _).1 hset
    exact State.reg_wr_self s r v
  obtain ⟨es, htx, hreg⟩ := runCommands_changesAreTransmitted hrun
  rw [htx, List.drop_left] at hno
  rw [(getreg_effect r s2).1 hinit, hreg r hno, hv]

end Sys2Proof.Machine
end

section
/-! Address mapping and frequency conversion (41_address_mapping.md R120, R127-R131). FBLOCK's scan answers the one block
that `BlockOf` describes; its other laws are about that block, not about the scan. -/
namespace Sys2Proof.Machine

/-! The block of a frequency. -/

/-- `b` is the block of the frequency `d` (R129): no threshold before `b` exceeds `d`, and that of `b` does unless `b` is
the last block. -/
def BlockOf (thr : Vector Nat 8) (d : Nat) (b : Fin 8) : Prop :=
  (∀ j : Fin 8, j < b → thr[j] ≤ d) ∧ (d < thr[b] ∨ b = 7)

/-- A higher frequency is in no lower block: the lower block's threshold would exceed it and not the lower frequency. -/
theorem BlockOf.mono {thr : Vector Nat 8} {d e : Nat} {b c : Fin 8} (hb : BlockOf thr d b) (hc : BlockOf thr e c)
    (hde : d ≤ e) : b ≤ c := by
  by_contra hlt
  have hcb : c < b := not_le.1 hlt
  have hthr : thr[c] ≤ d := hb.1 c hcb
  rcases hc.2 with habove | rfl
  · omega
  · exact absurd hcb (not_lt.2 (Fin.le_last b))

theorem BlockOf.unique {thr : Vector Nat 8} {d : Nat} {b c : Fin 8} (hb : BlockOf thr d b) (hc : BlockOf thr d c) : b = c :=
  le_antisymm (hb.mono hc le_rfl) (hc.mono hb le_rfl)

/-- A frequency equal to a threshold is in the block after it, or in the last one. -/
theorem blockOf_threshold {thr : Vector Nat 8} (hthr : thr.toList.Pairwise (· < ·)) (i : Fin 8) :
    BlockOf thr thr[i] ⟨min (i.val + 1) 7, by omega⟩ := by
  have hlt : ∀ j k : Fin 8, j < k → thr[j] < thr[k] := fun j k hjk => by
    simpa using List.pairwise_iff_getElem.1 hthr j.val k.val (by simp) (by simp) hjk
  refine ⟨fun j hj => ?_, ?_⟩
  · have hji : j.val < min (i.val + 1) 7 := hj
    rcases (show j ≤ i by omega).eq_or_lt with rfl | hlow
    · exact le_rfl
    · exact (hlt j i hlow).le
  · by_cases hi : i.val < 7
    · exact .inl (hlt i _ (show i.val < min (i.val + 1) 7 by omega))
    · exact .inr (Fin.ext (show min (i.val + 1) 7 = 7 by omega))

/-- The scan over the thresholds from index `i` on stops at the first that exceeds the frequency, and at 7 at the latest. -/
theorem blockScan_eq_findIdx (d : Nat) (l : List Nat) (i : Nat) (h : i + l.length = 8) :
    blockScan d l i = min (i + l.findIdx (d < ·)) 7 := by
  induction l generalizing i with
  | nil =>
    have hi : i = 8 := h
    rw [hi]
    rfl
  | cons t l ih =>
    rw [List.length_cons] at h
    rw [blockScan, List.findIdx_cons]
    by_cases hd : d < t
    · rw [if_pos hd, decide_eq_true hd, cond_true]
      omega
    · rw [if_neg hd, decide_eq_false hd, cond_false, ih (i + 1) (by omega)]
      omega

/-- FBLOCK's scan ends at the block of the frequency. -/
theorem exists_blockOf (thr : Vector Nat 8) (d : Nat) : ∃ b, BlockOf thr d b ∧ blockScan d thr.toList 0 = b.val := by
  have hscan := blockScan_eq_findIdx d thr.toList 0 (by simp)
  rw [Nat.zero_add] at hscan
  refine ⟨⟨min (thr.toList.findIdx (d < ·)) 7, by omega⟩, ⟨fun j hj => ?_, ?_⟩, hscan⟩
  · have hj' : j.val < thr.toList.findIdx (d < ·) := lt_of_lt_of_le hj (min_le_left _ _)
    simpa using List.not_of_lt_findIdx hj'
  · by_cases hf : thr.toList.findIdx (d < ·) < 7
    · left
      have hlen : thr.toList.findIdx (d < ·) < thr.toList.length := by rw [Vector.length_toList]; omega
      simpa [min_eq_left hf.le] using List.findIdx_getElem (w := hlen)
    · exact .inr (Fin.ext (min_eq_right (not_lt.1 hf)))

/-! The effects of the commands. -/

theorem fblock_effect {s : State} {d : Wide} {b : Fin 8} (hb : BlockOf s.rom.blkthr d.toNat b) :
    Effect (.fblock d) s { s with res := BitVec.ofNat 16 b.val } := by
  obtain ⟨c, hc, hscan⟩ := exists_blockOf s.rom.blkthr d.toNat
  refine effect_of_afterReset rfl ?_
  rw [hscan, hc.unique hb, State.setRes]

/-- Settles O20: FBLOCK answers the frequency's block, which the threshold's law, the default table's first threshold and
monotonicity are about. -/
theorem blockOfAFrequency : Obligations.BlockOfAFrequency := by
  refine ⟨fun s d => ?_, fun s d i hwf hd => ?_, fun s hrom => ?_, fun s t1 t2 d1 d2 hd h1 h2 => ?_⟩
  · obtain ⟨b, hb, -⟩ := exists_blockOf s.rom.blkthr d.toNat
    exact ⟨b, fblock_effect hb, hb⟩
  · obtain ⟨hthr, -⟩ := hwf
    have hb := blockOf_threshold hthr i
    rw [← hd] at hb
    exact fblock_effect hb
  · have hb : BlockOf s.rom.blkthr (0 : Wide).toNat 0 := by
      rw [hrom]
      exact ⟨fun j hj => absurd hj (Fin.not_lt_zero j), .inl (by decide)⟩
    exact fblock_effect hb
  · have hi : s.init = true := exec_next_init (by simp) h1
    obtain ⟨b1, hb1, -⟩ := exists_blockOf s.rom.blkthr d1.toNat
    obtain ⟨b2, hb2, -⟩ := exists_blockOf s.rom.blkthr d2.toNat
    obtain rfl := Host.Outcome.next.inj (((fblock_effect hb1).1 hi).symm.trans h1)
    obtain rfl := Host.Outcome.next.inj (((fblock_effect hb2).1 hi).symm.trans h2)
    have hle : b1.val ≤ b2.val := hb1.mono hb2 hd
    simp only [BitVec.toNat_ofNat]
    omega

theorem regoff_effect (s : State) (a b : Byte) :
    Effect (.regoff a b) s { s with res := s.rom.opoff[op b][ch a].setWidth 16 } := effect_of_afterReset rfl rfl

theorem drumoff_effect (s : State) (a b : Byte) :
    Effect (.drumoff a b) s { s with res := s.rom.drumoff[op b][drum a].setWidth 16 } := effect_of_afterReset rfl rfl

theorem notefnum_effect (s : State) (a : Byte) :
    Effect (.notefnum a) s { s with res := s.rom.notef[note a].setWidth 16 } := effect_of_afterReset rfl rfl

/-- The formula of R120 for its default table. -/
theorem opoffDefault_toNat : ∀ (p : Fin 2) (c : Fin 9),
    opoffDefault[p][c].toNat = 8 * (c.val / 3) + c.val % 3 + 3 * p.val := by decide

/-- A register offset of an operator is none of the gaps. -/
theorem OperatorOffset.not_gap {o : Byte} (h : OperatorOffset o) :
    o.setWidth 16 ∉ [0x06#16, 0x07#16, 0x0E#16, 0x0F#16] := by
  intro hm
  simp only [List.mem_cons, List.not_mem_nil, or_false, BitVec.toNat_eq, BitVec.toNat_setWidth, BitVec.toNat_ofNat] at hm
  obtain ⟨hmod, -⟩ := h
  omega

/-- Settles O19: the two effects, and R120's formula and the gaps read off the default table. -/
theorem offsetQueriesAnswerTheTables : Obligations.OffsetQueriesAnswerTheTables := by
  refine fun s a b => ⟨regoff_effect s a b, drumoff_effect s a b, fun hrom hi => ⟨_, (regoff_effect s a b).1 hi, ?_⟩⟩
  have hopoff : s.rom.opoff = opoffDefault := by rw [hrom]; rfl
  simp only [hopoff]
  refine ⟨?_, OperatorOffset.not_gap (opoffDefault_offset _ _)⟩
  rw [BitVec.toNat_setWidth_of_le (by decide), opoffDefault_toNat]

/-- Settles O21: FFNUM's effect for any layout, at the place the default layout gives the block. -/
theorem fnumberOfAFrequency : Obligations.FnumberOfAFrequency := by
  intro s a d b hf hb hstep
  refine ffnum_effect a d (Fin.ext ?_) hstep
  have hblock := s.currentBlock_val (ch a)
  rw [hf] at hblock
  rw [hblock, hb]
  exact Nat.mod_mod _ 8

/-- Settles O22: NOTEFNUM's effect. -/
theorem fnumberOfANote : Obligations.FnumberOfANote := notefnum_effect

end Sys2Proof.Machine
end

section
/-! The operator fields (42_operator_fields.md): the setter and the getter of every field in any layout, the round trips,
and their case of the default layout. -/
namespace Sys2Proof.Machine

/-! The value a setter writes. -/

/-- The operand's value fits the field, so placing it takes no further mask. -/
theorem BitRange.put_input (f : BitRange) (v c : Byte) :
    f.put v (f.input c) = (v &&& ~~~(f.max <<< f.sh)) ||| (f.input c <<< f.sh) := by
  rw [BitRange.put, BitRange.place, BitRange.input_and_max, BitRange.clear]

theorem BitRange.input_eq_fieldValue (f : BitRange) (c : Byte) : f.input c = fieldValue f.w c := by
  rw [BitRange.input_eq, fieldValue, BitRange.ofNat_mod_two_pow]

/-! Register reads after a setter. -/

theorem State.reg_setField (s : State) (f : BitRange) (addr x q : Byte) :
    (s.setField f addr x).reg q = if q = addr then f.put (s.reg addr) x else s.reg q := by
  rw [State.setField, State.reg_setRes, State.reg_wr]

/-- A field reads as before where it lies in another register or apart from the field set. -/
theorem State.get_reg_setField_apart {s : State} {f g : BitRange} {addr q : Byte} (h : q = addr → f.apart g) (x : Byte) :
    g.get ((s.setField f addr x).reg q) = g.get (s.reg q) := by
  rw [State.reg_setField]
  split
  · rename_i hq
    rw [hq, BitRange.get_put_apart f g _ _ (h hq)]
  · rfl

/-! The effects of the commands, and what they complete with. -/

theorem operatorSetter_effect (f : OpField) {s : State} {a b c r v : Byte} {m : FieldMap} (hm : s.rom.fields = m)
    (hr : r = f.base + s.rom.opoff[op b][ch a]) (hv : (f.range m).put (s.reg r) ((f.range m).input c) = v) :
    Effect (f.setter a b c) s { s.wr r v with res := r.setWidth 16 } := by
  subst hm hr
  exact effect_of_afterReset (exec_setter f a b c s) (setField_eq hv)

theorem operatorGetter_effect (f : OpField) {s : State} {a b r v : Byte} {m : FieldMap} (hm : s.rom.fields = m)
    (hr : r = f.base + s.rom.opoff[op b][ch a]) (hv : (f.range m).get (s.reg r) = v) :
    Effect (f.getter a b) s { s with res := v.setWidth 16 } := by
  subst hm hr hv
  exact effect_of_afterReset (exec_getter f a b s) rfl

theorem exec_setter_next {f : OpField} {s t : State} {a b c : Byte} (h : exec (f.setter a b c) s = .next t) :
    s.init = true ∧ t = setOperatorField f.base (f.range s.rom.fields) a b c s := by
  rwa [exec_setter, afterReset_next] at h

theorem exec_getter_next {f : OpField} {s t : State} {a b : Byte} (h : exec (f.getter a b) s = .next t) :
    s.init = true ∧ t = getOperatorField f.base (f.range s.rom.fields) a b s := by
  rwa [exec_getter, afterReset_next] at h

/-- Settles O25: the two effects, the setter's value by the mask its operand already fits. -/
theorem operatorFieldsFollowTheLayout : Obligations.OperatorFieldsFollowTheLayout := by
  intro f s a b c r max m hm hr hmax
  subst hm hmax
  refine ⟨operatorSetter_effect f rfl hr ?_, operatorGetter_effect f rfl hr rfl⟩
  rw [BitRange.put_input, BitRange.input_eq]
  rfl

/-! The round trips. -/

/-- An operator field that lies in its register reads back what its setter put there. -/
theorem exec_getter_of_setter {f : OpField} {s t : State} {a b c : Byte}
    (hm : (f.range s.rom.fields).sh + (f.range s.rom.fields).w ≤ 8) (h : exec (f.setter a b c) s = .next t) :
    exec (f.getter a b) t = .next { t with res := ((f.range s.rom.fields).input c).setWidth 16 } := by
  obtain ⟨hi, rfl⟩ := exec_setter_next h
  refine (operatorGetter_effect f rfl rfl ?_).1 hi
  show (f.range s.rom.fields).get ((s.setField _ _ _).reg (s.opAddr f.base (ch a) (op b))) = _
  rw [State.reg_setField, if_pos rfl, BitRange.get_put _ _ _ hm, BitRange.input_and_max]

theorem writeFnum_regs (c : Fin 9) (n : BitVec 10) (s : State) :
    (writeFnum c n s).reg (chAddr 0xA0 c) = s.rom.fields.fnum.putLow (s.reg (chAddr 0xA0 c)) n ∧
    (writeFnum c n s).reg (chAddr 0xB0 c) = s.rom.fields.fnum.putHigh (s.reg (chAddr 0xB0 c)) n := by
  have hne := chAddr_ne (show (0xA0 : Byte) ≠ 0xB0 by decide) c
  simp only [writeFnum, State.reg_wr_self, State.reg_wr_other _ _ _ _ hne, State.reg_wr_other _ _ _ _ hne.symm, and_self]

/-- The F-number operand is taken as it is where it is one. -/
theorem fn_setWidth_of_le {f : Half} (h : f.toNat ≤ 1023) : (fn f).setWidth 16 = f := by
  have hf : min (max f.toInt 0) 1023 = f.toNat := by
    rw [BitVec.toInt_eq_toNat_of_lt (by omega)]
    omega
  rw [fn_setWidth, hf, BitVec.ofInt_natCast, BitVec.ofNat_toNat, BitVec.setWidth_eq]

/-- An F-number whose field lies in the pair of registers reads back what SETFNUM wrote. -/
theorem exec_getfnum_of_setfnum {s t : State} {a : Byte} {f : Half} (hw : s.rom.fields.fnum.w = 10)
    (hm : s.rom.fields.fnum.sh + 10 ≤ 16) (h : exec (.setfnum a f) s = .next t) :
    exec (.getfnum a) t = .next { t with res := (fn f).setWidth 16 } := by
  obtain ⟨hi, ht⟩ := (afterReset_next _ _ _ _).1 h
  obtain ⟨hlo, hhi⟩ := writeFnum_regs (ch a) (fn f) s
  have hti : t.init = true := by rw [ht]; exact hi
  have hn : t.fnum (ch a) = (fn f).setWidth 16 := by
    rw [ht, State.fnum, State.reg_setRes, State.reg_setRes, hlo, hhi]
    exact BitRange.pairGet_put _ _ _ _ hw hm
  refine (afterReset_of_init _ _ _ hti).trans ?_
  rw [hn, State.setRes]

/-- Settles O26: both round trips, the operands as the values they stand for. -/
theorem fieldsReadBackWhatWasSet : Obligations.FieldsReadBackWhatWasSet := by
  refine ⟨fun f s t a b c m hm hsh h => ?_, fun s t a f m hm hw hsh hf h => ?_⟩
  · subst hm
    rw [← BitRange.input_eq_fieldValue]
    exact exec_getter_of_setter hsh h
  · subst hm
    have hback := exec_getfnum_of_setfnum hw (hw ▸ hsh) h
    rwa [fn_setWidth_of_le hf] at hback

/-! Independence of the fields in the default tables. -/

/-- Two operators have different offsets. -/
theorem opoffDefault_inj : ∀ (p q : Fin 2) (c d : Fin 9), opoffDefault[p][c] = opoffDefault[q][d] → c = d ∧ p = q := by
  decide

/-- The register of an operator field tells its base and its offset: bases are 32 apart, and offsets are below 22. -/
theorem OpField.base_add_inj {f g : OpField} {o k : Byte} (ho : OperatorOffset o) (hk : OperatorOffset k)
    (h : f.base + o = g.base + k) : f.base = g.base ∧ o = k := by
  obtain ⟨hf32, hf, -⟩ := f.base_toNat
  obtain ⟨hg32, hg, -⟩ := g.base_toNat
  obtain ⟨-, ho⟩ := ho
  obtain ⟨-, hk⟩ := hk
  have hnat := congrArg BitVec.toNat h
  rw [BitVec.toNat_add, BitVec.toNat_add] at hnat
  constructor <;> apply BitVec.eq_of_toNat_eq <;> omega

/-- The default layout puts no two fields of one register on the same bit: a check of each pair of fields. -/
theorem OpField.range_apart (f g : OpField) : f ≠ g → f.base = g.base →
    (f.range fieldMapDefault).apart (g.range fieldMapDefault) := by
  cases f <;> cases g <;> decide

/-- Operator fields that share a register in the default tables are of one operator, so either the same or apart. -/
theorem operatorFields_apart {f g : OpField} {c d : Fin 9} {p q : Fin 2} (hne : (f, c, p) ≠ (g, d, q))
    (h : g.base + opoffDefault[q][d] = f.base + opoffDefault[p][c]) :
    (f.range fieldMapDefault).apart (g.range fieldMapDefault) := by
  obtain ⟨hbase, hoff⟩ := OpField.base_add_inj (opoffDefault_offset q d) (opoffDefault_offset p c) h
  obtain ⟨rfl, rfl⟩ := opoffDefault_inj q p d c hoff
  exact OpField.range_apart f g (fun hfg => hne (by rw [hfg])) hbase.symm

/-- Settles O27: another field lies in another register, or in the same one apart. -/
theorem operatorFieldsAreIndependent : Obligations.OperatorFieldsAreIndependent := by
  intro f g s t u v a b c a' b' hrom hne ht hu hv
  obtain ⟨-, rfl⟩ := exec_setter_next ht
  obtain ⟨-, rfl⟩ := exec_getter_next hu
  obtain ⟨-, rfl⟩ := exec_getter_next hv
  refine congrArg (BitVec.setWidth 16) (State.get_reg_setField_apart (fun haddr => ?_) _)
  simp only [setOperatorField, State.setField_rom, State.opAddr, hrom] at haddr ⊢
  exact operatorFields_apart hne haddr

/-! The default layout. -/

theorem operatorSetter_effect_of_bit (f : OpField) {s : State} {a b c r v : Byte} {m : FieldMap} (hm : s.rom.fields = m)
    (hr : r = f.base + s.rom.opoff[op b][ch a]) (hw : (f.range m).w = 1) (hv : (f.range m).put (s.reg r) (bit c) = v) :
    Effect (f.setter a b c) s { s.wr r v with res := r.setWidth 16 } :=
  operatorSetter_effect f hm hr (by rw [BitRange.input_eq, if_pos hw, hv])

theorem operatorSetter_effect_of_wide (f : OpField) {s : State} {a b c r v : Byte} {m : FieldMap} (hm : s.rom.fields = m)
    (hr : r = f.base + s.rom.opoff[op b][ch a]) (hw : (f.range m).w ≠ 1) (hv : (f.range m).put (s.reg r) c = v) :
    Effect (f.setter a b c) s { s.wr r v with res := r.setWidth 16 } :=
  operatorSetter_effect f hm hr (by rw [BitRange.input_eq, if_neg hw, BitRange.put_and_max, hv])

/-- Settles O23: the setters' effect for any layout, each value by its field's mask in the default one. -/
theorem operatorFieldSetters : Obligations.OperatorFieldSetters := by
  intro s a b c o r2 r4 r6 r8 rE hm ho h2 h4 h6 h8 hE
  subst ho
  refine ⟨operatorSetter_effect_of_bit .trem hm h2 rfl ?_, operatorSetter_effect_of_bit .vib hm h2 rfl ?_,
    operatorSetter_effect_of_bit .sush hm h2 rfl ?_, operatorSetter_effect_of_bit .ksr hm h2 rfl ?_,
    operatorSetter_effect_of_wide .mult hm h2 (by decide) (FieldMap.mult_put _ _),
    operatorSetter_effect_of_wide .ksl hm h4 (by decide) (FieldMap.ksl_put _ _),
    operatorSetter_effect_of_wide .lvl hm h4 (by decide) (FieldMap.lvl_put _ _),
    operatorSetter_effect_of_wide .atk hm h6 (by decide) (FieldMap.atk_put _ _),
    operatorSetter_effect_of_wide .dec hm h6 (by decide) (FieldMap.dec_put _ _),
    operatorSetter_effect_of_wide .susl hm h8 (by decide) (FieldMap.susl_put _ _),
    operatorSetter_effect_of_wide .rel hm h8 (by decide) (FieldMap.rel_put _ _),
    operatorSetter_effect_of_wide .wave hm hE (by decide) (FieldMap.wave_put _ _)⟩
  · rw [OpField.range, FieldMap.trem_put, bit_and_one]
  · rw [OpField.range, FieldMap.vib_put, bit_and_one]
  · rw [OpField.range, FieldMap.sush_put, bit_and_one]
  · rw [OpField.range, FieldMap.ksr_put, bit_and_one]

/-- Settles O24: the getters' effect for any layout, each field at its place in the default one. -/
theorem operatorFieldGetters : Obligations.OperatorFieldGetters := by
  intro s a b o v hm ho hv
  subst ho hv
  exact ⟨operatorGetter_effect .trem hm rfl (FieldMap.trem_get _), operatorGetter_effect .vib hm rfl (FieldMap.vib_get _),
    operatorGetter_effect .sush hm rfl (FieldMap.sush_get _), operatorGetter_effect .ksr hm rfl (FieldMap.ksr_get _),
    operatorGetter_effect .mult hm rfl (FieldMap.mult_get _), operatorGetter_effect .ksl hm rfl (FieldMap.ksl_get _),
    operatorGetter_effect .lvl hm rfl (FieldMap.lvl_get _), operatorGetter_effect .atk hm rfl (FieldMap.atk_get _),
    operatorGetter_effect .dec hm rfl (FieldMap.dec_get _), operatorGetter_effect .susl hm rfl (FieldMap.susl_get _),
    operatorGetter_effect .rel hm rfl (FieldMap.rel_get _), operatorGetter_effect .wave hm rfl (FieldMap.wave_get _)⟩

end Sys2Proof.Machine
end

section
/-! The channel fields (43_channel_fields.md) in the default layout. -/
namespace Sys2Proof.Machine

/-! The values written. -/

/-- An F-number with the value the clamp of R200 gives is the operand's. -/
theorem eq_fn_of_toNat {f : Half} {n : BitVec 10}
    (h : (n.toNat : Int) = min (max (f.signExtend 32).toInt 0) 1023) : n = fn f := by
  rw [BitVec.toInt_signExtend_of_le (by decide), ← fn_toNat] at h
  exact BitVec.eq_of_toNat_eq (Int.natCast_inj.1 h)

/-- A block fits its field. -/
theorem blk_and_seven (b : Byte) : (blk b).setWidth 8 &&& 0x07 = (blk b).setWidth 8 := by
  have hfits : ∀ x : BitVec 3, x.setWidth 8 &&& (0x07 : Byte) = x.setWidth 8 := by decide
  exact hfits (blk b)

theorem writeFnum_default (c : Fin 9) (n : BitVec 10) {s s1 : State} (hm : s.rom.fields = fieldMapDefault)
    (hs1 : s1 = s.wr (chAddr 0xA0 c) (BitVec.ofNat 8 (n.toNat % 256))) :
    writeFnum c n s = s1.wr (chAddr 0xB0 c) ((s1.reg (chAddr 0xB0 c) &&& 0xFC) ||| BitVec.ofNat 8 (n.toNat / 256)) := by
  rw [writeFnum, hm, FieldMap.fnum_putLow, ← hs1, FieldMap.fnum_putHigh]

/-! The effects of the commands. -/

theorem channelSetter_effect {i : Instr} {s : State} {base a r x v : Byte} {f : BitRange}
    (h : exec i s = afterReset i s (setChannelField base f (ch a) x s)) (hr : r = chAddr base (ch a))
    (hv : f.put (s.reg r) x = v) : Effect i s { s.wr r v with res := r.setWidth 16 } := by
  subst hr
  exact effect_of_afterReset h (setField_eq hv)

theorem channelGetter_effect {i : Instr} {s : State} {base a v : Byte} {f : BitRange}
    (h : exec i s = afterReset i s (getChannelField base f (ch a) s)) (hv : f.get (s.reg (chAddr base (ch a))) = v) :
    Effect i s { s with res := v.setWidth 16 } := by
  subst hv
  exact effect_of_afterReset h rfl

/-- Settles O28: the two writes of the clamped F-number, each by its register in the default layout. -/
theorem setfnumWritesBothRegisters : Obligations.SetfnumWritesBothRegisters := by
  intro s s1 a lo hi f n hm hn hlo hhi hs1
  obtain rfl := eq_fn_of_toNat hn
  subst hlo hhi
  exact effect_of_afterReset rfl (congrArg (State.setRes · _) (writeFnum_default (ch a) (fn f) hm hs1))

/-- Settles O29: the pair of registers read in the default layout. -/
theorem getfnumJoinsBothRegisters : Obligations.GetfnumJoinsBothRegisters := by
  intro s a lo hi hm hlo hhi
  subst hlo hhi
  refine effect_of_afterReset rfl (congrArg s.setRes ?_)
  rw [State.fnum, hm]
  exact FieldMap.fnum_pairGet _ _

/-- Settles O30: the setters' shared effect, each value by its field's mask in the default layout. -/
theorem channelSetters : Obligations.ChannelSetters := by
  intro s a b r q hm hr hq
  refine ⟨channelSetter_effect rfl hr ?_, channelSetter_effect rfl hr ?_, channelSetter_effect rfl hq ?_,
    channelSetter_effect rfl hq ?_⟩
  · rw [hm, FieldMap.blk_put, blk_and_seven, blk_setWidth]
  · rw [hm, FieldMap.key_put, boolOf_setWidth, bit_and_one]
  · rw [BitRange.put_and_max, hm, FieldMap.fb_put]
  · rw [hm, FieldMap.syn_put, boolOf_setWidth, bit_and_one]

/-- Settles O31: the getters' shared effect, each field at its place in the default layout. -/
theorem channelGetters : Obligations.ChannelGetters := by
  intro s a v u hm hv hu
  subst hv hu
  refine ⟨channelGetter_effect rfl ?_, channelGetter_effect rfl ?_, channelGetter_effect rfl ?_, channelGetter_effect rfl ?_⟩
  · rw [hm]; exact FieldMap.blk_get _
  · rw [hm]; exact FieldMap.key_get _
  · rw [hm]; exact FieldMap.fb_get _
  · rw [hm]; exact FieldMap.syn_get _

end Sys2Proof.Machine
end

section
/-! The chip-wide fields (44_global_fields.md R230-R237), and the writes of PLAYNOTE and PLAYDRUM in any layout
(46_playback.md R290, R291). -/
namespace Sys2Proof.Machine

/-! SETDRUMS5's mask. -/

theorem drumBitIf_eq (s : State) (d : Fin 5) (x : Byte) : drumBitIf s d x = s.rom.drumbit[d] * bit x := by
  unfold drumBitIf boolOf bit
  split
  · exact BitVec.mul_zero.symm
  · exact (BitVec.mul_one _).symm

theorem drumsMask_eq (s : State) (bass snare tom cymbal hihat : Byte) : drumsMask s bass snare tom cymbal hihat =
    (s.rom.drumbit[(0 : Fin 5)] * bit bass ||| s.rom.drumbit[(1 : Fin 5)] * bit snare |||
      s.rom.drumbit[(2 : Fin 5)] * bit tom ||| s.rom.drumbit[(3 : Fin 5)] * bit cymbal |||
      s.rom.drumbit[(4 : Fin 5)] * bit hihat) := by
  simp only [drumsMask, drumBitIf_eq]

/-- With the default table drum `d`'s bit is bit 4 - d (41_address_mapping.md R123). -/
theorem drumBitIf_default {s : State} (h : s.rom = romDefault) (d : Fin 5) (x : Byte) :
    drumBitIf s d x = bit x <<< (4 - d.val) := by
  have hbits : ∀ e : Fin 5, drumbitDefault[e] * 0 = 0 <<< (4 - e.val) ∧ drumbitDefault[e] * 1 = 1 <<< (4 - e.val) := by
    decide
  rw [drumBitIf_eq, h]
  unfold bit
  split
  · exact (hbits d).1
  · exact (hbits d).2

theorem drumsMask_default {s : State} (h : s.rom = romDefault) (bass snare tom cymbal hihat : Byte) :
    drumsMask s bass snare tom cymbal hihat =
      ((bit bass <<< 4) ||| (bit snare <<< 3) ||| (bit tom <<< 2) ||| (bit cymbal <<< 1) ||| bit hihat) := by
  simp [drumsMask, drumBitIf_default h]

/-- Bits that no drum's enable bit touches are 0 in the mask. -/
theorem drumsMask_and {s : State} {k : Byte} (h : ∀ d : Fin 5, s.rom.drumbit[d] &&& k = 0)
    (bass snare tom cymbal hihat : Byte) : drumsMask s bass snare tom cymbal hihat &&& k = 0 := by
  have hd (d : Fin 5) (x : Byte) : drumBitIf s d x &&& k = 0 := by
    unfold drumBitIf
    split
    · exact h d
    · exact BitVec.zero_and
  rw [drumsMask, or_and (hd _ _), or_and (hd _ _), or_and (hd _ _), or_and (hd _ _), hd]

/-! The drum bits of 0xBD. -/

theorem FieldMap.drums_clear (v : Byte) : fieldMapDefault.drums.clear v = v &&& 0xE0 := rfl

theorem BitRange.clear_clear (f : BitRange) (v : Byte) : f.clear (f.clear v) = f.clear v := by
  simp only [BitRange.clear, BitVec.and_assoc, BitVec.and_self]

theorem setdrums5_effect {s s1 : State} {bass snare tom cymbal hihat m : Byte}
    (hs1 : s1 = s.wr 0xBD (s.rom.fields.drums.clear (s.reg 0xBD))) (hmask : drumsMask s bass snare tom cymbal hihat = m) :
    Effect (.setdrums5 bass snare tom cymbal hihat) s
      { s1.wr 0xBD (s.rom.fields.drums.clear (s1.reg 0xBD) ||| m) with res := 0x00BD } := by
  subst hs1 hmask
  exact effect_of_afterReset rfl rfl

/-- With drum bits in bits 4:0, SETDRUMS5 keeps bits 7:5 of 0xBD in the default layout. -/
theorem exec_setdrums5_keeps_E0 {s u : State} {bass snare tom cymbal hihat : Byte} (hm : s.rom.fields = fieldMapDefault)
    (hbit : ∀ d : Fin 5, s.rom.drumbit[d] ∈ [0x10#8, 0x08#8, 0x04#8, 0x02#8, 0x01#8])
    (h : exec (.setdrums5 bass snare tom cymbal hihat) s = .next u) : u.reg 0xBD &&& 0xE0 = s.reg 0xBD &&& 0xE0 := by
  have hlow : ∀ v ∈ [0x10#8, 0x08#8, 0x04#8, 0x02#8, 0x01#8], v &&& 0xE0 = 0 := by decide
  have hmask := drumsMask_and (fun d => hlow _ (hbit d)) bass snare tom cymbal hihat
  have hclear (v : Byte) : s.rom.fields.drums.clear v &&& 0xE0 = v &&& 0xE0 := by
    rw [hm, FieldMap.drums_clear, BitVec.and_assoc, BitVec.and_self]
  refine exec_keeps_bits (keep := fun _ => 0xE0) (by simp) h ?_ 0xBD
  rw [Instr.updates, drumsUpdates, List.forall_mem_cons, List.forall_mem_singleton]
  exact ⟨hclear, fun v => (or_and hmask _).trans (hclear v)⟩

/-- Settles O33: the two writes in the default layout, SETDRUMS5's mask by its table, which touches no bit of 7:5 where the
drum bits lie in bits 4:0. -/
theorem drumMasksAreClearedThenSet : Obligations.DrumMasksAreClearedThenSet := by
  intro s s1 hm hs1
  have hx : s.rom.fields.drums.clear (s.reg 0xBD) = s.reg 0xBD &&& 0xE0 := by rw [hm, FieldMap.drums_clear]
  have hclear : s1 = s.wr 0xBD (s.rom.fields.drums.clear (s.reg 0xBD)) := by rw [hx, hs1]
  refine ⟨fun a => ?_, fun b n t c h hrom => ?_, fun b n t c h => ?_, fun b n t c h u hbit hu => ?_⟩
  · have he := setdrums_effect a (hx.symm : s.reg 0xBD &&& 0xE0 = _)
    rw [hm, ← hs1] at he
    have hreg : s1.reg 0xBD = s.reg 0xBD &&& 0xE0 := by rw [hs1, State.reg_wr_self]
    rwa [hreg, ← FieldMap.drums_put]
  · have he := setdrums5_effect hclear (drumsMask_default hrom b n t c h)
    rwa [hm] at he
  · have he := setdrums5_effect hclear (drumsMask_eq s b n t c h)
    rwa [hm] at he
  · exact exec_setdrums5_keeps_E0 hm hbit hu

/-- Settles O32: each command's field at its place in the default layout. -/
theorem globalFieldSettersAndGetters : Obligations.GlobalFieldSettersAndGetters := by
  intro s a hm
  refine ⟨effect_of_afterReset rfl (setField_eq ?_), effect_of_afterReset rfl (setField_eq ?_),
    effect_of_afterReset rfl ?_, effect_of_afterReset rfl ?_, effect_of_afterReset rfl ?_⟩
  · rw [hm, FieldMap.wse_put, boolOf_setWidth, bit_and_one]
  · rw [hm, FieldMap.perc_put, boolOf_setWidth, bit_and_one]
  · rw [State.getField, hm, FieldMap.wse_get, State.setRes]
  · rw [State.getField, hm, FieldMap.perc_get, State.setRes]
  · rw [State.getField, hm, FieldMap.drums_get, State.setRes]

/-! The writes of PLAYNOTE and PLAYDRUM. -/

/-- The high register with F-number and block replaced, by the pair of registers. -/
theorem putPitch_eq (m : FieldMap) (hi lo b : Byte) (f : BitVec 10) : putPitch m hi (oct b) f =
    fieldReplaced m.blk ((pairReplaced m.fnum (hi ++ lo) (f.setWidth 16) >>> 8).setWidth 8)
      (BitVec.ofNat 8 (min b.toNat 7)) := by
  rw [putPitch, BitRange.putHigh_eq m.fnum hi lo, show oct b = blk b from rfl, blk_setWidth]
  rfl

theorem playnote_effect {s : State} {a b c v : Byte} {p : Half} {m : FieldMap} (hm : m = s.rom.fields)
    (hv : v = m.key.clear (s.reg (chAddr 0xB0 (ch a))))
    (hp : p = pairReplaced m.fnum (v ++ s.reg (chAddr 0xA0 (ch a))) (s.rom.notef[note c].setWidth 16)) :
    Effect (.playnote a b c) s (s.writes [(chAddr 0xB0 (ch a), v), (chAddr 0xA0 (ch a), p.setWidth 8),
      (chAddr 0xB0 (ch a),
        fieldReplaced m.key (fieldReplaced m.blk ((p >>> 8).setWidth 8) (BitVec.ofNat 8 (min b.toNat 7))) 1)]) := by
  have hne := chAddr_ne (show (0xA0 : Byte) ≠ 0xB0 by decide) (ch a)
  refine effect_of_afterReset rfl ?_
  rw [playNote, ← hm, ← hv, State.reg_wr_other _ _ _ _ hne, State.reg_wr_other _ _ _ _ hne.symm, State.reg_wr_self,
    BitRange.putLow_eq m.fnum v, putPitch_eq m v (s.reg (chAddr 0xA0 (ch a))), ← hp]
  rfl

theorem fnumLow_ne_BD : ∀ c, chAddr 0xA0 c ≠ 0xBD := by decide
theorem block_ne_BD : ∀ c, chAddr 0xB0 c ≠ 0xBD := by decide

theorem playdrum_effect {s s1 : State} {a b c : Byte} {k : Fin 9} {p : Half} {m : FieldMap} (hm : m = s.rom.fields)
    (hk : k = s.rom.drumch[drum a])
    (hp : p = pairReplaced m.fnum (s.reg (chAddr 0xB0 k) ++ s.reg (chAddr 0xA0 k)) (s.rom.notef[note c].setWidth 16))
    (hs1 : s1 = s.writes [(0xBD, s.reg 0xBD &&& ~~~s.rom.drumbit[drum a]), (chAddr 0xA0 k, p.setWidth 8),
      (chAddr 0xB0 k, fieldReplaced m.blk ((p >>> 8).setWidth 8) (BitVec.ofNat 8 (min b.toNat 7)))]) :
    Effect (.playdrum a b c) s (s1.wr 0xBD (s1.reg 0xBD ||| s.rom.drumbit[drum a])) := by
  have hne := chAddr_ne (show (0xB0 : Byte) ≠ 0xA0 by decide) k
  refine effect_of_afterReset rfl ?_
  rw [playDrum, ← hm, ← hk, State.reg_wr_other _ _ _ _ (fnumLow_ne_BD k), State.reg_wr_other _ _ _ _ hne,
    State.reg_wr_other _ _ _ _ (block_ne_BD k), BitRange.putLow_eq m.fnum (s.reg (chAddr 0xB0 k)),
    putPitch_eq m _ (s.reg (chAddr 0xA0 k)), ← hp, hs1]
  rfl

/-- Settles O47: the three commands by their effects; clearing the drum field twice is clearing it once. -/
theorem drumsAndPlaybackFollowTheLayout : Obligations.DrumsAndPlaybackFollowTheLayout := by
  refine ⟨fun s b n t c h x m hm hx => ?_, fun s a b c r q v p m hm hr hq hv hp => ?_,
    fun s s1 a b c r q p m hm hr hq hp hs1 => ?_⟩
  · subst hm
    have he := setdrums5_effect rfl (drumsMask_eq s b n t c h)
    rwa [State.reg_wr_self, BitRange.clear_clear, show s.rom.fields.drums.clear (s.reg 0xBD) = x from hx.symm] at he
  · subst hr hq
    exact playnote_effect hm hv hp
  · subst hr hq
    exact playdrum_effect hm rfl hp hs1

end Sys2Proof.Machine
end

section
/-! The instrument codec (45_instrument_codec.md): INST_CREATE, the volume scaling of R260, and what INST_LOAD, INST_GET and
INST_GET_DRUM read (R252, R257-R259), in any layout and then in the default one. -/
namespace Sys2Proof.Machine

/-- Settles O35: INST_CREATE's effect is its rule's. -/
theorem instCreateEmptiesTheBuffer : Obligations.InstCreateEmptiesTheBuffer :=
  fun _ => effect_of_afterReset rfl rfl

/-! Volume scaling. -/

/-- Scaling never lengthens the distance of a level from 63. -/
theorem scaled_distance_le (l : BitVec 6) (v : Half) :
    ((63 - l.toNat) * min v.toNat 0x8000 + 0x4000) / 0x8000 ≤ 63 - l.toNat := by
  have h : (63 - l.toNat) * min v.toNat 0x8000 ≤ (63 - l.toNat) * 0x8000 := Nat.mul_le_mul_left _ (Nat.min_le_right _ _)
  omega

theorem scale_toNat (l : BitVec 6) (v : Half) :
    (scale l v).toNat = 63 - ((63 - l.toNat) * min v.toNat 0x8000 + 0x4000) / 0x8000 := by
  rw [scale, BitVec.toNat_ofNat, Nat.mod_eq_of_lt (by omega)]

theorem scale_one (l : BitVec 6) : scale l 0x8000 = l := by
  apply BitVec.eq_of_toNat_eq
  have hv : min (BitVec.toNat (0x8000 : Half)) 0x8000 = 0x8000 := rfl
  rw [scale_toNat, hv]
  omega

theorem scale_zero (l : BitVec 6) : scale l 0 = 63 := by
  apply BitVec.eq_of_toNat_eq
  have hv : min (BitVec.toNat (0 : Half)) 0x8000 = 0 := rfl
  rw [scale_toNat, hv, Nat.mul_zero]
  rfl

/-- Settles O39: the scaled distance from 63 is at most 63, so no subtraction and no cut to six bits loses anything. -/
theorem volumeScalesTheLevel : Obligations.VolumeScalesTheLevel := by
  refine fun l v => ⟨?_, scale_one l, scale_zero l⟩
  have h := scaled_distance_le l v
  rw [scale_toNat, Int.ofNat_sub (by omega)]
  push_cast [show l.toNat ≤ 63 by omega]
  rfl

/-! Fields of a byte as numbers. -/

theorem BitRange.get_toNat (f : BitRange) (v : Byte) : (f.get v).toNat = fieldNumber f v := by
  apply Nat.eq_of_testBit_eq
  intro i
  show (f.get v).getLsbD i = _
  rw [BitRange.get_bit, Nat.testBit_mod_two_pow, Nat.testBit_div_two_pow, Nat.add_comm i, ← BitVec.getLsbD]
  by_cases h : i < 8
  · simp [h, Bool.and_comm]
  · simp [h, BitVec.getLsbD_of_ge v (f.sh + i) (by omega)]

/-- A field cut to `n` bits. -/
theorem BitRange.get_setWidth (f : BitRange) (v : Byte) (n : Nat) :
    (f.get v).setWidth n = BitVec.ofNat n (fieldNumber f v) := by
  rw [← BitRange.get_toNat, BitVec.ofNat_toNat]

theorem operatorOfBytes_encodedIn (m : FieldMap) (k0 k1 k2 k3 : Byte) (w : BitVec 2) :
    operatorEncodedIn m (operatorOfBytes m k0 k1 k2 k3 w) k0 k1 k2 k3 := by
  and_intros <;> exact BitRange.get_setWidth _ _ _

theorem readOp_readIn (o : Byte) (s : State) : operatorReadIn s (readOp o s) o :=
  ⟨operatorOfBytes_encodedIn _ _ _ _ _ _, BitRange.get_setWidth _ _ _⟩

theorem extractLsb'_toNat (v : Byte) (i n : Nat) : (v.extractLsb' i n).toNat = v.toNat / 2 ^ i % 2 ^ n := by
  rw [BitVec.extractLsb'_toNat, Nat.shiftRight_eq_div_pow]

theorem blobWave_toNat (k : Byte) : (blobWave k).toNat = k.toNat % 4 := by
  rw [blobWave, extractLsb'_toNat, Nat.pow_zero, Nat.div_one]
  rfl

theorem typeOf_eq (t : Byte) : typeOf t = if t.toNat = 6 then .bass else if t.toNat = 7 then .snare
    else if t.toNat = 8 then .tom else if t.toNat = 9 then .cymbal else if t.toNat = 10 then .hiHat else .melodic := by
  unfold typeOf
  split <;> simp_all

theorem drumType_eq : ∀ d : Fin 5, drumType d = if d = 0 then .bass else if d = 1 then .snare else if d = 2 then .tom
    else if d = 3 then .cymbal else .hiHat := by decide

theorem readDrum_op (d : Fin 5) (s : State) (p : Fin 2) : (readDrum d s).op p = readDrumOp p d s := by
  fin_cases p <;> rfl

/-- The instrument of a blob, by its twelve bytes. -/
theorem loadBlob_bytes {s : State} {sp : BitVec 1} {base : Wide} {y : Nat → Byte}
    (hy : ∀ i, i < 12 → y i = s.blobRead sp (base + BitVec.ofNat 32 i)) : loadBlob sp base s =
      { op0 := operatorOfBytes s.rom.fields (y 1) (y 2) (y 3) (y 4) (blobWave (y 5))
        op1 := operatorOfBytes s.rom.fields (y 7) (y 8) (y 9) (y 10) (blobWave (y 11))
        fb := (y 6).extractLsb' 1 3
        add := (y 6).extractLsb' 0 1
        type := typeOf (y 0) } := by
  rw [hy 0 (by decide), hy 1 (by decide), hy 2 (by decide), hy 3 (by decide), hy 4 (by decide), hy 5 (by decide),
    hy 6 (by decide), hy 7 (by decide), hy 8 (by decide), hy 9 (by decide), hy 10 (by decide), hy 11 (by decide)]
  rfl

/-- Settles O42: each field read is the number at its place, cut to its width in IB. -/
theorem instrumentReadsFollowTheLayout : Obligations.InstrumentReadsFollowTheLayout := by
  refine ⟨fun s sp base y hy => ⟨loadBlob sp base s, effect_of_afterReset rfl rfl, ?_⟩,
    fun s a k hk => ⟨readChannel (ch a) s, effect_of_afterReset rfl rfl, readOp_readIn _ s, readOp_readIn _ s, ?_⟩,
    fun s a => ⟨readDrum (drum a) s, effect_of_afterReset rfl rfl, fun p o ho => ?_, rfl, rfl, drumType_eq _⟩⟩
  · rw [loadBlob_bytes hy]
    refine ⟨operatorOfBytes_encodedIn _ _ _ _ _ _, blobWave_toNat _, operatorOfBytes_encodedIn _ _ _ _ _ _,
      blobWave_toNat _, extractLsb'_toNat _ _ _, ?_, typeOf_eq _⟩
    rw [extractLsb'_toNat, Nat.pow_zero, Nat.div_one]
    rfl
  · subst hk
    exact ⟨BitRange.get_setWidth _ _ _, BitRange.get_setWidth _ _ _, rfl⟩
  · rw [readDrum_op, readDrumOp, ← ho]
    refine ⟨fun h => if_pos h, fun h => ?_⟩
    rw [if_neg h]
    exact readOp_readIn o s

/-! The default layout. -/

/-- The places of the default layout written out (R252, R255). -/
theorem operatorEncoded_of_encodedIn {x : Operator} {k0 k1 k2 k3 k4 : Byte}
    (h : operatorEncodedIn fieldMapDefault x k0 k1 k2 k3) (hw : x.wave.toNat = k4.toNat % 4) :
    operatorEncoded x k0 k1 k2 k3 k4 := by
  obtain ⟨h1, h2, h3, h4, h5, h6, h7, h8, h9, h10, h11⟩ := h
  simp only [operatorEncoded, h1, h2, h3, h4, h5, h6, h7, h8, h9, h10, h11, fieldNumber, fieldMapDefault,
    BitVec.toNat_ofNat]
  and_intros <;> omega

theorem operatorEncoded_of_readIn {s : State} {x : Operator} {o : Byte} (hm : s.rom.fields = fieldMapDefault)
    (h : operatorReadIn s x o) : operatorEncoded x (s.reg (0x20 + o)) (s.reg (0x40 + o)) (s.reg (0x60 + o))
      (s.reg (0x80 + o)) (s.reg (0xE0 + o)) := by
  obtain ⟨hx, hw⟩ := h
  rw [hm] at hx hw
  refine operatorEncoded_of_encodedIn hx ?_
  simp only [hw, fieldNumber, fieldMapDefault, BitVec.toNat_ofNat]
  omega

/-- Settles O36: INST_LOAD of any layout, in the default one. -/
theorem instLoadDecodesTheBlob : Obligations.InstLoadDecodesTheBlob := by
  intro s sp base y hm hy
  obtain ⟨hload, -, -⟩ := instrumentReadsFollowTheLayout
  obtain ⟨v, heff, h0, hw0, h1, hw1, hrest⟩ := hload s sp base y hy
  rw [hm] at h0 h1
  exact ⟨v, heff, operatorEncoded_of_encodedIn h0 hw0, operatorEncoded_of_encodedIn h1 hw1, hrest⟩

/-- Settles O37: INST_GET of any layout, in the default one. -/
theorem instGetReadsTheChannel : Obligations.InstGetReadsTheChannel := by
  intro s a o0 o1 k hm ho0 ho1 hk
  subst ho0 ho1
  obtain ⟨-, hget, -⟩ := instrumentReadsFollowTheLayout
  obtain ⟨v, heff, h0, h1, hfb, hadd, htype⟩ := hget s a k hk
  refine ⟨v, heff, operatorEncoded_of_readIn hm h0, operatorEncoded_of_readIn hm h1, ?_, ?_, htype⟩
  · simp only [hfb, hm, fieldNumber, fieldMapDefault, BitVec.toNat_ofNat]
    omega
  · simp only [hadd, hm, fieldNumber, fieldMapDefault, BitVec.toNat_ofNat]
    omega

/-- Settles O38: INST_GET_DRUM of any layout, in the default one. -/
theorem instGetDrumReadsTheDrum : Obligations.InstGetDrumReadsTheDrum := by
  intro s a hm
  obtain ⟨-, -, hget⟩ := instrumentReadsFollowTheLayout
  obtain ⟨v, heff, hop, hrest⟩ := hget s a
  refine ⟨v, heff, fun p o ho => ?_, hrest⟩
  obtain ⟨hunused, hused⟩ := hop p o ho
  exact ⟨hunused, fun h => operatorEncoded_of_readIn hm (hused h)⟩

end Sys2Proof.Machine
end

section
/-! The writes of INST_SET and INST_SET_DRUM (45_instrument_codec.md R255, R261, R263), in any layout and in the default
one. -/
namespace Sys2Proof.Machine

/-! Any layout. -/

/-- The whole-register updates of an operator are its writes in every state. -/
theorem State.updates_opUpdates (s : State) (m : FieldMap) (o : Byte) (x : Operator) (v : Half) :
    s.updates (opUpdates m o x v) = s.writes (operatorWritesIn m o x v) := rfl

theorem State.updates_drumOpUpdates (s t : State) (p : Fin 2) (d : Fin 5) (v : Half) :
    t.updates (drumOpUpdates s p d v) = t.writes (if s.rom.drumoff[p][d] = 0xFF then [] else
      operatorWritesIn s.rom.fields s.rom.drumoff[p][d] (s.ib.op p) v) := by
  unfold drumOpUpdates
  split
  · rfl
  · exact State.updates_opUpdates _ _ _ _ _

/-- The frame of INST_SET and INST_SET_DRUM, where each operator's updates are writes. -/
theorem State.updates_instUpdates_eq_writes {s s1 : State} {m : FieldMap} {us vs : List Update}
    {ws xs : List (Byte × Byte)} (hus : ∀ t : State, t.updates us = t.writes ws)
    (hvs : ∀ t : State, t.updates vs = t.writes xs)
    (hs1 : s1 = s.writes ((0x01, fieldReplaced m.wse (s.reg 0x01) 1) :: (ws ++ xs))) (c : Fin 9) (fb : BitVec 3)
    (add : BitVec 1) : s.updates (instUpdates m c fb add (us ++ vs)) =
      s1.wr (chAddr 0xC0 c) (putFeedback m (s1.reg (chAddr 0xC0 c)) fb add) := by
  rw [State.updates_instUpdates, State.updates_append, hus, hvs, ← State.writes_append, hs1]
  rfl

theorem writeChannel_eq_writes {s s1 : State} {c : Fin 9} {v : Half}
    (hs1 : s1 = s.writes ((0x01, fieldReplaced s.rom.fields.wse (s.reg 0x01) 1) ::
      (operatorWritesIn s.rom.fields s.rom.opoff[(0 : Fin 2)][c] s.ib.op0 v ++
        operatorWritesIn s.rom.fields s.rom.opoff[(1 : Fin 2)][c] s.ib.op1 v))) :
    writeChannel c v s = s1.wr (chAddr 0xC0 c) (putFeedback s.rom.fields (s1.reg (chAddr 0xC0 c)) s.ib.fb s.ib.add) := by
  rw [writeChannel_eq_updates]
  exact State.updates_instUpdates_eq_writes (fun t => t.updates_opUpdates _ _ _ _) (fun t => t.updates_opUpdates _ _ _ _)
    hs1 _ _ _

theorem writeDrum_eq_writes {s s1 : State} {d : Fin 5} {v : Half}
    (hs1 : s1 = s.writes ((0x01, fieldReplaced s.rom.fields.wse (s.reg 0x01) 1) ::
      ((if s.rom.drumoff[(0 : Fin 2)][d] = 0xFF then [] else
          operatorWritesIn s.rom.fields s.rom.drumoff[(0 : Fin 2)][d] s.ib.op0 v) ++
       (if s.rom.drumoff[(1 : Fin 2)][d] = 0xFF then [] else
          operatorWritesIn s.rom.fields s.rom.drumoff[(1 : Fin 2)][d] s.ib.op1 v)))) :
    writeDrum d v s = s1.wr (chAddr 0xC0 s.rom.drumch[d])
      (putFeedback s.rom.fields (s1.reg (chAddr 0xC0 s.rom.drumch[d])) 0 0) := by
  rw [writeDrum_eq_updates]
  exact State.updates_instUpdates_eq_writes (fun t => s.updates_drumOpUpdates t 0 d v)
    (fun t => s.updates_drumOpUpdates t 1 d v) hs1 _ _ _

theorem instSetDrum_melodic {s : State} (v : Half) (h : s.ib.type = .melodic) : Effect (.instSetDrum v) s s := by
  refine effect_of_afterReset rfl ?_
  rw [setDrumInstrument, h]
  rfl

theorem drumIndex_drum : ∀ d : Fin 5, drumIndex ([InstType.bass, .snare, .tom, .cymbal, .hiHat].get d) = some d := by
  decide

theorem setDrumInstrument_of_type {s : State} {d : Fin 5}
    (h : s.ib.type = [InstType.bass, .snare, .tom, .cymbal, .hiHat].get d) (v : Half) :
    setDrumInstrument v s = writeDrum d v s := by
  rw [setDrumInstrument, h, drumIndex_drum]

/-- Settles O43: both commands set WSE, write their operators, then replace feedback and synthesis mode. -/
theorem instrumentWritesFollowTheLayout : Obligations.InstrumentWritesFollowTheLayout := by
  refine ⟨fun s s1 a k v m hm hk hs1 => ?_, fun s v h => instSetDrum_melodic v h,
    fun s s1 v d k m hm htype hk hs1 => ?_⟩
  · subst hm hk
    exact effect_of_afterReset rfl (writeChannel_eq_writes hs1)
  · subst hm hk
    refine effect_of_afterReset rfl ?_
    rw [setDrumInstrument_of_type htype, writeDrum_eq_writes hs1]
    rfl

/-! The default layout. -/

/-- A value as wide as its field, in its place. -/
theorem BitRange.place_setWidth {n : Nat} (sh : Nat) (x : BitVec n) :
    BitRange.place ⟨sh, n⟩ (x.setWidth 8) = BitVec.ofNat 8 (x.toNat * 2 ^ sh) := by
  apply BitVec.eq_of_getLsbD_eq
  intro i hi
  rw [BitRange.place, BitVec.getLsbD_shiftLeft, BitVec.getLsbD_and, BitRange.max_bit, BitVec.getLsbD_setWidth,
    BitVec.getLsbD_ofNat, Nat.testBit_mul_two_pow, ← BitVec.getLsbD]
  by_cases hs : sh ≤ i
  · have h8 : i - sh < 8 := by omega
    by_cases hn : i - sh < n
    · simp [hi, hs, hn, h8]
    · simp [BitVec.getLsbD_of_ge x (i - sh) (by omega)]
  · simp [hs, show i < sh by omega]

/-- Above bits that lie below its place, it adds to them. -/
theorem BitRange.place_or {n sh y : Nat} (x : BitVec n) (hy : y < 2 ^ sh) :
    BitRange.place ⟨sh, n⟩ (x.setWidth 8) ||| BitVec.ofNat 8 y = BitVec.ofNat 8 (x.toNat * 2 ^ sh + y) := by
  rw [BitRange.place_setWidth, ← BitVec.ofNat_or, Nat.mul_comm, Nat.two_pow_add_eq_or_of_lt hy]

/-- Two fields that fill the bits from 0 up. -/
theorem BitRange.place_or_place {n k : Nat} (x : BitVec n) (y : BitVec k) :
    BitRange.place ⟨k, n⟩ (x.setWidth 8) ||| BitRange.place ⟨0, k⟩ (y.setWidth 8) =
      BitVec.ofNat 8 (x.toNat * 2 ^ k + y.toNat) := by
  rw [BitRange.place_setWidth 0, Nat.pow_zero, Nat.mul_one, BitRange.place_or x y.isLt]

theorem img20_default (x : Operator) : img20 fieldMapDefault x = BitVec.ofNat 8
    (x.trem.toNat * 128 + x.vib.toNat * 64 + x.sush.toNat * 32 + x.ksr.toNat * 16 + x.mult.toNat) := by
  show BitRange.place ⟨7, 1⟩ _ ||| BitRange.place ⟨6, 1⟩ _ ||| BitRange.place ⟨5, 1⟩ _ ||| BitRange.place ⟨4, 1⟩ _ |||
    BitRange.place ⟨0, 4⟩ _ = _
  rw [BitVec.or_assoc, BitVec.or_assoc, BitVec.or_assoc, BitRange.place_or_place x.ksr, BitRange.place_or x.sush (by omega),
    BitRange.place_or x.vib (by omega), BitRange.place_or x.trem (by omega)]
  congr 1
  omega

theorem img40_default (x : Operator) (l : BitVec 6) :
    img40 fieldMapDefault x l = BitVec.ofNat 8 (x.ksl.toNat * 64 + l.toNat) := BitRange.place_or_place x.ksl l

theorem img60_default (x : Operator) : img60 fieldMapDefault x = BitVec.ofNat 8 (x.atk.toNat * 16 + x.dec.toNat) :=
  BitRange.place_or_place x.atk x.dec

theorem img80_default (x : Operator) : img80 fieldMapDefault x = BitVec.ofNat 8 (x.susl.toNat * 16 + x.rel.toNat) :=
  BitRange.place_or_place x.susl x.rel

theorem imgE0_default (x : Operator) : imgE0 fieldMapDefault x = BitVec.ofNat 8 x.wave.toNat := by
  rw [imgE0]
  exact (BitRange.place_setWidth 0 x.wave).trans (by rw [Nat.pow_zero, Nat.mul_one])

theorem operatorWritesIn_default (o : Byte) (x : Operator) (v : Half) :
    operatorWritesIn fieldMapDefault o x v = operatorWrites o x v := by
  rw [operatorWrites, ← img20_default, ← img40_default, ← img60_default, ← img80_default, ← imgE0_default]
  rfl

theorem and_not_or (v m : Byte) : (v &&& ~~~m) ||| m = v ||| m := by
  ext i hi
  rw [BitVec.getElem_or, BitVec.getElem_and, BitVec.getElem_not, BitVec.getElem_or]
  cases m[i] <;> simp

theorem FieldMap.wse_put_one (v : Byte) : fieldMapDefault.wse.put v 1 = v ||| 0x20 := and_not_or v 0x20

/-- Register 0xC0 + c of the default layout: bits 7:4 kept, feedback and synthesis mode below (R261). -/
theorem putFeedback_default (v : Byte) (fb : BitVec 3) (add : BitVec 1) : putFeedback fieldMapDefault v fb add =
    (v &&& 0xF0) ||| BitVec.ofNat 8 (fb.toNat * 2 + add.toNat) := by
  have hfb : ∀ x : BitVec 3, (x.setWidth 8 &&& (0x07 : Byte)) <<< 1 &&& 0xFE = BitRange.place ⟨1, 3⟩ (x.setWidth 8) := by
    decide
  have hadd : BitRange.place ⟨0, 1⟩ (add.setWidth 8) = add.setWidth 8 &&& 0x01 := BitVec.shiftLeft_zero _
  have hboth := BitRange.place_or_place fb add
  rw [hadd, Nat.pow_one] at hboth
  rw [← hboth, putFeedback, FieldMap.fb_put, FieldMap.syn_put, BitVec.and_or_distrib_right, hfb, BitVec.and_assoc,
    BitVec.or_assoc]
  rfl

/-- Settles O40: INST_SET's writes of any layout, their values in the default one. -/
theorem instSetWritesTheChannel : Obligations.InstSetWritesTheChannel := by
  intro s s1 a k v hm hk hs1
  subst hk
  rw [← FieldMap.wse_put_one, ← operatorWritesIn_default, ← operatorWritesIn_default, ← hm] at hs1
  refine effect_of_afterReset rfl ?_
  rw [writeChannel_eq_writes hs1, hm, putFeedback_default]
  rfl

/-- Settles O41: INST_SET_DRUM's writes of any layout, their values in the default one. -/
theorem instSetDrumWritesTheDrum : Obligations.InstSetDrumWritesTheDrum := by
  refine ⟨fun s v h => instSetDrum_melodic v h, fun s s1 v d k hm htype hk hs1 => ?_⟩
  subst hk
  rw [← FieldMap.wse_put_one, ← operatorWritesIn_default, ← operatorWritesIn_default, ← hm] at hs1
  refine effect_of_afterReset rfl ?_
  rw [setDrumInstrument_of_type htype, writeDrum_eq_writes hs1, hm, putFeedback_default]
  exact congrArg (State.wr s1 _) BitVec.or_zero

end Sys2Proof.Machine
end

section
/-! What INST_GET and GETLVL read after INST_SET, with the default tables (45_instrument_codec.md R260, R264). -/
namespace Sys2Proof.Machine

/-- After writes to different registers each of them holds what was written to it. -/
theorem State.reg_writes_mem {ws : List (Byte × Byte)} (hnd : (ws.map Prod.fst).Nodup) {p : Byte × Byte} (hp : p ∈ ws)
    (s : State) : (s.writes ws).reg p.1 = p.2 := by
  induction ws generalizing s with
  | nil => cases hp
  | cons q ws ih =>
    rw [List.map_cons, List.nodup_cons] at hnd
    obtain ⟨hq, hws⟩ := hnd
    rw [State.writes_cons]
    rcases List.mem_cons.1 hp with rfl | hp
    · rw [State.reg_writes_other _ _ _ fun r hr e => hq (List.mem_map.2 ⟨r, hr, e⟩), State.reg_wr_self]
    · exact ih hws hp _

theorem Effect.eq_of_next {i : Instr} {s t u : State} (h : Effect i s t) (hi : i ≠ .reset) (hu : exec i s = .next u) :
    u = t := by
  obtain ⟨hnext, -⟩ := h
  rw [hnext (exec_next_init hi hu)] at hu
  exact (Host.Outcome.next.inj hu).symm

/-- INST_SET's twelve writes with the default tables, `x` and `k` the values of 0x01 and 0xC0 + c. -/
def channelWrites (c : Fin 9) (i : Instrument) (v : Half) (x k : Byte) : List (Byte × Byte) :=
  (0x01, x) :: (operatorWrites opoffDefault[(0 : Fin 2)][c] i.op0 v ++ operatorWrites opoffDefault[(1 : Fin 2)][c] i.op1 v ++
    [(chAddr 0xC0 c, k)])

theorem channelWrites_addrs_nodup (c : Fin 9) (i : Instrument) (v : Half) (x k : Byte) :
    ((channelWrites c i v x k).map Prod.fst).Nodup := by
  have h : ∀ c : Fin 9, (0x01 :: (opRegs opoffDefault[(0 : Fin 2)][c] ++ opRegs opoffDefault[(1 : Fin 2)][c] ++
      [chAddr 0xC0 c])).Nodup := by decide
  exact h c

theorem operatorWrites_subset_channelWrites (c : Fin 9) (i : Instrument) (v : Half) (x k : Byte) : ∀ p : Fin 2,
    operatorWrites opoffDefault[p][c] (i.op p) v ⊆ channelWrites c i v x k :=
  Fin.forall_fin_two.2 ⟨
    fun _ hw => List.mem_cons_of_mem _ (List.mem_append_left _ (List.mem_append_left _ hw)),
    fun _ hw => List.mem_cons_of_mem _ (List.mem_append_left _ (List.mem_append_right _ hw))⟩

theorem feedback_mem_channelWrites (c : Fin 9) (i : Instrument) (v : Half) (x k : Byte) :
    (chAddr 0xC0 c, k) ∈ channelWrites c i v x k :=
  List.mem_cons_of_mem _ (List.mem_append_right _ (List.mem_singleton_self _))

theorem exec_instSet_next {s t : State} {a : Byte} {v : Half} (hrom : s.rom = romDefault)
    (h : exec (.instSet a v) s = .next t) : ∃ x y : Byte, t = s.writes (channelWrites (ch a) s.ib v x
      ((y &&& 0xF0) ||| BitVec.ofNat 8 (s.ib.fb.toNat * 2 + s.ib.add.toNat))) := by
  have hm : s.rom.fields = fieldMapDefault := by rw [hrom]; rfl
  have ht := (instSetWritesTheChannel s _ a _ v hm rfl rfl).eq_of_next (by simp) h
  rw [hrom] at ht
  exact ⟨_, _, ht.trans (State.writes_append s _ [(_, _)]).symm⟩

/-- The registers INST_SET leaves: those of both operators, and feedback and synthesis mode. -/
theorem exec_instSet_regs {s t : State} {a : Byte} {v : Half} (hrom : s.rom = romDefault)
    (h : exec (.instSet a v) s = .next t) :
    (∀ p : Fin 2, ∀ w ∈ operatorWrites opoffDefault[p][ch a] (s.ib.op p) v, t.reg w.1 = w.2) ∧
      ∃ y : Byte, t.reg (chAddr 0xC0 (ch a)) = (y &&& 0xF0) ||| BitVec.ofNat 8 (s.ib.fb.toNat * 2 + s.ib.add.toNat) := by
  obtain ⟨x, y, rfl⟩ := exec_instSet_next hrom h
  have hreg {w : Byte × Byte} (hw : w ∈ _) := State.reg_writes_mem (channelWrites_addrs_nodup (ch a) s.ib v x
    ((y &&& 0xF0) ||| BitVec.ofNat 8 (s.ib.fb.toNat * 2 + s.ib.add.toNat))) hw s
  exact ⟨fun p w hw => hreg (operatorWrites_subset_channelWrites _ _ _ _ _ p hw), y,
    hreg (feedback_mem_channelWrites _ _ _ _ _)⟩

theorem Instrument.ext_fields {i j : Instrument} (h0 : i.op0 = j.op0) (h1 : i.op1 = j.op1) (hfb : i.fb = j.fb)
    (hadd : i.add = j.add) (htype : i.type = j.type) : i = j := by
  cases i; cases j; simp_all

/-- The operator read from the registers an operator was written to is that operator at the scaled level. -/
theorem eq_of_operatorEncoded {t : State} {x z : Operator} {o : Byte} {v : Half}
    (hreg : ∀ w ∈ operatorWrites o x v, t.reg w.1 = w.2)
    (hz : operatorEncoded z (t.reg (0x20 + o)) (t.reg (0x40 + o)) (t.reg (0x60 + o)) (t.reg (0x80 + o))
      (t.reg (0xE0 + o))) : z = { x with lvl := scale x.lvl v } := by
  simp only [List.forall_mem_cons] at hreg
  obtain ⟨h2, h4, h6, h8, hE, -⟩ := hreg
  rw [h2, h4, h6, h8, hE] at hz
  obtain ⟨trem, vib, sush, ksr, mult, ksl, lvl, atk, dec, susl, rel, wave⟩ := z
  simp only [operatorEncoded, BitVec.toNat_ofNat] at hz
  simp only [Operator.mk.injEq, BitVec.toNat_eq]
  and_intros <;> omega

/-- The low half of register 0xC0 + c is what INST_SET put there. -/
theorem kept_or_toNat_mod (y : Byte) {n : Nat} (h : n < 16) : ((y &&& 0xF0) ||| BitVec.ofNat 8 n).toNat % 16 = n := by
  have hn : n % 2 ^ 8 % 2 ^ 4 = n := by omega
  have h0 : (0xF0 : Byte).toNat % 2 ^ 4 = 0 := rfl
  show _ % 2 ^ 4 = n
  rw [BitVec.toNat_or, Nat.or_mod_two_pow, BitVec.toNat_and, Nat.and_mod_two_pow, h0, Nat.and_zero, Nat.zero_or,
    BitVec.toNat_ofNat, hn]

theorem exec_instGet_of_instSet {s t : State} {a : Byte} (hrom : s.rom = romDefault)
    (h : exec (.instSet a 0x8000) s = .next t) :
    exec (.instGet a) t = .next { t with ib := { s.ib with type := .melodic } } := by
  obtain ⟨-, -, -, htrom, -, -, hinit⟩ := commandsChangeOnlyWhatTheirRulesName _ s t h
  rw [hrom] at htrom
  obtain ⟨hop, y, hfeedback⟩ := exec_instSet_regs hrom h
  obtain ⟨i, ⟨hnext, -⟩, h0, h1, hfb, hadd, htype⟩ :=
    instGetReadsTheChannel t a _ _ _ (by rw [htrom]; rfl) rfl rfl hfeedback.symm
  rw [htrom] at h0 h1
  have hop0 := eq_of_operatorEncoded (hop 0) h0
  have hop1 := eq_of_operatorEncoded (hop 1) h1
  rw [scale_one] at hop0 hop1
  have hlow := kept_or_toNat_mod y (n := s.ib.fb.toNat * 2 + s.ib.add.toNat) (by omega)
  have hfb' : i.fb = s.ib.fb := BitVec.eq_of_toNat_eq (by omega)
  have hadd' : i.add = s.ib.add := BitVec.eq_of_toNat_eq (by omega)
  have hi : i = { s.ib with type := .melodic } := Instrument.ext_fields hop0 hop1 hfb' hadd' htype
  rw [hnext hinit, hi]

theorem exec_getlvl_of_instSet {s t : State} {a : Byte} (b : Byte) (hrom : s.rom = romDefault)
    (h : exec (.instSet a 0) s = .next t) : exec (.getlvl a b) t = .next { t with res := 63 } := by
  obtain ⟨-, -, -, htrom, -, -, hinit⟩ := commandsChangeOnlyWhatTheirRulesName _ s t h
  rw [hrom] at htrom
  obtain ⟨hop, -⟩ := exec_instSet_regs hrom h
  have hlvl := hop (op b) (_, _) (List.mem_cons_of_mem _ List.mem_cons_self)
  have hget : ∀ k : BitVec 2, fieldMapDefault.lvl.get (BitVec.ofNat 8 (k.toNat * 64 + 63)) = 63 := by decide
  have heff : Effect (.getlvl a b) t { t with res := BitVec.setWidth 16 (63 : Byte) } := by
    refine operatorGetter_effect .lvl (m := fieldMapDefault) (by rw [htrom]; rfl) rfl ?_
    rw [htrom]
    rw [scale_zero] at hlvl
    exact (congrArg fieldMapDefault.lvl.get hlvl).trans (hget _)
  exact heff.1 hinit

/-- Settles O44: the operators, feedback and synthesis mode read from the registers INST_SET leaves; the distance from 63
only shrinks. -/
theorem instrumentsReadBackWhatWasWritten : Obligations.InstrumentsReadBackWhatWasWritten := by
  refine ⟨fun l v => ?_, fun s t a b hrom => ⟨exec_instGet_of_instSet hrom, exec_getlvl_of_instSet b hrom⟩⟩
  have h := scaled_distance_le l v
  rw [scale_toNat]
  omega

end Sys2Proof.Machine
end

section
/-! Playback (46_playback.md R290-R292): PLAYNOTE and PLAYDRUM in the default layout. -/
namespace Sys2Proof.Machine

/-! The values written. -/

/-- Register 0xB0 + c with block and F-number replaced: bits 7:5 kept (R291). -/
theorem putPitch_default (v : Byte) (b : BitVec 3) (f : BitVec 10) :
    putPitch fieldMapDefault v b f = (v &&& 0xE0) ||| BitVec.ofNat 8 (b.toNat * 4 + f.toNat / 256) := by
  have hf : f.toNat / 256 < 4 := Nat.div_lt_of_lt_mul f.isLt
  have hfits : ∀ n < 4, BitVec.ofNat 8 n &&& (0xE3 : Byte) = BitVec.ofNat 8 n := by decide
  have hblk : (b.setWidth 8 &&& (0x07 : Byte)) <<< 2 = BitRange.place ⟨2, 3⟩ (b.setWidth 8) := rfl
  rw [putPitch, FieldMap.fnum_putHigh, FieldMap.blk_put, BitVec.and_or_distrib_right, hfits _ hf, hblk,
    BitVec.and_assoc, BitVec.or_assoc, BitVec.or_comm (BitVec.ofNat 8 _), BitRange.place_or b hf]
  rfl

/-- Key-on and the pitch below it, as one number. -/
theorem keyOn_or_pitch {l : Nat} (hl : l < 32) : 0x20 ||| BitVec.ofNat 8 l = BitVec.ofNat 8 (0x20 + l) :=
  BitRange.place_or (sh := 5) (1 : BitVec 1) hl

/-- Block and F-number bits 9:8 lie below key-on. -/
theorem pitch_lt (b : BitVec 3) (f : BitVec 10) : b.toNat * 4 + f.toNat / 256 < 32 := by omega

theorem oct_toNat_eq_min (b : Byte) : (oct b).toNat = min b.toNat 7 := toNat_ofNat_clampFin_seven b

/-- PLAYNOTE's last value: key-on set above the pitch, bits 7:6 kept (R290). -/
theorem key_put_putPitch_default (v : Byte) (b : BitVec 3) (f : BitVec 10) :
    fieldMapDefault.key.put (putPitch fieldMapDefault (v &&& 0xDF) b f) 1 =
      (v &&& 0xC0) ||| BitVec.ofNat 8 (0x20 + (b.toNat * 4 + f.toNat / 256)) := by
  have hl := pitch_lt b f
  have hfits : ∀ n < 32, BitVec.ofNat 8 n &&& (0xDF : Byte) = BitVec.ofNat 8 n := by decide
  rw [putPitch_default, FieldMap.key_put, BitVec.and_or_distrib_right, hfits _ hl, BitVec.and_assoc, BitVec.and_assoc,
    BitVec.or_assoc, BitVec.or_comm (BitVec.ofNat 8 _), ← keyOn_or_pitch hl]
  rfl

/-! The writes of the two commands. -/

theorem playNote_default (c : Fin 9) (b : BitVec 3) (f : BitVec 10) {s : State} (hm : s.rom.fields = fieldMapDefault) :
    playNote c b f s = s.writes [(chAddr 0xB0 c, s.reg (chAddr 0xB0 c) &&& 0xDF),
      (chAddr 0xA0 c, BitVec.ofNat 8 (f.toNat % 256)),
      (chAddr 0xB0 c, (s.reg (chAddr 0xB0 c) &&& 0xC0) ||| BitVec.ofNat 8 (0x20 + (b.toNat * 4 + f.toNat / 256)))] := by
  have hclear : fieldMapDefault.key.clear (s.reg (chAddr 0xB0 c)) = s.reg (chAddr 0xB0 c) &&& 0xDF := rfl
  rw [playNote, hm, hclear, FieldMap.fnum_putLow, State.reg_wr_other _ _ _ _ (chAddr_ne (by decide) c),
    State.reg_wr_self, key_put_putPitch_default]
  rfl

theorem playDrum_default (d : Fin 5) (b : BitVec 3) (f : BitVec 10) {s s1 s2 s3 : State}
    (hm : s.rom.fields = fieldMapDefault) (hs1 : s1 = s.wr 0xBD (s.reg 0xBD &&& ~~~s.rom.drumbit[d]))
    (hs2 : s2 = s1.wr (chAddr 0xA0 s.rom.drumch[d]) (BitVec.ofNat 8 (f.toNat % 256)))
    (hs3 : s3 = s2.wr (chAddr 0xB0 s.rom.drumch[d]) ((s2.reg (chAddr 0xB0 s.rom.drumch[d]) &&& 0xE0) |||
      BitVec.ofNat 8 (b.toNat * 4 + f.toNat / 256))) :
    playDrum d b f s = s3.wr 0xBD (s3.reg 0xBD ||| s.rom.drumbit[d]) := by
  rw [playDrum, hm, ← hs1, FieldMap.fnum_putLow, ← hs2, putPitch_default, ← hs3]

/-- Settles O45: the three writes in the default layout, which can hold the fields the getters read back. -/
theorem playnoteIsThreeWrites : Obligations.PlaynoteIsThreeWrites := by
  intro s a b c r q n m hm hr hq hn hb
  subst hr hq hn hb
  have hwf : s.rom.fields.wf := by rw [hm]; decide
  refine ⟨effect_of_afterReset rfl ?_, fun t h => ?_⟩
  · rw [playNote_default _ _ _ hm, oct_toNat_eq_min, ← Nat.add_assoc]
    rfl
  · rw [BitVec.ofNat_toNat]
    exact getters_after_playnote hwf h

/-- Settles O46: the four writes in the default layout. -/
theorem playdrumIsFourWrites : Obligations.PlaydrumIsFourWrites := by
  intro s s1 s2 s3 a b c r q n m hm hr hq hn hb hs1 hs2 hs3
  subst hr hq hn hb
  rw [← oct_toNat_eq_min] at hs3
  exact effect_of_afterReset rfl (playDrum_default (drum a) (oct b) s.rom.notef[note c] hm hs1 hs2 hs3)

/-! Off before the pitch, on with or after it. -/

theorem and_not_and_self (v k : Byte) : v &&& ~~~k &&& k = 0 := by
  rw [BitVec.and_assoc, BitVec.not_and_self]
  exact BitVec.and_zero

theorem or_and_self (v k : Byte) : (v ||| k) &&& k = k := by
  ext i hi
  rw [BitVec.getElem_and, BitVec.getElem_or]
  cases k[i] <;> simp

theorem or_and_not_self (v k : Byte) : (v ||| k) &&& ~~~k = v &&& ~~~k := or_and (BitVec.and_not_self k) v

theorem chAddr_B0_sub : ∀ c, chAddr 0xB0 c - 0x10 = chAddr 0xA0 c := by decide

/-- PLAYNOTE's events: key-on cleared, F-number bits 7:0, then the rest of the pitch with key-on set. -/
theorem exec_playnote_tx {s t : State} {a b c r : Byte} (hm : s.rom.fields = fieldMapDefault) (hr : r = chAddr 0xB0 (ch a))
    (h : exec (.playnote a b c) s = .next t) :
    ∃ v2 v3 : Byte, t.tx = s.tx ++ [.write r (s.reg r &&& 0xDF), .write (r - 0x10) v2, .write r v3] ∧
      v3 &&& 0x20 = 0x20 := by
  subst hr
  obtain ⟨-, ht⟩ := (afterReset_next _ _ _ _).1 h
  have hl := pitch_lt (oct b) s.rom.notef[note c]
  rw [playNote_default _ _ _ hm, ← keyOn_or_pitch hl, BitVec.or_comm 0x20, ← BitVec.or_assoc] at ht
  obtain ⟨-, -, -, htx, -⟩ := State.writes_fields s _
  rw [← ht] at htx
  rw [chAddr_B0_sub]
  exact ⟨_, _, htx, or_and_self _ _⟩

/-- PLAYDRUM's events: the drum's bit cleared, the two writes of the pitch with bits 7:5 kept, the drum's bit set. -/
theorem exec_playdrum_tx {s t : State} {a b c r k : Byte} (hm : s.rom.fields = fieldMapDefault)
    (hr : r = chAddr 0xB0 s.rom.drumch[drum a]) (hk : k = s.rom.drumbit[drum a]) (h : exec (.playdrum a b c) s = .next t) :
    ∃ v2 v3 : Byte, t.tx = s.tx ++ [.write 0xBD (s.reg 0xBD &&& ~~~k), .write (r - 0x10) v2, .write r v3,
      .write 0xBD (s.reg 0xBD &&& ~~~k ||| k)] ∧ v3 &&& 0xE0 = s.reg r &&& 0xE0 := by
  subst hr hk
  obtain ⟨-, ht⟩ := (afterReset_next _ _ _ _).1 h
  have hne := chAddr_ne (show (0xB0 : Byte) ≠ 0xA0 by decide) s.rom.drumch[drum a]
  have hlow : ∀ n < 32, BitVec.ofNat 8 n &&& (0xE0 : Byte) = 0 := by decide
  rw [playDrum_default _ _ _ hm rfl rfl rfl, State.reg_wr_other _ _ _ _ hne, State.reg_wr_other _ _ _ _ (block_ne_BD _),
    State.reg_wr_other _ _ _ _ (block_ne_BD _).symm, State.reg_wr_other _ _ _ _ (fnumLow_ne_BD _).symm,
    State.reg_wr_self] at ht
  have htx := congrArg State.tx ht
  simp only [State.wr_tx, List.append_assoc, List.cons_append, List.nil_append] at htx
  rw [chAddr_B0_sub]
  refine ⟨_, _, htx, ?_⟩
  rw [or_and (hlow _ (pitch_lt _ _)), BitVec.and_assoc, BitVec.and_self]

/-- Settles O48, by the events of the two commands; the default drum bits are bits 4 - d. -/
theorem voicesAreKeyedOffBeforeTheirPitch : Obligations.VoicesAreKeyedOffBeforeTheirPitch := by
  have hbit : ∀ d : Fin 5, (0x10 : Byte) >>> d.val = drumbitDefault[d] := by decide
  refine ⟨fun s t a b c r hm hr h => ?_, fun s t a b c r hrom hr h => ?_⟩
  · obtain ⟨v2, v3, htx, hon⟩ := exec_playnote_tx hm hr h
    exact ⟨_, v2, v3, htx, and_not_and_self (s.reg r) 0x20, by rw [BitVec.and_assoc, BitVec.and_self], hon⟩
  · have hk : (0x10 : Byte) >>> (drum a).val = s.rom.drumbit[drum a] := by rw [hrom]; exact hbit _
    obtain ⟨v2, v3, htx, hkept⟩ := exec_playdrum_tx (by rw [hrom]; rfl) hr hk h
    exact ⟨_, v2, v3, _, _, rfl, htx, and_not_and_self _ _, by rw [BitVec.and_assoc, BitVec.and_self], hkept,
      or_and_self _ _, by rw [or_and_not_self, BitVec.and_assoc, BitVec.and_self]⟩

end Sys2Proof.Machine
end

section
/-! The checks of a command word and the stops they lead to (60_exceptions.md R301-R304). -/
namespace Sys2Proof.Machine

/-! The two checks. -/

theorem exists_exec_next {i : Instr} {s : State} (h : i = .reset ∨ s.init = true) : ∃ t, exec i s = .next t := by
  rcases exec_cases i s with ⟨-, hr⟩ | ⟨hi, t, -, ht⟩
  · exact ⟨_, hr⟩
  · exact ⟨t, ht.trans (afterReset_of_init i s t (h.resolve_left hi))⟩

/-- Settles O11: RESET checks nothing, and every other command checks INIT alone. -/
theorem everyCommandCompletesAfterReset : Obligations.EveryCommandCompletesAfterReset :=
  fun _ _ => exists_exec_next

theorem exec_of_not_init {i : Instr} {s : State} (hi : i ≠ .reset) (h : s.init = false) :
    exec i s = .fault (.notReset (encode i)) := by
  rcases exec_cases i s with ⟨hr, -⟩ | ⟨-, t, -, ht⟩
  · exact absurd hr hi
  · exact ht.trans (afterReset_of_not_init i s t h)

theorem step_of_not_init {s : State} {w : Word} {rest : List Input} {i : Instr} (hin : s.inbox = .command w :: rest)
    (hd : decode w = some i) (hi : i ≠ .reset) (h : s.init = false) : step s = .fault (.notReset w) := by
  have hexec : exec i { s with inbox := rest } = .fault (.notReset (encode i)) := exec_of_not_init hi h
  rw [step_of_command hin, runWord_of_decode hd, hexec]
  rfl

/-- Settles O12: the check of INIT fails, and the step records the word it took. -/
theorem commandsBeforeResetFault : Obligations.CommandsBeforeResetFault :=
  fun _ _ hi h => ⟨⟨_, exec_of_not_init hi h⟩, fun _ _ hd => step_of_not_init rfl hd hi h⟩

theorem opcode_eq_one_iff (i : Instr) : i.opcode = 0x01 ↔ i = .reset := by
  cases i <;> simp [Instr.opcode]

/-- A word whose opcode is assigned decodes, to RESET exactly where its opcode is RESET's. -/
theorem exists_decode_of_assigned {w : Word} (h : ¬ unassignedOpcode (opField w).toNat) :
    ∃ i, decode w = some i ∧ (opField w = 0x01 ↔ i = .reset) := by
  obtain ⟨i, hd⟩ := Option.ne_none_iff_exists'.1 (mt (decode_eq_none_iff w).1 h)
  exact ⟨i, hd, opField_of_decode hd ▸ opcode_eq_one_iff i⟩

/-- Settles O10: the word's opcode is looked at first, then INIT by its command, which then completes. -/
theorem checksComeInOrder : Obligations.ChecksComeInOrder := by
  intro s w rest hin
  refine ⟨fun hop => (unassignedOpcodesAreRefused w).2 s rest hop hin, fun hop hne h => ?_, fun hop h => ?_⟩
  · obtain ⟨i, hd, hr⟩ := exists_decode_of_assigned hop
    exact step_of_not_init hin hd (mt hr.2 hne) h
  · obtain ⟨i, hd, hr⟩ := exists_decode_of_assigned hop
    obtain ⟨t, ht⟩ := exists_exec_next (s := { s with inbox := rest }) (h.imp_left hr.1)
    exact ⟨t, (stepRunsTheDecodedInstruction s w rest i hin hd).2 t ht⟩

/-! Runs. -/

/-- A run goes on from the state its first steps come to. -/
theorem run_add {M : Host.Core} {n : Nat} (m : Nat) {s t : M.State} (h : M.run n s = .next t) :
    M.run (n + m) s = M.run m t := by
  induction n generalizing s with
  | zero => rw [Nat.zero_add, Host.Outcome.next.inj h]
  | succ n ih =>
    obtain ⟨u, hu, hrun⟩ := run_succ_next h
    rw [Nat.succ_add, Host.Core.run, hu]
    exact ih hrun

theorem run_of_step_fault {M : Host.Core} {s : M.State} {r : M.Fault} (h : M.step s = .fault r) (k : Nat) :
    M.run (k + 1) s = .fault r := by
  rw [Host.Core.run, h]

theorem run_of_step_refused {M : Host.Core} {s : M.State} {r : M.Refusal} (h : M.step s = .refused r) (k : Nat) :
    M.run (k + 1) s = .refused r := by
  rw [Host.Core.run, h]

/-- Settles O13: the longer run takes the state's step, which stops, and a run ends at its first stop. -/
theorem stopsAreFinal : Obligations.StopsAreFinal := by
  intro n k s t w rest hrun hin
  rw [Nat.add_assoc, Nat.add_comm 1 k, run_add (M := Sys2Proof.core) _ hrun]
  exact ⟨fun hop => run_of_step_refused (M := Sys2Proof.core) ((unassignedOpcodesAreRefused w).2 t rest hop hin) k,
    fun i hd hi h => run_of_step_fault (M := Sys2Proof.core) (step_of_not_init hin hd hi h) k⟩

end Sys2Proof.Machine
end

section
/-! How many writes every command emits (70_reset_and_hazards.md R350): a command's updates, one `Write` event each. -/
namespace Sys2Proof.Machine

theorem countWrites_writeEvents (ws : List (Byte × Byte)) : countWrites (writeEvents ws) = ws.length := by
  rw [countWrites, writeEvents, List.countP_map]
  exact List.countP_eq_length.2 fun _ _ => rfl

theorem pulse_notMem_writeEvents (ws : List (Byte × Byte)) : .pulse ∉ writeEvents ws := by
  simp [writeEvents]

/-- RESET's events after the pulse are writes. -/
theorem resetEvents_eq_writeEvents : resetEvents = .pulse :: writeEvents (regAddrs.map fun r => (r, 0)) := by
  rw [resetEvents, writeEvents, List.map_map]
  rfl

theorem countWrites_resetEvents : countWrites resetEvents = 256 := by
  have hpulse : ∀ es, countWrites (.pulse :: es) = countWrites es := fun _ => rfl
  rw [resetEvents_eq_writeEvents, hpulse, countWrites_writeEvents]
  simp [regAddrs, nreg]

/-- Each update of a list emits one write. -/
theorem State.updates_tx (s : State) (us : List Update) :
    ∃ ws : List (Byte × Byte), ws.length = us.length ∧ (s.updates us).tx = s.tx ++ writeEvents ws := by
  obtain ⟨ws, haddrs, hws⟩ := s.updates_eq_writes us
  obtain ⟨-, -, -, htx, -⟩ := s.writes_fields ws
  exact ⟨ws, by simpa using congrArg List.length haddrs, hws s rfl ▸ htx⟩

theorem drumRegs_length (t : InstType) : (drumRegs romDefault t).length = drumWriteCount t := by
  cases t <;> rfl

/-- With the default tables a command other than RESET performs as many updates as R350 says; INST_SET_DRUM as many as its
drum has registers. -/
theorem updates_length {i : Instr} (hi : i ≠ .reset) {s : State} (hrom : s.rom = romDefault) :
    (i.updates s).length = i.writeCount s := by
  cases i with
  | reset => exact absurd rfl hi
  | instSetDrum v =>
    calc (drumUpdates s v).length = ((drumUpdates s v).map Prod.fst).length := (List.length_map _).symm
      _ = (drumRegs romDefault s.ib.type).length := by rw [drumUpdates_addrs, hrom]
      _ = drumWriteCount s.ib.type := drumRegs_length _
  | _ => rfl

/-- Settles O49: RESET emits its pulse and 256 zeros, every other command one write for each of its updates. -/
theorem transactionCounts : Obligations.TransactionCounts := by
  intro i s t hrom h
  by_cases hi : i = .reset
  · subst hi
    obtain rfl := exec_reset_next h
    obtain ⟨-, -, -, htx, -⟩ := resetBlock_fields s
    exact ⟨resetEvents, htx, countWrites_resetEvents,
      fun _ => ⟨_, resetEvents_eq_writeEvents, pulse_notMem_writeEvents _⟩, fun hne => absurd rfl hne⟩
  · obtain ⟨r, ib, -, -, rfl⟩ := exec_next_updates hi h
    obtain ⟨ws, hlen, htx⟩ := s.updates_tx (i.updates s)
    exact ⟨writeEvents ws, htx, by rw [countWrites_writeEvents, hlen, updates_length hi hrom],
      fun he => absurd he hi, fun _ => pulse_notMem_writeEvents ws⟩

end Sys2Proof.Machine
end
